-- ==== Sys2Proof/Word.lean ====
section
/-! DEFINITION. The words, bytes and bit-strings of the block (00_scope.md R8, R9). -/

namespace Sys2Proof

/-- A 64-bit register, host data value or command word (R8). -/
abbrev Word := BitVec 64

/-- One byte of a buffer, and a symbol (R8: unsigned). -/
abbrev Byte := BitVec 8

/-- A bit-string, first bit first (R9). `false` is the bit 0. -/
abbrev Code := List Bool

/-- A natural number as a 64-bit register value. Where the spec shows that the value fits (R8) it is stored unchanged. -/
abbrev word (n : Nat) : Word := BitVec.ofNat 64 n

/-- A natural number as a byte. -/
abbrev byte (n : Nat) : Byte := BitVec.ofNat 8 n

end Sys2Proof
end

