-- ==== Sys2Proof/Config.lean ====
section
/-! DEFINITION. What is fixed for one block: its constants (00_scope.md R7), the shape of its parameters (R6), and the
free values that stand for what an unwritten cell reads as (R13) and for what becomes of a host write while BUSY = 1 (R300). -/

namespace Sys2Proof

/-- The tie-break of BUILD (R6): ID_ORDER is the only value the spec defines (R111). -/
inductive TieBreak where
  | idOrder
deriving DecidableEq, Repr

/-- The parameters of a block (R6), which the spec leaves OPEN. The capacities are what registers r16 to r20 hold (R35),
so they are 64-bit register values. They stand in `State`, never written by any step, and a claim about every state is a
claim about every capacity (log 1). -/
structure Params where
  inCap   : Word
  nameCap : Word
  payCap  : Word
  outCap  : Word
  arcCap  : Word
  tieBreak : TieBreak
deriving DecidableEq, Repr

namespace Config

/-- The reference capacities of R6, which State.reset takes. DESIGN CHOICE (log 1): the spec leaves them OPEN. Unsafe for a
claim that rests on their values. -/
def referenceParams : Params :=
  { inCap := 4096, nameCap := 256, payCap := 1048576, outCap := 4096, arcCap := 2097152, tieBreak := .idOrder }

/-- The identification register (R23): "HFCA" and the edition 7. -/
def idValue : Word := 0x0000000741434648

/-- NSYM (R7). -/
def nsym : Nat := 256

/-- NODE_CAP (R7). -/
def nodeCap : Nat := 511

/-- MAX_CODE_LEN (R7). -/
def maxCodeLen : Nat := 255

/-- Free value: what the `n`-th read of an unwritten cell of bytes returns (R13, R63: unspecified; two reads may differ).
DESIGN CHOICE (log 3, log 4). Safe: nothing can be proved of it. -/
opaque unspecifiedByte : Nat → Byte

/-- Free value: what the `n`-th read of an unwritten cell of bits returns (R13; log 3). -/
opaque unspecifiedBit : Nat → Bool

/-- Free value: what the `n`-th read of an unwritten 64-bit cell returns (R13), and what a host read of an unwritten cell or a
busy host read returns (R63, R300; log 3, log 5), whatever the width of the window read (DESIGN CHOICE, log 3). -/
opaque unspecifiedWord : Nat → Word

/-- Free value: whether the host write made at count `n` while BUSY = 1 reaches its element before the command in flight runs (R300: it "may or
may not reach the command in flight"; log 5). -/
opaque busyWriteReaches : Nat → Bool

/-- Free value: the child fields of an unwritten node slot (R13, R41; log 3). -/
opaque unspecifiedChild : Nat → Bool → BitVec 9

end Config

end Sys2Proof
end

