-- ==== Sys2Proof/Syntax.lean ====
section
/-! DEFINITION. The commands of the block (spec/opcode_table.json; 30_encoding.md R82), the HOST's transactions (R85), the moves
of the two agents and of the reset input (R5, R292), and the host assembler's lines (R86, R87). -/

namespace Sys2Proof

/-- The 17 commands of HFC command set v1 (R82). No command has an operand field (R81): every operand is a register, buffer or
table that the command's rule names. -/
inductive Instr where
  /-- NOP, 0x00, R230 -/
  | nop
  /-- RESET, 0x01, R231 -/
  | reset
  /-- ABORT, 0x02, R232 -/
  | abort
  /-- FREQ, 0x10, R100 -/
  | freq
  /-- BUILD, 0x11, R110 -/
  | build
  /-- CODEGEN, 0x12, R120 -/
  | codegen
  /-- ENCODE, 0x13, R140 -/
  | encode
  /-- COMPRESS, 0x14, R150 -/
  | compress
  /-- DINV, 0x20, R160 -/
  | dinv
  /-- DECODE, 0x21, R170 -/
  | decode
  /-- AWBEGIN, 0x30, R185 -/
  | awbegin
  /-- AWREC, 0x31, R186 -/
  | awrec
  /-- AWEND, 0x32, R188 -/
  | awend
  /-- ARBEGIN, 0x38, R190 -/
  | arbegin
  /-- ARREC, 0x39, R192 -/
  | arrec
  /-- AREND, 0x3A, R200 -/
  | arend
  /-- EXTRACT, 0x3B, R201 -/
  | extract
deriving DecidableEq, Repr

/-- A command word split into its two fields (R80). -/
structure CmdFields where
  opc : BitVec 8
  rsv : BitVec 56
deriving DecidableEq, Repr

/-- A HOST operation (R60, R85). -/
inductive HostOp where
  | read (addr : Word)
  | write (addr data : Word)
deriving DecidableEq, Repr

/-- The three fields of an encoded host transaction (R85): K, A and D. -/
structure HostTxn where
  k : BitVec 1
  a : Word
  d : Word
deriving DecidableEq, Repr

/-- One move of the system (R5, R292): a HOST operation, a turn of the ENGINE, the out-of-band reset input, or one of the two
pseudo-instructions of the HOST's program that act on what they read (R87; log 6). -/
inductive Move where
  | host (op : HostOp)
  | engine
  | hardReset
  /-- one pass of the loop of `wait`; `polls` is how many more passes may see BUSY = 1 before the ENGINE's turn comes -/
  | wait (polls : Nat)
  /-- `expect`: a read, and the record of whether its value is `value` -/
  | expect (addr value : Word)
deriving DecidableEq, Repr

/-- The named registers of R21, for the assembler (R86). -/
inductive RegName where
  | id | cmd | status | inLen | nameLen | payLen | outLen | arcLen | distinct | nodeCount | root | codeCount
  | recCount | recRemain | arcCur | errInfo | inCapr | nameCapr | payCapr | outCapr | arcCapr
deriving DecidableEq, Repr

/-- The window names of the assembler (R86). -/
inductive WindowName where
  | inbuf | namebuf | paybuf | outbuf | arcbuf | freq | clen | cbit | node
deriving DecidableEq, Repr

/-- The buffers `load` can fill (R87). -/
inductive LoadTarget where
  | inbuf | namebuf | arcbuf
deriving DecidableEq, Repr

/-- One line of a host program in the assembler of R86 and R87. -/
inductive AsmLine where
  | rd (r : RegName)
  | wr (r : RegName) (d : Word)
  | rdb (w : WindowName) (i : Nat)
  | wrb (w : WindowName) (i : Nat) (d : Word)
  | cmd (i : Instr)
  /-- `wait`; `polls` is the schedule's: how often its loop sees BUSY = 1 before the ENGINE's turn, where a command is pending (log 6) -/
  | wait (polls : Nat)
  | run (i : Instr) (polls : Nat)
  | load (t : LoadTarget) (bytes : List Byte)
  | loadbits (bits : Code)
  | expectReg (r : RegName) (v : Word)
  | expectElem (w : WindowName) (i : Nat) (v : Word)
deriving DecidableEq, Repr

end Sys2Proof
end

