-- ==== Sys2Proof/WellFormed.lean ====
section
/-! DEFINITION. The checks on syntax: a command's fields (30_encoding.md R80, R82), an encoded host transaction (R85), an assembler
line's index (20_memory.md R60) and a block's parameters (00_scope.md R6). -/

namespace Sys2Proof

/-- Every command is well formed: it has no operand field and no immediate (R81), so there is nothing to check. -/
def Instr.wf : Instr → Bool
  | .nop | .reset | .abort | .freq | .build | .codegen | .encode | .compress | .dinv | .decode | .awbegin | .awrec
  | .awend | .arbegin | .arrec | .arend | .extract => true

/-- The OPC values of R82, in its order. -/
def assignedOpcodes : List (BitVec 8) :=
  [0x00, 0x01, 0x02, 0x10, 0x11, 0x12, 0x13, 0x14, 0x20, 0x21, 0x30, 0x31, 0x32, 0x38, 0x39, 0x3A, 0x3B]

/-- The fields select a command: RSV is 0 (R80) and OPC is one of the 17 values (R82, R83). -/
def CmdFields.wf (f : CmdFields) : Bool :=
  f.rsv == 0 && assignedOpcodes.contains f.opc

/-- An encoded transaction is written as R85 says: D is 0 in a read. (Decoding it is total all the same, R88.) -/
def HostTxn.wf (t : HostTxn) : Bool :=
  t.k == 1 || t.d == 0

/-- The index of a window access fits the 56-bit index field (R60). -/
def AsmLine.wf : AsmLine → Bool
  | .rdb _ i | .wrb _ i _ | .expectElem _ i _ => i < 2 ^ 56
  | .load _ bytes => bytes.length ≤ 2 ^ 56
  | .loadbits bits => bits.length ≤ 2 ^ 56
  | .rd _ | .wr _ _ | .cmd _ | .wait _ | .run _ _ | .expectReg _ _ => true

/-- One capacity is in the range of R6. -/
def capOk (least : Nat) (c : Word) : Bool :=
  least ≤ c.toNat && c.toNat < 2 ^ 56

/-- The parameters meet the constraints of R6. -/
def Params.wf (p : Params) : Bool :=
  capOk 1 p.inCap && capOk 1 p.nameCap && capOk 1 p.payCap && capOk 1 p.outCap && capOk 8 p.arcCap

end Sys2Proof
end

