-- ==== Sys2Proof/Decode.lean ====
section
/-! DEFINITION. The decoder of command words, total on every 64-bit value (30_encoding.md R80, R82, R83), the encoder written from the
same opcode map, and the encoding of host transactions (R85, R88). -/

namespace Sys2Proof

/-- Why a command value is illegal (R83). -/
inductive DecodeError where
  /-- v[63:8] is not 0 -/
  | reservedBitsSet
  /-- v[7:0] is not one of the 17 OPC values -/
  | unassignedOpcode
deriving DecidableEq, Repr

/-- The opcode map of R82. -/
def opcodeMap : List (BitVec 8 × Instr) :=
  [(0x00, .nop), (0x01, .reset), (0x02, .abort),
   (0x10, .freq), (0x11, .build), (0x12, .codegen), (0x13, .encode), (0x14, .compress),
   (0x20, .dinv), (0x21, .decode),
   (0x30, .awbegin), (0x31, .awrec), (0x32, .awend),
   (0x38, .arbegin), (0x39, .arrec), (0x3A, .arend), (0x3B, .extract)]

/-- The fields of a command word (R80): OPC is v[7:0] and RSV is v[63:8]. -/
def cmdFields (v : Word) : CmdFields :=
  { opc := v.extractLsb' 0 8, rsv := v.extractLsb' 8 56 }

/-- The command whose OPC is `o`, from rows of the opcode map. -/
def lookupOpcode (o : BitVec 8) : List (BitVec 8 × Instr) → Except DecodeError Instr
  | [] => .error .unassignedOpcode
  | (p, i) :: rows => if o = p then .ok i else lookupOpcode o rows

/-- Decoding of a command value (R83): exactly one command, or illegal with its reason. -/
def decode (v : Word) : Except DecodeError Instr :=
  if (cmdFields v).rsv = 0 then lookupOpcode (cmdFields v).opc opcodeMap else .error .reservedBitsSet

/-- The OPC value of a command (R82). -/
def opcodeOf : Instr → BitVec 8
  | .nop => 0x00
  | .reset => 0x01
  | .abort => 0x02
  | .freq => 0x10
  | .build => 0x11
  | .codegen => 0x12
  | .encode => 0x13
  | .compress => 0x14
  | .dinv => 0x20
  | .decode => 0x21
  | .awbegin => 0x30
  | .awrec => 0x31
  | .awend => 0x32
  | .arbegin => 0x38
  | .arrec => 0x39
  | .arend => 0x3A
  | .extract => 0x3B

/-- The command word of a command (R80): RSV = 0 above OPC. -/
def encode (i : Instr) : Word := (0 : BitVec 56) ++ opcodeOf i

/-- The instruction the decoder reads from a word of `nbits` bits, numbered as spec/opcode_table.json numbers them. A command word
is one 64-bit value (R80), so a value of 2^64 or more is no command word. -/
def decodeTableWord (nbits w : Nat) : Option Instr :=
  let v := w % 2 ^ nbits
  if v < 2 ^ 64 then
    match decode (word v) with
    | .ok i => some i
    | .error _ => none
  else none

/-- The transaction of a HOST operation (R85): K = 0 is a read, whose D is written as 0. -/
def encodeTxn : HostOp → HostTxn
  | .read a => { k := 0, a := a, d := 0 }
  | .write a d => { k := 1, a := a, d := d }

/-- The HOST operation of a transaction (R88: total, every K, A and D is legal; R85: D is ignored for K = 0). -/
def decodeTxn (t : HostTxn) : HostOp :=
  if t.k = 1 then .write t.a t.d else .read t.a

end Sys2Proof
end

