-- ==== Sys2Proof/Machine/State.lean ====
section
/-! DEFINITION. The state of the block, exactly the pieces of 10_state.md R20, beside four fields of the model's own: the moves to
come, what the HOST has read, what its `expect`s found, and a counter of free values. Plain data. -/

namespace Sys2Proof.Machine

/-- The cells of one buffer or table that hold a value: (index, value) with strictly rising indices. A cell that is not listed is
unwritten (R13, R36). Equal contents are equal lists. -/
abbrev Cells (α : Type) := List (Nat × α)

/-- The state of an archive session (R29). -/
inductive Session where
  | idle
  | opened
deriving DecidableEq, Repr

/-- STATUS.ERRCODE (R251). Codes 8 to 15 are reserved and never occur. -/
inductive ErrCode where
  | noError
  | emptyInput
  | missingCode
  | truncatedPayload
  | archiveFormat
  | capacity
  | illegalCommand
  | sequenceError
deriving DecidableEq, Repr

/-- The fields of STATUS (R26). Reserved bits hold nothing and read 0; the word the HOST reads is `Status.toWord`. -/
structure Status where
  busy    : Bool
  done    : Bool
  err     : Bool
  errcode : ErrCode
  aw      : Session
  ar      : Session
  freqV   : Bool
  treeV   : Bool
  ctabV   : Bool
  dtabV   : Bool
  lastOpc : Byte
deriving DecidableEq, Repr

/-- One written slot of NODES (R41). The fields that R41 gives as 0 (`sym` of an internal node, the children of a leaf) are not
stored: the NODE window reads them as 0 (R65). -/
inductive Node where
  | leaf (weight : Word) (sym : Byte)
  | inner (weight : Word) (left right : BitVec 9)
deriving DecidableEq, Repr

/-- The fault record (R45): a set of the three model faults of R260, one bit for each. -/
structure FaultRecord where
  unwrittenRead  : Bool
  hostBusyAccess : Bool
  cmdWhileBusy   : Bool
deriving DecidableEq, Repr

/-- Why a step stops. The model faults of R260 are none of these: they are members of the fault record, and the machine goes on. -/
inductive Fault where
  /-- Raised by the ENGINE's step when BUSY = 1 and PENDING is none, a state no run reaches (R27, R250). Safe (log 14). -/
  | noPending
deriving DecidableEq, Repr

/-- Why an instruction has no meaning. No arm of `exec` answers one: every command is modelled. -/
inductive Refusal where
  /-- Raised by an arm of `exec` for a command without a meaning. None is left. Safe. -/
  | notModelled (mnemonic : String)
deriving DecidableEq, Repr

/-- The state of the block (R20). Registers are named as in R21. ID and the reserved registers are constants of `Config` and of the
register read; CMD has no storage (a write goes to `pending`). -/
structure State where
  /-- r16 to r20 and TIE_BREAK: constants of the block (R6, R35) -/
  params     : Params
  /-- STATUS, r2 -/
  status     : Status
  /-- IN_LEN, r3 -/
  inLen      : Word
  /-- NAME_LEN, r4 -/
  nameLen    : Word
  /-- PAY_LEN, r5 -/
  payLen     : Word
  /-- OUT_LEN, r6 -/
  outLen     : Word
  /-- ARC_LEN, r7 -/
  arcLen     : Word
  /-- DISTINCT, r8 -/
  distinct   : Word
  /-- NODE_COUNT, r9 -/
  nodeCount  : Word
  /-- ROOT, r10 -/
  root       : Word
  /-- CODE_COUNT, r11 -/
  codeCount  : Word
  /-- REC_COUNT, r12 -/
  recCount   : Word
  /-- REC_REMAIN, r13 -/
  recRemain  : Word
  /-- ARC_CUR, r14 -/
  arcCur     : Word
  /-- ERR_INFO, r15 -/
  errInfo    : Word
  /-- PENDING (R44) -/
  pending    : Option Word
  /-- INBUF (R36) -/
  inbuf      : List Host.Cell
  /-- NAMEBUF (R36) -/
  namebuf    : List Host.Cell
  /-- PAYBUF (R36, R37): one bit a cell -/
  paybuf     : Cells Bool
  /-- OUTBUF (R36) -/
  outbuf     : List Host.Cell
  /-- ARCBUF (R36) -/
  arcbuf     : List Host.Cell
  /-- FREQ (R40) -/
  freq       : Cells Word
  /-- NODES (R41) -/
  nodes      : Cells Node
  /-- CTAB's lengths CLEN[s], at index s (R42) -/
  clen       : Cells Byte
  /-- CTAB's bits CBIT[s][j], at index s*256 + j (R42, R61) -/
  cbit       : Cells Bool
  /-- DTAB (R43): pairs of a bit-string and its symbol, in ascending symbol order (log 12) -/
  dtab       : List (Code × Byte)
  /-- the fault record (R45) -/
  faults     : FaultRecord
  /-- MODEL'S OWN: the moves to come (log 6) -/
  inputs     : List Move
  /-- MODEL'S OWN: what the HOST's reads returned so far, first read first (R308; log 9) -/
  observed   : List Word
  /-- MODEL'S OWN: what the HOST's `expect`s recorded so far, first first: whether the value read was the value expected (R87; log 9) -/
  checks     : List Bool
  /-- MODEL'S OWN: how many free values have been taken (log 4) -/
  draws      : Nat
deriving DecidableEq, Repr

/-- STATUS after reset (R291): 0 in every field. -/
def Status.reset : Status :=
  { busy := false, done := false, err := false, errcode := .noError, aw := .idle, ar := .idle,
    freqV := false, treeV := false, ctabV := false, dtabV := false, lastOpc := 0 }

/-- The state of a block with parameters `p` right after a hardware reset at the start of a run (R290, R291). -/
def State.resetWith (p : Params) : State :=
  { params := p, status := Status.reset,
    inLen := 0, nameLen := 0, payLen := 0, outLen := 0, arcLen := 0,
    distinct := 0, nodeCount := 0, root := 0, codeCount := 0,
    recCount := 0, recRemain := 0, arcCur := 0, errInfo := 0,
    pending := none,
    inbuf := [], namebuf := [], paybuf := [], outbuf := [], arcbuf := [],
    freq := [], nodes := [], clen := [], cbit := [], dtab := [],
    faults := { unwrittenRead := false, hostBusyAccess := false, cmdWhileBusy := false },
    inputs := [], observed := [], checks := [], draws := 0 }

/-- The block right after a hardware reset (R291), with the reference parameters (log 1). -/
def State.reset : State := State.resetWith Config.referenceParams

end Sys2Proof.Machine
end

