-- ==== Sys2Proof/Machine/Flags.lean ====
section
/-! DEFINITION. STATUS as the HOST reads it (10_state.md R26), the numbers of the error codes (60_exceptions.md R251), and every update of
STATUS that an issue, a completion or a session makes (R29, R250, R253, R254). -/

namespace Sys2Proof.Machine

/-- The number of an error code (R251). -/
def ErrCode.number : ErrCode → Nat
  | .noError => 0
  | .emptyInput => 1
  | .missingCode => 2
  | .truncatedPayload => 3
  | .archiveFormat => 4
  | .capacity => 5
  | .illegalCommand => 6
  | .sequenceError => 7

/-- The number of a session state (R26). -/
def Session.number : Session → Nat
  | .idle => 0
  | .opened => 1

/-- A flag of STATUS in its bit (R26). -/
def flagAt (pos : Nat) (b : Bool) : Nat := if b then 2 ^ pos else 0

/-- The value of STATUS (R26): each field at its place, every other bit 0. -/
def Status.toWord (t : Status) : Word :=
  word (flagAt 0 t.busy + flagAt 1 t.done + flagAt 2 t.err + t.errcode.number * 2 ^ 8
    + t.aw.number * 2 ^ 16 + t.ar.number * 2 ^ 18
    + flagAt 24 t.freqV + flagAt 25 t.treeV + flagAt 26 t.ctabV + flagAt 27 t.dtabV
    + t.lastOpc.toNat * 2 ^ 32)

/-- STATUS after the issue of command value `v` (R250). -/
def Status.issued (v : Word) (t : Status) : Status :=
  { t with busy := true, done := false, err := false, errcode := .noError, lastOpc := v.extractLsb' 0 8 }

/-- STATUS after success completion (R254). -/
def Status.succeeded (t : Status) : Status :=
  { t with done := true, busy := false }

/-- STATUS after error completion with code `e` (R253), the sessions and valid bits apart. -/
def Status.failed (e : ErrCode) (t : Status) : Status :=
  { t with err := true, errcode := e, done := true, busy := false }

/-- A session of either kind is open (R67). -/
def Status.sessionOpen (t : Status) : Bool :=
  t.aw == .opened || t.ar == .opened

/-- The fault record is empty (R45). -/
def FaultRecord.isEmpty (f : FaultRecord) : Bool :=
  !f.unwrittenRead && !f.hostBusyAccess && !f.cmdWhileBusy

end Sys2Proof.Machine
end

