-- ==== Sys2Proof/Machine/Ops.lean ====
section
/-! DEFINITION. The shared operations: writing cells (00_scope.md R10), the form of a command's run with its `raise` (R10), the two
completions (60_exceptions.md R253, R254), which are the block's nearest thing to taking an exception (R257) and to returning from one
(R258), AbortSessions (43_control.md R233), ResetAction (70_reset_and_hazards.md R290) and the issue of a command (R250). -/

namespace Sys2Proof.Machine

/-! ### Cells -/

/-- The value of cell `i`, or none where it is unwritten (R13). -/
def Cells.get {α : Type} : Cells α → Nat → Option α
  | [], _ => none
  | (k, v) :: c, i => if k = i then some v else Cells.get c i

/-- The cells `i`, `i+1`, … holding `vs` in order, and no other. -/
def cellsFrom {α : Type} : Nat → List α → Cells α
  | _, [] => []
  | i, v :: vs => (i, v) :: cellsFrom (i + 1) vs

/-- MemWrite(B:i, n, s) of R10: cells `i` to `i+n-1` take the values of `vs`, every other cell stays. -/
def Cells.writeRange {α : Type} (c : Cells α) (i : Nat) (vs : List α) : Cells α :=
  c.filter (fun e => e.1 < i) ++ cellsFrom i vs ++ c.filter (fun e => i + vs.length ≤ e.1)

/-- Invalidate(B) of R10: every cell becomes unwritten. -/
def Cells.invalidate {α : Type} (_ : Cells α) : Cells α := []

/-- The canonical form of a buffer or table: strictly rising indices. An unlisted index reads as unwritten, so no listed entry can
equal what an unlisted one reads as. -/
abbrev Cells.wf {α : Type} (c : Cells α) : Prop := c.Pairwise (fun a b => a.1 < b.1)

/-- The canonical form of DTAB: its pairs in ascending symbol order (log 12). -/
abbrev Dtab.wf (d : List (Code × Byte)) : Prop := d.Pairwise (fun a b => a.2.toNat < b.2.toNat)

/-- Every buffer and table is in canonical form. -/
abbrev Memory.wf (s : State) : Prop :=
  Cells.wf s.inbuf ∧ Cells.wf s.namebuf ∧ Cells.wf s.paybuf ∧ Cells.wf s.outbuf ∧ Cells.wf s.arcbuf ∧
  Cells.wf s.freq ∧ Cells.wf s.nodes ∧ Cells.wf s.clen ∧ Cells.wf s.cbit ∧ Dtab.wf s.dtab

/-! ### The run of one command -/

/-- `raise <Error>(info)` of R10. -/
structure Raise where
  code : ErrCode
  info : Nat
deriving DecidableEq, Repr

/-- The run of a piece of pseudocode: from the number of free values taken so far, its result or its first `raise`, and the number of
free values taken after it. -/
abbrev Eng (α : Type) := Nat → Except Raise α × Nat

/-- The piece that only answers `a`. -/
def Eng.ret {α : Type} (a : α) : Eng α := fun d => (.ok a, d)

/-- `raise e(info)` (R10). -/
def Eng.fail {α : Type} (e : ErrCode) (info : Nat) : Eng α := fun d => (.error { code := e, info := info }, d)

/-- One piece after another: the first `raise` ends the command (R255). -/
def Eng.andThen {α β : Type} (m : Eng α) (f : α → Eng β) : Eng β := fun d =>
  match m d with
  | (.ok a, d') => f a d'
  | (.error r, d') => (.error r, d')

/-- `if c: raise e(info)` (R10). -/
def Eng.raiseIf (c : Bool) (e : ErrCode) (info : Nat) : Eng Unit :=
  if c then Eng.fail e info else Eng.ret ()

/-- The state after reads that took free values up to `d`: where at least one unwritten cell was read, UnwrittenRead is in the fault
record (R13, R260). -/
def State.noteReads (d : Nat) (s : State) : State :=
  if d = s.draws then s
  else { s with draws := d, faults := { s.faults with unwrittenRead := true } }

/-! ### Sessions, completion, reset, issue -/

/-- AbortSessions() of R233. -/
def abortSessions (s : State) : State :=
  let s1 : State :=
    if s.status.aw = .opened then
      { s with arcbuf := [], arcLen := 0, recCount := 0, status := { s.status with aw := .idle } }
    else s
  if s1.status.ar = .opened then
    { s1 with recCount := 0, recRemain := 0, arcCur := 0, status := { s1.status with ar := .idle } }
  else s1

/-- A destination (R81): a buffer, a table (with its valid bit), or a length or count register. The session registers are none. -/
inductive Dest where
  | inbuf | namebuf | paybuf | outbuf | arcbuf
  | freq | nodes | ctab | dtab
  | inLen | nameLen | payLen | outLen | arcLen | distinct | nodeCount | root | codeCount
deriving DecidableEq, Repr

/-- The destinations of each command (R81, the "writes" column less STATUS, ERR_INFO and the session registers). RESET writes all state; it
raises no error, so nothing ever clears its destinations. -/
def destinations : Instr → List Dest
  | .nop => []
  | .reset => [.inbuf, .inLen, .namebuf, .nameLen, .paybuf, .payLen, .outbuf, .outLen, .arcbuf, .arcLen, .freq, .distinct, .nodes,
               .nodeCount, .root, .ctab, .codeCount, .dtab]
  | .abort => [.arcbuf, .arcLen]
  | .freq => [.freq, .distinct]
  | .build => [.nodes, .nodeCount, .root]
  | .codegen => [.ctab, .codeCount]
  | .encode => [.paybuf, .payLen]
  | .compress => [.freq, .distinct, .nodes, .nodeCount, .root, .ctab, .codeCount, .paybuf, .payLen]
  | .dinv => [.dtab]
  | .decode => [.outbuf, .outLen]
  | .awbegin => [.arcbuf, .arcLen]
  | .awrec => [.arcbuf, .arcLen]
  | .awend => [.arcbuf]
  | .arbegin => []
  | .arrec => [.namebuf, .nameLen, .paybuf, .payLen, .ctab, .codeCount, .dtab]
  | .arend => []
  | .extract => [.namebuf, .nameLen, .paybuf, .payLen, .ctab, .codeCount, .dtab, .outbuf, .outLen]

/-- What error completion does to one destination (R253): a buffer or table is invalidated and a table's valid bit cleared, a register
becomes 0. Invalidating DTAB leaves it empty (R290). -/
def clearDest (s : State) : Dest → State
  | .inbuf => { s with inbuf := Cells.invalidate s.inbuf }
  | .namebuf => { s with namebuf := Cells.invalidate s.namebuf }
  | .paybuf => { s with paybuf := Cells.invalidate s.paybuf }
  | .outbuf => { s with outbuf := Cells.invalidate s.outbuf }
  | .arcbuf => { s with arcbuf := Cells.invalidate s.arcbuf }
  | .freq => { s with freq := Cells.invalidate s.freq, status := { s.status with freqV := false } }
  | .nodes => { s with nodes := Cells.invalidate s.nodes, status := { s.status with treeV := false } }
  | .ctab => { s with clen := Cells.invalidate s.clen, cbit := Cells.invalidate s.cbit,
                      status := { s.status with ctabV := false } }
  | .dtab => { s with dtab := [], status := { s.status with dtabV := false } }
  | .inLen => { s with inLen := 0 }
  | .nameLen => { s with nameLen := 0 }
  | .payLen => { s with payLen := 0 }
  | .outLen => { s with outLen := 0 }
  | .arcLen => { s with arcLen := 0 }
  | .distinct => { s with distinct := 0 }
  | .nodeCount => { s with nodeCount := 0 }
  | .root => { s with root := 0 }
  | .codeCount => { s with codeCount := 0 }

/-- The errors that change no destination (R253): they are raised before a command writes anything. -/
def ErrCode.sparesDestinations : ErrCode → Bool
  | .sequenceError | .illegalCommand => true
  | .noError | .emptyInput | .missingCode | .truncatedPayload | .archiveFormat | .capacity => false

/-- Error completion (R253), the block's nearest equivalent of taking an exception (R257): STATUS.ERRCODE takes the cause and ERR_INFO
the detail; a data error clears the destinations; every error aborts the open session. -/
def errorCompletion (ds : List Dest) (r : Raise) (s : State) : State :=
  let s1 := if r.code.sparesDestinations then s else ds.foldl clearDest s
  let s2 := abortSessions s1
  { s2 with status := Status.failed r.code s2.status, errInfo := word r.info }

/-- Success completion (R254). -/
def successCompletion (s : State) : State :=
  { s with status := Status.succeeded s.status }

/-- One command from its first check to its completion, as one atomic step (R250): success at the end of its pseudocode, or error
completion at its first `raise`. Error completion starts from the state at issue: whatever the pseudocode had written by then is a
destination, which it clears, or a register of the session, which it sets to 0 (log 13). -/
def runCommand (ds : List Dest) (m : Eng State) (s : State) : Host.Outcome State Fault Refusal :=
  match m s.draws with
  | (.ok t, d) => .next ((successCompletion t).noteReads d)
  | (.error r, d) => .next ((errorCompletion ds r s).noteReads d)

/-- ResetAction() of R290: registers r1 to r15 and STATUS become 0, PENDING none, every buffer and table unwritten, DTAB empty. It does
not empty the fault record (R45, R231; log 10), and it leaves the constants and the model's own fields. -/
def resetAction (s : State) : State :=
  { State.resetWith s.params with
      faults := s.faults, inputs := s.inputs, observed := s.observed, checks := s.checks, draws := s.draws }

/-- The issue of command value `v` (R250, step 1). -/
def issue (v : Word) (s : State) : State :=
  { s with pending := some v, status := Status.issued v s.status, errInfo := 0 }

/-- An illegal command value (R83): error completion with ILLEGAL_COMMAND and ERR_INFO = v. It has no destination. -/
def illegalCommand (v : Word) (s : State) : State :=
  errorCompletion [] { code := .illegalCommand, info := v.toNat } s

end Sys2Proof.Machine
end

