-- ==== Sys2Proof/Machine/Operands.lean ====
section
/-! DEFINITION. How a command gets its operands: MemRead with its free values (00_scope.md R10, R13), little-endian fields (R11), bit
characters (R12), the code table read and written whole (10_state.md R42), and the checks on a length register (R22) and on a table or
session (R30, R252). -/

namespace Sys2Proof.Machine

/-! ### Free values of the cells, by kind -/

/-- What an unwritten node slot reads as: unspecified in every field the ENGINE uses (R13, R41). -/
def freeNode (d : Nat) : Node :=
  if Config.unspecifiedBit d then .leaf (Config.unspecifiedWord d) (Config.unspecifiedByte d)
  else .inner (Config.unspecifiedWord d) (Config.unspecifiedChild d false) (Config.unspecifiedChild d true)

/-- MemRead(B:i, 1) of R10: the cell's value; where it is unwritten, the next free value (R13). -/
def memRead {α : Type} (free : Nat → α) (c : Cells α) (i : Nat) : Eng α := fun d =>
  match Cells.get c i with
  | some v => (.ok v, d)
  | none => (.ok (free d), d + 1)

/-- MemRead(B:i, n) of R10, in increasing index order. -/
def memReads {α : Type} (free : Nat → α) (c : Cells α) : Nat → Nat → Eng (List α)
  | _, 0 => .ret []
  | i, n + 1 => (memRead free c i).andThen fun v => (memReads free c (i + 1) n).andThen fun vs => .ret (v :: vs)

/-- A byte of a byte buffer or of CLEN. -/
def readByte (c : Cells Byte) (i : Nat) : Eng Byte := memRead Config.unspecifiedByte c i

/-- `n` bytes of a byte buffer or of CLEN. -/
def readBytes (c : Cells Byte) (i n : Nat) : Eng (List Byte) := memReads Config.unspecifiedByte c i n

/-- A bit of PAYBUF. -/
def readBit (c : Cells Bool) (i : Nat) : Eng Bool := memRead Config.unspecifiedBit c i

/-- `n` bits of PAYBUF or of CBIT. -/
def readBits (c : Cells Bool) (i n : Nat) : Eng (List Bool) := memReads Config.unspecifiedBit c i n

/-- A slot of NODES. -/
def readNode (c : Cells Node) (i : Nat) : Eng Node := memRead freeNode c i

/-- All 256 counts of FREQ. -/
def readFreq (s : State) : Eng (List Word) := memReads Config.unspecifiedWord s.freq 0 Config.nsym

/-! ### Byte order and bit characters -/

/-- ToLE64 (R11): byte k is (v >> 8k) & 0xFF. -/
def toLE64 (v : Nat) : List Byte := (List.range 8).map fun k => byte (v >>> (8 * k))

/-- LE64 (R11), for any number of bytes: the first is the least significant. -/
def fromLE : List Byte → Nat
  | [] => 0
  | b :: bs => b.toNat + 256 * fromLE bs

/-- Chr (R12): the ASCII codes of '0' and '1' (log 15). -/
def bitChar (b : Bool) : Byte := if b then 0x31 else 0x30

/-- Bit (R12), undefined for every byte that is neither 0x30 nor 0x31. -/
def charBit (y : Byte) : Option Bool :=
  if y = 0x30 then some false else if y = 0x31 then some true else none

/-! ### The code table -/

/-- The index of CBIT[s][0] (R61). -/
def cbitBase (sym : Nat) : Nat := sym * 256

/-- code(s) with its length known (R42): CBIT[s][0] to CBIT[s][len-1]. -/
def readCode (s : State) (sym len : Nat) : Eng Code := readBits s.cbit (cbitBase sym) len

/-- The code that a list of (symbol, code) entries gives symbol `sym`; the empty list where it gives none (C3: a length of 0 means no
code). -/
def codeIn (ct : List (Byte × Code)) (sym : Nat) : Code :=
  match ct.find? (fun e => e.1.toNat == sym) with
  | some e => e.2
  | none => []

/-- The symbols 0 to 255 in ascending order. -/
def symbols : List Nat := List.range Config.nsym

/-- CLEN as a list of entries gives it: every CLEN[s] written, 0 where there is no code (R120, R192). -/
def clenOf (ct : List (Byte × Code)) : Cells Byte :=
  cellsFrom 0 (symbols.map fun sym => byte (codeIn ct sym).length)

/-- CBIT as a list of entries gives it: CBIT[s][j] written exactly for j < CLEN[s] (R42). -/
def cbitOf (ct : List (Byte × Code)) : Cells Bool :=
  symbols.flatMap fun sym => cellsFrom (cbitBase sym) (codeIn ct sym)

/-- The number of symbols with a code (R32). -/
def codeCountOf (ct : List (Byte × Code)) : Nat :=
  symbols.countP fun sym => !(codeIn ct sym).isEmpty

/-- CTAB, CODE_COUNT and CTAB_V as a successful writer of the table leaves them (R120, R192). -/
def State.withCodes (ct : List (Byte × Code)) (count : Nat) (s : State) : State :=
  { s with clen := clenOf ct, cbit := cbitOf ct, codeCount := word count, status := { s.status with ctabV := true } }

/-! ### Checks -/

/-- The detail values of SEQUENCE (R252). -/
inductive SeqDetail where
  | noFreq | noTree | noCtab | noDtab | writeNotOpen | writeOpen | readNotOpen | readOpen | noneRemain | someRemain
deriving DecidableEq, Repr

/-- Their numbers (R252). -/
def SeqDetail.number : SeqDetail → Nat
  | .noFreq => 1
  | .noTree => 2
  | .noCtab => 3
  | .noDtab => 4
  | .writeNotOpen => 5
  | .writeOpen => 6
  | .readNotOpen => 7
  | .readOpen => 8
  | .noneRemain => 9
  | .someRemain => 10

/-- `if c: raise SEQUENCE(k)`. -/
def sequenceIf (c : Bool) (k : SeqDetail) : Eng Unit := Eng.raiseIf c .sequenceError k.number

/-- The buffers that CAPACITY can name (R252). -/
inductive CapDetail where
  | inbuf | namebuf | paybuf | outbuf | arcbuf
deriving DecidableEq, Repr

/-- The register number of a buffer's length register (R252). -/
def CapDetail.number : CapDetail → Nat
  | .inbuf => 3
  | .namebuf => 4
  | .paybuf => 5
  | .outbuf => 6
  | .arcbuf => 7

/-- `if c: raise CAPACITY(r)`. -/
def capacityIf (c : Bool) (r : CapDetail) : Eng Unit := Eng.raiseIf c .capacity r.number

/-- `if c: raise ARCHIVE_FORMAT(off)`. -/
def formatIf (c : Bool) (off : Nat) : Eng Unit := Eng.raiseIf c .archiveFormat off

/-- A table's valid bit must be 1 (R30). -/
def needFreq (s : State) : Eng Unit := sequenceIf (!s.status.freqV) .noFreq
/-- A table's valid bit must be 1 (R30). -/
def needTree (s : State) : Eng Unit := sequenceIf (!s.status.treeV) .noTree
/-- A table's valid bit must be 1 (R30). -/
def needCtab (s : State) : Eng Unit := sequenceIf (!s.status.ctabV) .noCtab
/-- A table's valid bit must be 1 (R30). -/
def needDtab (s : State) : Eng Unit := sequenceIf (!s.status.dtabV) .noDtab

/-- IN_LEN must not exceed IN_CAP (R22, R100). -/
def needInCap (s : State) : Eng Unit := capacityIf (s.params.inCap.toNat < s.inLen.toNat) .inbuf
/-- NAME_LEN must not exceed NAME_CAP (R22, R186). -/
def needNameCap (s : State) : Eng Unit := capacityIf (s.params.nameCap.toNat < s.nameLen.toNat) .namebuf
/-- PAY_LEN must not exceed PAY_CAP (R22, R170, R186). -/
def needPayCap (s : State) : Eng Unit := capacityIf (s.params.payCap.toNat < s.payLen.toNat) .paybuf
/-- ARC_LEN must not exceed ARC_CAP (R22, R190). -/
def needArcCap (s : State) : Eng Unit := capacityIf (s.params.arcCap.toNat < s.arcLen.toNat) .arcbuf

end Sys2Proof.Machine
end

