-- ==== Sys2Proof/Machine/Huffman.lean ====
section
/-! DEFINITION. Frequency counting, tree building and code assignment (40_huffman.md): FREQ, BUILD and CODEGEN. The bodies are shared with
COMPRESS (41_bitstream.md R150). -/

namespace Sys2Proof.Machine

/-! ### FREQ -/

/-- The counts f[0] to f[255] of R100: how often each byte value occurs, as an unsigned index. -/
def countBytes (bs : List Byte) : List Nat :=
  symbols.map fun sym => bs.countP fun b => b.toNat == sym

/-- The body of FREQ after its CAPACITY check (R100). -/
def freqBody (s : State) : Eng State :=
  (readBytes s.inbuf 0 s.inLen.toNat).andThen fun bs =>
    let f := countBytes bs
    Eng.ret { s with freq := cellsFrom 0 (f.map word),
                     distinct := word (f.countP fun n => 1 ≤ n),
                     status := { s.status with freqV := true } }

/-- FREQ (R100). -/
def execFreq (s : State) : Host.Outcome State Fault Refusal :=
  runCommand (destinations .freq) ((needInCap s).andThen fun _ => freqBody s) s

/-! ### BUILD -/

/-- A member of the priority collection (R44, R110): the weight of a node and its id. -/
abbrev PQKey := Nat × Nat

/-- A choice of the next member from a collection that is not empty: the tie-break, as an argument (R111, I1). -/
abbrev Pick := PQKey → List PQKey → PQKey

/-- The order of R111: weight first, then id. -/
def keyLt (a b : PQKey) : Bool :=
  a.1 < b.1 || (a.1 == b.1 && a.2 < b.2)

/-- PQmin of R111 (ID_ORDER): the member with the smallest key. -/
def pqMin : Pick
  | k, [] => k
  | k, x :: xs => pqMin (if keyLt x k then x else k) xs

/-- The choice that a tie-break names (R6, R111). -/
def pickOf : TieBreak → Pick
  | .idOrder => pqMin

/-- The leaves of R110: one for each symbol with a count of at least 1, in ascending symbol order, from the counts of the symbols
`sym`, `sym+1`, …. -/
def leavesFrom : Nat → List Word → List Node
  | _, [] => []
  | sym, w :: ws => if 1 ≤ w.toNat then .leaf w (byte sym) :: leavesFrom (sym + 1) ws else leavesFrom (sym + 1) ws

/-- The weight of a node (R41). -/
def Node.weight : Node → Word
  | .leaf w _ => w
  | .inner w _ _ => w

/-- The members of the collection for nodes with ids `i`, `i+1`, …. -/
def keysFrom : Nat → List Node → List PQKey
  | _, [] => []
  | i, n :: ns => (n.weight.toNat, i) :: keysFrom (i + 1) ns

/-- The internal node that merges two members (R110): the one extracted first is the left child. -/
def mergeNode (a b : PQKey) : Node :=
  .inner (word (a.1 + b.1)) (BitVec.ofNat 9 a.2) (BitVec.ofNat 9 b.2)

/-- The loop of R110, at most `fuel` passes: `arena` holds the nodes made so far, in id order, and the collection is `p`. Weights are
natural numbers here (R8); a node stores its weight in 64 bits (R113, log 16). -/
def mergeLoop (pick : Pick) : Nat → List Node → List PQKey → List Node × List PQKey
  | 0, arena, p => (arena, p)
  | fuel + 1, arena, k :: ks =>
    let a := pick k ks
    match (k :: ks).erase a with
    | [] => (arena, k :: ks)
    | x :: xs =>
      let b := pick x xs
      mergeLoop pick fuel (arena ++ [mergeNode a b]) ((x :: xs).erase b ++ [(a.1 + b.1, arena.length)])
  | _ + 1, arena, [] => (arena, [])

/-- The nodes of the tree over `leaves` and the root's id (R110). Each pass takes one member off the collection, so as many passes as
there are leaves are enough (R112). -/
def buildTree (pick : Pick) (leaves : List Node) : List Node × Nat :=
  let r := mergeLoop pick leaves.length leaves (keysFrom 0 leaves)
  (r.1, match r.2 with
        | k :: _ => k.2
        | [] => 0)

/-- The body of BUILD after its SEQUENCE check (R110). -/
def buildBody (s : State) : Eng State :=
  (readFreq s).andThen fun f =>
    let leaves := leavesFrom 0 f
    (Eng.raiseIf leaves.isEmpty .emptyInput 0).andThen fun _ =>
      let t := buildTree (pickOf s.params.tieBreak) leaves
      Eng.ret { s with nodes := cellsFrom 0 t.1, root := word t.2, nodeCount := word t.1.length,
                       status := { s.status with treeV := true } }

/-- BUILD (R110). -/
def execBuild (s : State) : Host.Outcome State Fault Refusal :=
  runCommand (destinations .build) ((needFreq s).andThen fun _ => buildBody s) s

/-! ### CODEGEN -/

/-- Walk(i, p) of R120: the entries (symbol, code) of the leaves below node `i`, left first. `depth` bounds the levels walked: a code has
at most 255 bits (R123), so 256 levels are every level of a tree that BUILD or COMPRESS wrote (log 17). -/
def walk (nodes : Cells Node) : Nat → Nat → Code → Eng (List (Byte × Code))
  | 0, _, _ => Eng.ret []
  | depth + 1, i, p =>
    (readNode nodes i).andThen fun n =>
      match n with
      | .leaf _ sym => Eng.ret [(sym, p)]
      | .inner _ l r =>
        (walk nodes depth l.toNat (p ++ [false])).andThen fun cl =>
          (walk nodes depth r.toNat (p ++ [true])).andThen fun cr => Eng.ret (cl ++ cr)

/-- The entries of the whole tree (R120, R122): a root that is a leaf gets the code "0". -/
def treeCodes (nodes : Cells Node) (root : Nat) : Eng (List (Byte × Code)) :=
  (readNode nodes root).andThen fun n =>
    match n with
    | .leaf _ sym => Eng.ret [(sym, [false])]
    | .inner _ _ _ => walk nodes (Config.maxCodeLen + 1) root []

/-- The body of CODEGEN after its SEQUENCE check (R120). -/
def codegenBody (s : State) : Eng State :=
  (treeCodes s.nodes s.root.toNat).andThen fun ct => Eng.ret (s.withCodes ct (codeCountOf ct))

/-- CODEGEN (R120). -/
def execCodegen (s : State) : Host.Outcome State Fault Refusal :=
  runCommand (destinations .codegen) ((needTree s).andThen fun _ => codegenBody s) s

end Sys2Proof.Machine
end

