-- ==== Sys2Proof/Machine/Bitstream.lean ====
section
/-! DEFINITION. Bit-stream encoding and decoding (41_bitstream.md): ENCODE, COMPRESS, DINV and DECODE. The bodies of DINV and DECODE are
shared with the archive reader (42_archive.md R192, R201). -/

namespace Sys2Proof.Machine

/-! ### ENCODE -/

/-- The loop of R140 over the `m` input bytes from index `k`, with `p` payload bits written so far: the bits it writes from there on. -/
def encodeLoop (s : State) : Nat → Nat → Nat → Eng Code
  | 0, _, _ => Eng.ret []
  | m + 1, k, p =>
    (readByte s.inbuf k).andThen fun b =>
      (readByte s.clen b.toNat).andThen fun len =>
        (Eng.raiseIf (len.toNat == 0) .missingCode k).andThen fun _ =>
          (capacityIf (s.params.payCap.toNat < p + len.toNat) .paybuf).andThen fun _ =>
            (readCode s b.toNat len.toNat).andThen fun c =>
              (encodeLoop s m (k + 1) (p + len.toNat)).andThen fun rest => Eng.ret (c ++ rest)

/-- The body of ENCODE after its two checks (R140). -/
def encodeBody (s : State) : Eng State :=
  (encodeLoop s s.inLen.toNat 0 0).andThen fun bits =>
    Eng.ret { s with paybuf := cellsFrom 0 bits, payLen := word bits.length }

/-- ENCODE (R140). -/
def execEncode (s : State) : Host.Outcome State Fault Refusal :=
  runCommand (destinations .encode)
    ((needCtab s).andThen fun _ => (needInCap s).andThen fun _ => encodeBody s) s

/-! ### COMPRESS -/

/-- EmptyBody() of R151. -/
def emptyBody (s : State) : State :=
  { s with nodes := [], nodeCount := 0, root := 0,
           clen := clenOf [], cbit := [], codeCount := 0,
           paybuf := [], payLen := 0,
           status := { s.status with treeV := false, ctabV := true } }

/-- The tables and the payload of an input that is not empty (R150): BuildBody, CodegenBody, EncodeBody. -/
def chainBody (s : State) : Eng State :=
  (buildBody s).andThen fun s1 => (codegenBody s1).andThen fun s2 => encodeBody s2

/-- COMPRESS (R150). -/
def execCompress (s : State) : Host.Outcome State Fault Refusal :=
  runCommand (destinations .compress)
    ((needInCap s).andThen fun _ => (freqBody s).andThen fun s1 =>
      if s1.distinct = 0 then Eng.ret (emptyBody s1) else chainBody s1) s

/-! ### DINV -/

/-- The symbol of a bit-string in a decode table (R43). -/
def dtabGet (d : List (Code × Byte)) (c : Code) : Option Byte :=
  match d.find? (fun e => e.1 == c) with
  | some e => some e.2
  | none => none

/-- Invert() of R161 over the symbols listed, with the entries found so far. Dup(s) is the `raise` that DINV makes of it (R160). -/
def invertLoop (s : State) : List Nat → List (Code × Byte) → Eng (List (Code × Byte))
  | [], d => Eng.ret d
  | sym :: rest, d =>
    (readByte s.clen sym).andThen fun len =>
      if len.toNat = 0 then invertLoop s rest d
      else
        (readCode s sym len.toNat).andThen fun c =>
          (formatIf (dtabGet d c).isSome sym).andThen fun _ => invertLoop s rest (d ++ [(c, byte sym)])

/-- The body of DINV after its check (R160), and the rebuilding of DTAB in ARREC (R192). -/
def invertBody (s : State) : Eng State :=
  (invertLoop s symbols []).andThen fun d =>
    Eng.ret { s with dtab := d, status := { s.status with dtabV := true } }

/-- DINV (R160). -/
def execDinv (s : State) : Host.Outcome State Fault Refusal :=
  runCommand (destinations .dinv) ((needCtab s).andThen fun _ => invertBody s) s

/-! ### DECODE -/

/-- The loop of R170 over the `m` payload bits from index `i`, with the candidate `cand` that began at `start` and `o` bytes emitted so far:
the bytes it emits from there on. A candidate left over at the end is TRUNCATED_PAYLOAD(start). -/
def decodeLoop (s : State) : Nat → Nat → Code → Nat → Nat → Eng (List Byte)
  | 0, _, cand, start, _ =>
    (Eng.raiseIf (!cand.isEmpty) .truncatedPayload start).andThen fun _ => Eng.ret []
  | m + 1, i, cand, start, o =>
    (readBit s.paybuf i).andThen fun b =>
      match dtabGet s.dtab (cand ++ [b]) with
      | some y =>
        (capacityIf (o == s.params.outCap.toNat) .outbuf).andThen fun _ =>
          (decodeLoop s m (i + 1) [] (i + 1) (o + 1)).andThen fun ys => Eng.ret (y :: ys)
      | none => decodeLoop s m (i + 1) (cand ++ [b]) start o

/-- The pseudocode of DECODE (R170). -/
def decodeBody (s : State) : Eng State :=
  (needDtab s).andThen fun _ => (needPayCap s).andThen fun _ =>
    (decodeLoop s s.payLen.toNat 0 [] 0 0).andThen fun ys =>
      Eng.ret { s with outbuf := cellsFrom 0 ys, outLen := word ys.length }

/-- DECODE (R170). -/
def execDecode (s : State) : Host.Outcome State Fault Refusal :=
  runCommand (destinations .decode) (decodeBody s) s

end Sys2Proof.Machine
end

