-- ==== Sys2Proof/Machine/Archive.lean ====
section
/-! DEFINITION. The archive codec (42_archive.md): the write session AWBEGIN, AWREC, AWEND and the read session ARBEGIN, ARREC, AREND,
EXTRACT. -/

namespace Sys2Proof.Machine

/-! ### The write session -/

/-- AWBEGIN (R185): a new container with a record count of 0. -/
def execAwbegin (s : State) : Host.Outcome State Fault Refusal :=
  runCommand (destinations .awbegin)
    ((sequenceIf (s.status.aw == .opened) .writeOpen).andThen fun _ =>
      (sequenceIf (s.status.ar == .opened) .readOpen).andThen fun _ =>
        Eng.ret { s with arcbuf := cellsFrom 0 (toLE64 0), arcLen := 8, recCount := 0,
                         status := { s.status with aw := .opened } }) s

/-- The symbols with a code and their lengths (R181), from the lengths of the symbols `sym`, `sym+1`, …. -/
def presentFrom : Nat → List Byte → List (Nat × Nat)
  | _, [] => []
  | sym, l :: ls =>
    if 1 ≤ l.toNat then (sym, l.toNat) :: presentFrom (sym + 1) ls else presentFrom (sym + 1) ls

/-- RecSize of R183. -/
def recSize (nameLen payLen : Nat) (present : List (Nat × Nat)) : Nat :=
  24 + nameLen + payLen + (present.map fun e => 9 + e.2).sum

/-- Entry(s) of R181. -/
def entryBytes (sym : Nat) (c : Code) : List Byte :=
  toLE64 c.length ++ c.map bitChar ++ [byte sym]

/-- The entries of Rec() in ascending symbol order (R181, R182). -/
def entriesBytes (s : State) : List (Nat × Nat) → Eng (List Byte)
  | [] => Eng.ret []
  | (sym, len) :: rest =>
    (readCode s sym len).andThen fun c =>
      (entriesBytes s rest).andThen fun bs => Eng.ret (entryBytes sym c ++ bs)

/-- Rec() of R181, `present` being the symbols with a code. -/
def recordBytes (s : State) (present : List (Nat × Nat)) : Eng (List Byte) :=
  (readBytes s.namebuf 0 s.nameLen.toNat).andThen fun nm =>
    (readBits s.paybuf 0 s.payLen.toNat).andThen fun pb =>
      (entriesBytes s present).andThen fun es =>
        Eng.ret (toLE64 s.nameLen.toNat ++ nm ++ toLE64 s.payLen.toNat ++ pb.map bitChar ++ toLE64 present.length ++ es)

/-- The append of AWREC after its checks but the last (R186): the size is checked before any byte is written. -/
def appendRecord (s : State) : Eng State :=
  (readBytes s.clen 0 Config.nsym).andThen fun lens =>
    let present := presentFrom 0 lens
    let size := recSize s.nameLen.toNat s.payLen.toNat present
    (capacityIf (s.params.arcCap.toNat < s.arcLen.toNat + size) .arcbuf).andThen fun _ =>
      (recordBytes s present).andThen fun bs =>
        Eng.ret { s with arcbuf := Cells.writeRange s.arcbuf s.arcLen.toNat bs,
                         arcLen := word (s.arcLen.toNat + size),
                         recCount := word (s.recCount.toNat + 1) }

/-- AWREC (R186). -/
def execAwrec (s : State) : Host.Outcome State Fault Refusal :=
  runCommand (destinations .awrec)
    ((sequenceIf (s.status.aw != .opened) .writeNotOpen).andThen fun _ =>
      (needCtab s).andThen fun _ => (needNameCap s).andThen fun _ => (needPayCap s).andThen fun _ => appendRecord s) s

/-- AWEND (R188): the record count goes into the container's header. R21's table names ARC_LEN among what AWEND writes; R188 and R81 do
not, and the model follows them (log 11). -/
def execAwend (s : State) : Host.Outcome State Fault Refusal :=
  runCommand (destinations .awend)
    ((sequenceIf (s.status.aw != .opened) .writeNotOpen).andThen fun _ =>
      Eng.ret { s with arcbuf := Cells.writeRange s.arcbuf 0 (toLE64 s.recCount.toNat),
                       status := { s.status with aw := .idle } }) s

/-! ### The read session -/

/-- A u64 field of the container at offset `q` (R69). -/
def readField (s : State) (q : Nat) : Eng Nat :=
  (readBytes s.arcbuf q 8).andThen fun bs => Eng.ret (fromLE bs)

/-- ARBEGIN (R190). -/
def execArbegin (s : State) : Host.Outcome State Fault Refusal :=
  runCommand (destinations .arbegin)
    ((sequenceIf (s.status.ar == .opened) .readOpen).andThen fun _ =>
      (sequenceIf (s.status.aw == .opened) .writeOpen).andThen fun _ =>
        (needArcCap s).andThen fun _ =>
          (formatIf (s.arcLen.toNat < 8) 0).andThen fun _ =>
            (readField s 0).andThen fun c =>
              Eng.ret { s with recCount := word c, recRemain := word c, arcCur := 8,
                               status := { s.status with ar := .opened } }) s

/-- Need(k, off) of R191, with the cursor `q`. -/
def need (s : State) (q k off : Nat) : Eng Unit := formatIf (s.arcLen.toNat < q + k) off

/-- The length field at `q`, checked to lie inside the container (R193). -/
def lengthField (s : State) (q : Nat) : Eng Nat :=
  (need s q 8 q).andThen fun _ => readField s q

/-- `n` bit characters from offset `q` (R193, R196). -/
def parseBits (s : State) : Nat → Nat → Eng Code
  | 0, _ => Eng.ret []
  | n + 1, q =>
    (readByte s.arcbuf q).andThen fun y =>
      match charBit y with
      | some b => (parseBits s n (q + 1)).andThen fun bs => Eng.ret (b :: bs)
      | none => Eng.fail .archiveFormat q

/-- The `m` code entries from offset `q` (R193, R197), with the entries read so far: all the entries, and the offset after them. -/
def parseEntries (s : State) : Nat → Nat → List (Byte × Code) → Eng (List (Byte × Code) × Nat)
  | 0, q, ct => Eng.ret (ct, q)
  | m + 1, g, ct =>
    (lengthField s g).andThen fun cl =>
      (formatIf (cl == 0 || decide (Config.maxCodeLen < cl)) g).andThen fun _ =>
        (need s (g + 8) cl g).andThen fun _ =>
          (parseBits s cl (g + 8)).andThen fun c =>
            (need s (g + 8 + cl) 1 (g + 8 + cl)).andThen fun _ =>
              (readByte s.arcbuf (g + 8 + cl)).andThen fun sym =>
                (formatIf (ct.any fun e => e.1 == sym) (g + 8 + cl)).andThen fun _ =>
                  (formatIf (ct.any fun e => e.2 == c) g).andThen fun _ =>
                    parseEntries s m (g + 8 + cl + 1) (ct ++ [(sym, c)])

/-- What ParseRecord() gives (R193): nm, pb, ct and the cursor after the record; nl, pl and cc are their lengths. -/
structure Record where
  name    : List Byte
  payload : Code
  codes   : List (Byte × Code)
  next    : Nat
deriving DecidableEq, Repr

/-- ParseRecord() of R193, from offset `q`. -/
def parseRecord (s : State) (q : Nat) : Eng Record :=
  (lengthField s q).andThen fun nl =>
    (need s (q + 8) nl q).andThen fun _ =>
      (capacityIf (s.params.nameCap.toNat < nl) .namebuf).andThen fun _ =>
        (readBytes s.arcbuf (q + 8) nl).andThen fun nm =>
          let q1 := q + 8 + nl
          (lengthField s q1).andThen fun pl =>
            (need s (q1 + 8) pl q1).andThen fun _ =>
              (capacityIf (s.params.payCap.toNat < pl) .paybuf).andThen fun _ =>
                (parseBits s pl (q1 + 8)).andThen fun pb =>
                  let q2 := q1 + 8 + pl
                  (lengthField s q2).andThen fun cc =>
                    (formatIf (decide (256 < cc)) q2).andThen fun _ =>
                      (parseEntries s cc (q2 + 8) []).andThen fun r =>
                        Eng.ret { name := nm, payload := pb, codes := r.1, next := r.2 }

/-- A parsed record in NAMEBUF, PAYBUF and CTAB (R192), before DTAB is rebuilt. -/
def State.withRecord (r : Record) (s : State) : State :=
  { s with namebuf := cellsFrom 0 r.name, nameLen := word r.name.length,
           paybuf := cellsFrom 0 r.payload, payLen := word r.payload.length }.withCodes r.codes r.codes.length

/-- The pseudocode of ARREC (R192). -/
def arrecBody (s : State) : Eng State :=
  (sequenceIf (s.status.ar != .opened) .readNotOpen).andThen fun _ =>
    (sequenceIf (s.recRemain == 0) .noneRemain).andThen fun _ =>
      (parseRecord s s.arcCur.toNat).andThen fun r =>
        (invertBody (s.withRecord r)).andThen fun t =>
          Eng.ret { t with arcCur := word r.next, recRemain := t.recRemain - 1 }

/-- ARREC (R192). -/
def execArrec (s : State) : Host.Outcome State Fault Refusal :=
  runCommand (destinations .arrec) (arrecBody s) s

/-- AREND (R200). R21's table names ARC_CUR among what AREND writes; R200 and R81 do not, and the model follows them (DEDUCED, log 11). R36's
"ENGINE reads" column names AREND for ARCBUF; R200 and R81 have it read no cell of ARCBUF, and the model follows them, so AREND never records
UnwrittenRead (DEDUCED, log 11). Unsafe if either column is meant. -/
def execArend (s : State) : Host.Outcome State Fault Refusal :=
  runCommand (destinations .arend)
    ((sequenceIf (s.status.ar != .opened) .readNotOpen).andThen fun _ =>
      (sequenceIf (s.recRemain != 0) .someRemain).andThen fun _ =>
        (formatIf (s.arcCur != s.arcLen) s.arcCur.toNat).andThen fun _ =>
          Eng.ret { s with status := { s.status with ar := .idle } }) s

/-- EXTRACT (R201): ARREC, then DECODE, as one command. -/
def execExtract (s : State) : Host.Outcome State Fault Refusal :=
  runCommand (destinations .extract) ((arrecBody s).andThen fun t => decodeBody t) s

end Sys2Proof.Machine
end

