-- ==== Sys2Proof/Machine/Control.lean ====
section
/-! DEFINITION. The control commands (43_control.md): NOP, RESET and ABORT. -/

namespace Sys2Proof.Machine

/-- NOP (R230): nothing beyond the common status update. -/
def execNop (s : State) : Host.Outcome State Fault Refusal :=
  runCommand (destinations .nop) (Eng.ret s) s

/-- The state RESET leaves before success completion (R231): ResetAction(), then LAST_OPC = 0x01. -/
def softReset (s : State) : State :=
  let t := resetAction s
  { t with status := { t.status with lastOpc := opcodeOf .reset } }

/-- RESET (R231). -/
def execReset (s : State) : Host.Outcome State Fault Refusal :=
  runCommand (destinations .reset) (Eng.ret (softReset s)) s

/-- ABORT (R232): AbortSessions(). -/
def execAbort (s : State) : Host.Outcome State Fault Refusal :=
  runCommand (destinations .abort) (Eng.ret (abortSessions s)) s

end Sys2Proof.Machine
end

