-- ==== Sys2Proof/Machine/Dispatch.lean ====
section
/-! DEFINITION. One arm for each command: the meaning that its rule gives it (30_encoding.md R82). -/

namespace Sys2Proof.Machine

def exec (i : Instr) (s : State) : Host.Outcome State Fault Refusal :=
  match i with
  -- 43_control.md
  | .nop => Sys2Proof.Machine.execNop s
  | .reset => Sys2Proof.Machine.execReset s
  | .abort => Sys2Proof.Machine.execAbort s
  -- 40_huffman.md
  | .freq => Sys2Proof.Machine.execFreq s
  | .build => Sys2Proof.Machine.execBuild s
  | .codegen => Sys2Proof.Machine.execCodegen s
  -- 41_bitstream.md
  | .encode => Sys2Proof.Machine.execEncode s
  | .compress => Sys2Proof.Machine.execCompress s
  | .dinv => Sys2Proof.Machine.execDinv s
  | .decode => Sys2Proof.Machine.execDecode s
  -- 42_archive.md
  | .awbegin => Sys2Proof.Machine.execAwbegin s
  | .awrec => Sys2Proof.Machine.execAwrec s
  | .awend => Sys2Proof.Machine.execAwend s
  | .arbegin => Sys2Proof.Machine.execArbegin s
  | .arrec => Sys2Proof.Machine.execArrec s
  | .arend => Sys2Proof.Machine.execArend s
  | .extract => Sys2Proof.Machine.execExtract s

end Sys2Proof.Machine
end

