-- ==== Sys2Proof/Machine/HostPort.lean ====
section
/-! DEFINITION. The HOST's port (20_memory.md R60 to R67): the value a read returns, what a write does, the hazards of an access while a
command is pending (70_reset_and_hazards.md R300, R301), and the HOST's `wait` and `expect` (30_encoding.md R87). -/

namespace Sys2Proof.Machine

/-- The space of a host address, A[63:56] (R60). -/
def addrSpace (a : Word) : Nat := (a.extractLsb' 56 8).toNat

/-- The index of a host address, A[55:0] (R60). -/
def addrIndex (a : Word) : Nat := (a.extractLsb' 0 56).toNat

/-- The host address SS:I (R60, R85). -/
def hostAddr (space index : Nat) : Word := word (space * 2 ^ 56 + index % 2 ^ 56)

/-- The value of register `r` (R21, R22): CMD and the reserved registers read 0. -/
def regRead (s : State) (r : Nat) : Word :=
  match r with
  | 0 => Config.idValue
  | 1 => 0
  | 2 => s.status.toWord
  | 3 => s.inLen
  | 4 => s.nameLen
  | 5 => s.payLen
  | 6 => s.outLen
  | 7 => s.arcLen
  | 8 => s.distinct
  | 9 => s.nodeCount
  | 10 => s.root
  | 11 => s.codeCount
  | 12 => s.recCount
  | 13 => s.recRemain
  | 14 => s.arcCur
  | 15 => s.errInfo
  | 16 => s.params.inCap
  | 17 => s.params.nameCap
  | 18 => s.params.payCap
  | 19 => s.params.outCap
  | 20 => s.params.arcCap
  | _ => 0

/-- A read of a window (R61): 0 outside its range (R66), none where the cell is unwritten (R63). -/
def windowRead {α : Type} (inRange : Bool) (c : Cells α) (i : Nat) (value : α → Word) : Option Word :=
  if inRange then (Cells.get c i).map value else some 0

/-- A bit as a data value (R64). -/
def bitWord (b : Bool) : Word := if b then 1 else 0

/-- Field `f` of a node slot (R65). -/
def nodeField (n : Node) (f : Nat) : Word :=
  match n, f with
  | .leaf w _, 0 => w
  | .leaf _ sym, 1 => word (2 ^ 8 + sym.toNat)
  | .leaf _ _, _ => 0
  | .inner w _ _, 0 => w
  | .inner _ l _, 2 => l.setWidth 64
  | .inner _ _ r, 3 => r.setWidth 64
  | .inner _ _ _, _ => 0

/-- Element `i` of space `space` (R61), or none where the cell is unwritten. -/
def spaceRead (s : State) (space i : Nat) : Option Word :=
  match space with
  | 0x00 => some (regRead s i)
  | 0x01 => windowRead (i < s.params.inCap.toNat) s.inbuf i (BitVec.setWidth 64)
  | 0x02 => windowRead (i < s.params.nameCap.toNat) s.namebuf i (BitVec.setWidth 64)
  | 0x03 => windowRead (i < s.params.payCap.toNat) s.paybuf i bitWord
  | 0x04 => windowRead (i < s.params.outCap.toNat) s.outbuf i (BitVec.setWidth 64)
  | 0x05 => windowRead (i < s.params.arcCap.toNat) s.arcbuf i (BitVec.setWidth 64)
  | 0x06 => windowRead (i < Config.nsym) s.freq i id
  | 0x07 => windowRead (i < Config.nsym) s.clen i (BitVec.setWidth 64)
  | 0x08 => windowRead (i < Config.nsym * 256 && i % 256 < Config.maxCodeLen) s.cbit i bitWord
  | 0x09 => windowRead (i < Config.nodeCap * 4) s.nodes (i / 4) (fun n => nodeField n (i % 4))
  | _ => some 0

/-- HostRead(A) of R61, or none where the cell is unwritten. -/
def hostRead (s : State) (a : Word) : Option Word := spaceRead s (addrSpace a) (addrIndex a)

/-- A write of register `r` (R21, R22): CMD issues a command, the lengths but OUT_LEN store all 64 bits, ARC_LEN only while no session is
open (R67), and every other register ignores it. -/
def regWrite (r : Nat) (d : Word) (s : State) : State :=
  match r with
  | 1 => issue d s
  | 3 => { s with inLen := d }
  | 4 => { s with nameLen := d }
  | 5 => { s with payLen := d }
  | 7 => if s.status.sessionOpen then s else { s with arcLen := d }
  | _ => s

/-- A write of element `i` of space `space` (R61, R64, R67), with no command pending. A write out of range, to a reserved space or to a
read-only window is ignored (R66). -/
def spaceWrite (space i : Nat) (d : Word) (s : State) : State :=
  match space with
  | 0x00 => regWrite i d s
  | 0x01 => if i < s.params.inCap.toNat then { s with inbuf := Cells.writeRange s.inbuf i [d.setWidth 8] } else s
  | 0x02 => if i < s.params.nameCap.toNat then { s with namebuf := Cells.writeRange s.namebuf i [d.setWidth 8] } else s
  | 0x03 => if i < s.params.payCap.toNat then { s with paybuf := Cells.writeRange s.paybuf i [d.getLsbD 0] } else s
  | 0x05 =>
    if s.status.sessionOpen then s
    else if i < s.params.arcCap.toNat then { s with arcbuf := Cells.writeRange s.arcbuf i [d.setWidth 8] } else s
  | _ => s

/-- HostWrite(A, d) of R61. -/
def hostWrite (a d : Word) (s : State) : State := spaceWrite (addrSpace a) (addrIndex a) d s

/-- The HOST has read the value `v` (R308). -/
def observe (v : Word) (s : State) : State := { s with observed := s.observed ++ [v] }

/-- The HOST's read returned an unspecified value: a free value (log 3, log 5). DESIGN CHOICE (log 3): the value may be any 64-bit word, as R63
("an unspecified value") and R260 ("an arbitrary value") have it. The spec leaves open whether it keeps the window's width: R64 has a read of
PAYBUF return 0 or 1, and R61 a read of a byte window a zero-extended byte. Safe: more values are allowed, and nothing constrains which. -/
def observeFree (s : State) : State :=
  { s with observed := s.observed ++ [Config.unspecifiedWord s.draws], draws := s.draws + 1 }

/-- The reads whose result is defined while BUSY = 1 (R27): STATUS, ID and r16 to r20. -/
def busyReadable (a : Word) : Bool :=
  addrSpace a == 0 && (addrIndex a == 0 || addrIndex a == 2 || (16 ≤ addrIndex a && addrIndex a ≤ 20))

/-- The address of CMD (R62). -/
def isCmd (a : Word) : Bool := addrSpace a == 0 && addrIndex a == 1

/-- HostBusyAccess in the fault record (R260). -/
def recordBusyAccess (s : State) : State := { s with faults := { s.faults with hostBusyAccess := true } }

/-- CmdWhileBusy in the fault record (R260). -/
def recordCmdWhileBusy (s : State) : State := { s with faults := { s.faults with cmdWhileBusy := true } }

/-- UnwrittenRead in the fault record (R260). -/
def recordUnwrittenRead (s : State) : State := { s with faults := { s.faults with unwrittenRead := true } }

/-- A host read (R61, R63) with no command pending. It changes no state of the block (R63). -/
def readIdle (a : Word) (s : State) : State :=
  match hostRead s a with
  | some v => observe v s
  | none => recordUnwrittenRead (observeFree s)

/-- A host write while BUSY = 1, to anything but CMD: HostBusyAccess comes on record, and the write reaches its element or is lost (R300: it "may
or may not reach the command in flight"). Which of the two is a free value. DESIGN CHOICE (log 5): no third outcome. Unsafe for a claim that
does not ask for an empty fault record. -/
def writeBusy (a d : Word) (s : State) : State :=
  let t := if Config.busyWriteReaches s.draws then hostWrite a d s else s
  recordBusyAccess { t with draws := s.draws + 1 }

/-- A host access while BUSY = 1: the reads of R27 are defined; every other access records a fault (R300), a write to CMD its own, and leaves
PENDING as it is (R301). The machine goes on, and no later state is final (R45, R260, R308). DESIGN CHOICE (log 5): the command in flight then
runs as its rule says, although R260 says that the access may corrupt it; unsafe for a claim about a state with a hazard on record. DESIGN CHOICE
(log 5): a read of an unwritten cell made while BUSY = 1 records HostBusyAccess alone, as R300 and D21 name it. R63 and R260 have UnwrittenRead
for a read of an unwritten cell with no word on BUSY, so the spec leaves open whether both are recorded. Safe: one record or two, no later state is final. -/
def accessBusy (op : HostOp) (s : State) : State :=
  match op with
  | .read a => if busyReadable a then observe (regRead s (addrIndex a)) s else recordBusyAccess (observeFree s)
  | .write a d => if isCmd a then recordCmdWhileBusy s else writeBusy a d s

/-- One HOST operation. -/
def hostAccess (op : HostOp) (s : State) : State :=
  if s.status.busy then accessBusy op s
  else
    match op with
    | .read a => readIdle a s
    | .write a d => hostWrite a d s

/-! ### The HOST's `wait` and `expect` (30_encoding.md R87) -/

/-- The value that the HOST's last read returned. -/
def lastRead (s : State) : Word := s.observed.getLastD 0

/-- The moves to come after a pass of `wait` that read `v` from STATUS: where bit 0 is 1 the loop goes round again, and the ENGINE's turn
comes after the last of its `polls` (log 6); where it is 0 the loop is left. -/
def waitRest (polls : Nat) (v : Word) (rest : List Move) : List Move :=
  if v.getLsbD 0 then
    match polls with
    | 0 => .engine :: .wait 0 :: rest
    | n + 1 => .wait n :: rest
  else rest

/-- One pass of `wait` (R87): `L: rd REG.STATUS; if bit 0 of the value read is 1, go to L`. -/
def waitAccess (polls : Nat) (s : State) : State :=
  let t := hostAccess (.read (hostAddr 0 2)) s
  { t with inputs := waitRest polls (lastRead t) t.inputs }

/-- `expect` (R87): the read of `a`, and the record of whether the value equals `v`. -/
def expectAccess (a v : Word) (s : State) : State :=
  let t := hostAccess (.read a) s
  { t with checks := t.checks ++ [lastRead t == v] }

end Sys2Proof.Machine
end

