-- ==== Sys2Proof/Machine/Fetch.lean ====
section
/-! DEFINITION. What the ENGINE's step finds to execute (60_exceptions.md R250, step 2), and the placing of a command for the very next step. -/

namespace Sys2Proof.Machine

/-- What the ENGINE's turn finds. -/
inductive Fetched where
  /-- BUSY = 0: the ENGINE has no enabled step (R250, R262) -/
  | idle
  /-- BUSY = 1 and PENDING is none: no run reaches this (log 14) -/
  | lost
  /-- PENDING is an illegal command value (R83) -/
  | illegal (v : Word)
  /-- PENDING selects a command (R82) -/
  | command (i : Instr)
deriving DecidableEq, Repr

/-- The ENGINE's fetch: PENDING, decoded (R250). -/
def fetch (s : State) : Fetched :=
  if s.status.busy then
    match s.pending with
    | none => .lost
    | some v =>
      match decode v with
      | .ok i => .command i
      | .error _ => .illegal v
  else .idle

/-- The state with the first move taken off. -/
def dropMove (s : State) : State := { s with inputs := s.inputs.tail }

/-- A command value of `nbits` bits issued, and the ENGINE's turn next (R250): the block has no program store, and PENDING is where its
ENGINE's step takes the command from (R24, R75; log 8). -/
def placeCommand (nbits w : Nat) (s : State) : State :=
  issue (word (w % 2 ^ nbits)) { s with inputs := .engine :: s.inputs }

end Sys2Proof.Machine
end

