-- ==== Sys2Proof/Machine/Step.lean ====
section
/-! DEFINITION. One step of the system (00_scope.md R5): the next move of `inputs`, or the ENGINE's step where no move is left. -/

namespace Sys2Proof.Machine

/-- The ENGINE's turn (60_exceptions.md R250): the pending command, whole, as one atomic step. With BUSY = 0 the ENGINE has no enabled step,
and its turn passes. -/
def engineStep (s : State) : Host.Outcome State Fault Refusal :=
  match fetch s with
  | .idle => .next s
  | .lost => .fault .noPending
  | .illegal v => .next (illegalCommand v s)
  | .command i => exec i s

/-- One step: the next move, whatever faults are on record (R45, R260: no step depends on the record or takes from it). With no move left the
ENGINE takes its turn: a pending command is executed (R307, weak fairness), and a block at rest stays as it is (log 6, log 7). The reset input
acts at once in any state (R292). -/
def step (s : State) : Host.Outcome State Fault Refusal :=
  match s.inputs with
  | .host op :: _ => .next (hostAccess op (dropMove s))
  | .wait polls :: _ => .next (waitAccess polls (dropMove s))
  | .expect a v :: _ => .next (expectAccess a v (dropMove s))
  | .hardReset :: _ => .next (resetAction (dropMove s))
  | .engine :: _ => engineStep (dropMove s)
  | [] => engineStep s

/-- `s` with the command word `w` issued and its execution the very next step (log 8). -/
def State.withFetchWord (s : State) (nbits w : Nat) : State := placeCommand nbits w s

end Sys2Proof.Machine
end

