-- ==== Sys2Proof/Machine/Assembler.lean ====
section
/-! DEFINITION. The host assembler (30_encoding.md R86, R87): each line as the moves it stands for. -/

namespace Sys2Proof.Machine

/-- The number of a named register (R21). -/
def RegName.number : RegName → Nat
  | .id => 0
  | .cmd => 1
  | .status => 2
  | .inLen => 3
  | .nameLen => 4
  | .payLen => 5
  | .outLen => 6
  | .arcLen => 7
  | .distinct => 8
  | .nodeCount => 9
  | .root => 10
  | .codeCount => 11
  | .recCount => 12
  | .recRemain => 13
  | .arcCur => 14
  | .errInfo => 15
  | .inCapr => 16
  | .nameCapr => 17
  | .payCapr => 18
  | .outCapr => 19
  | .arcCapr => 20

/-- The space of a window (R61). -/
def WindowName.space : WindowName → Nat
  | .inbuf => 0x01
  | .namebuf => 0x02
  | .paybuf => 0x03
  | .outbuf => 0x04
  | .arcbuf => 0x05
  | .freq => 0x06
  | .clen => 0x07
  | .cbit => 0x08
  | .node => 0x09

/-- The address of a register. -/
def regAddr (r : RegName) : Word := hostAddr 0 (RegName.number r)

/-- The window and the length register that `load` fills (R87). -/
def LoadTarget.window : LoadTarget → WindowName × RegName
  | .inbuf => (.inbuf, .inLen)
  | .namebuf => (.namebuf, .nameLen)
  | .arcbuf => (.arcbuf, .arcLen)

/-- The writes of elements `i`, `i+1`, … of a window. -/
def writesFrom (w : WindowName) : Nat → List Word → List Move
  | _, [] => []
  | i, d :: ds => .host (.write (hostAddr (WindowName.space w) i) d) :: writesFrom w (i + 1) ds

/-- `cmd` (R86): the CMD write that issues a command. -/
def cmdMove (i : Instr) : Move := .host (.write (regAddr .cmd) (encode i))

/-- `wait` (R87) under a schedule in which its loop sees BUSY = 1 `polls` times before the ENGINE's turn. The loop itself is `waitAccess`:
with BUSY = 0 it reads STATUS once, whatever the schedule (log 6). -/
def waitMoves : Nat → List Move
  | 0 => [.engine, .wait 0]
  | n + 1 => [.wait n]

/-- The moves of one line (R86, R87). DESIGN CHOICE (log 6): of the schedules that R307's fairness allows, these moves are the one in which the
ENGINE's turn comes only inside a `wait`, so a `cmd` line has no turn of its own and every line after it up to the next `wait` sees BUSY = 1.
The spec leaves open when the ENGINE acts after a `cmd` that no `wait` follows (95_test_vectors.md V-CTL-11). Unsafe for a claim about this list
alone of a program with such a line; the other schedules are the lists with an `.engine` move after the CMD write. -/
def AsmLine.moves : AsmLine → List Move
  | .rd r => [.host (.read (regAddr r))]
  | .wr r d => [.host (.write (regAddr r) d)]
  | .rdb w i => [.host (.read (hostAddr (WindowName.space w) i))]
  | .wrb w i d => [.host (.write (hostAddr (WindowName.space w) i) d)]
  | .cmd i => [cmdMove i]
  | .wait polls => waitMoves polls
  | .run i polls => cmdMove i :: waitMoves polls
  | .load t bs =>
    writesFrom (LoadTarget.window t).1 0 (bs.map (BitVec.setWidth 64))
      ++ [.host (.write (regAddr (LoadTarget.window t).2) (word bs.length))]
  | .loadbits bits =>
    writesFrom .paybuf 0 (bits.map bitWord) ++ [.host (.write (regAddr .payLen) (word bits.length))]
  | .expectReg r v => [.expect (regAddr r) v]
  | .expectElem w i v => [.expect (hostAddr (WindowName.space w) i) v]

/-- A host program as the moves of its run (R85), under the schedule of `AsmLine.moves` (DESIGN CHOICE, log 6). -/
def assemble (p : List AsmLine) : List Move := p.flatMap AsmLine.moves

end Sys2Proof.Machine
end

