-- ==== Sys2Proof/Safety.lean ====
section
/-! DEFINITION. The terms that claims use: what a final state and a safe step are (70_reset_and_hazards.md R308), what it means for buffers
and tables to hold given contents, the code tree as the source means it (00_scope.md glossary), and the invariants of a run. -/

namespace Sys2Proof.Machine

/-! ### Runs -/

/-- The fault record is empty (R45). -/
def State.clean (s : State) : Prop := FaultRecord.isEmpty s.faults = true

/-- A final state (R308, R260): no move is left, BUSY = 0 and no model fault is on record. -/
def State.final (s : State) : Prop := s.inputs = [] ∧ s.status.busy = false ∧ s.clean

/-- A safe step: it gives a next state, and no model fault is on record there (R260). -/
def SafeStep (s : State) : Prop := ∃ t, step s = .next t ∧ t.clean

/-- One command as the HOST runs it: the CMD write that issues it (R250), then its execution. -/
def runCmd (i : Instr) (s : State) : Host.Outcome State Fault Refusal := exec i (issue (encode i) s)

/-- STATUS after a success whose valid bits and sessions stay (R254). -/
def Status.completed (t : Status) : Status := { t with done := true, busy := false }

/-- The state with both sessions closed as R233 says, each field in one place: a write session takes the container with it, and either
session its counters. -/
def sessionsClosed (s : State) : State :=
  { s with
    arcbuf := if s.status.aw = .opened then [] else s.arcbuf,
    arcLen := if s.status.aw = .opened then 0 else s.arcLen,
    recCount := if s.status.aw = .opened ∨ s.status.ar = .opened then 0 else s.recCount,
    recRemain := if s.status.ar = .opened then 0 else s.recRemain,
    arcCur := if s.status.ar = .opened then 0 else s.arcCur,
    status := { s.status with aw := .idle, ar := .idle } }

/-- The moves of `s` let the ENGINE take its turn now: its turn is next, or no move is left (R250, R307). -/
def engineTurn (s : State) : Prop := s.inputs = [] ∨ s.inputs.head? = some .engine

/-! ### Contents of buffers and tables -/

/-- Cells `i`, `i+1`, … hold `vs`. -/
abbrev Cells.holds {α : Type} (c : Cells α) (i : Nat) (vs : List α) : Prop :=
  ∀ j, (h : j < vs.length) → Cells.get c (i + j) = some vs[j]

/-- The buffer holds `vs` from cell 0 on and every other cell is unwritten. -/
def Cells.exactly {α : Type} (c : Cells α) (vs : List α) : Prop :=
  Cells.holds c 0 vs ∧ ∀ i, vs.length ≤ i → Cells.get c i = none

/-- IN_LEN counts the bytes `bs`, INBUF holds them, and they fit (R31, R6). -/
abbrev InputIs (s : State) (bs : List Byte) : Prop :=
  Cells.holds s.inbuf 0 bs ∧ s.inLen.toNat = bs.length ∧ bs.length ≤ s.params.inCap.toNat

/-- NAME_LEN counts the bytes `bs`, NAMEBUF holds them, and they fit (R31, R6). -/
abbrev NameIs (s : State) (bs : List Byte) : Prop :=
  Cells.holds s.namebuf 0 bs ∧ s.nameLen.toNat = bs.length ∧ bs.length ≤ s.params.nameCap.toNat

/-- PAY_LEN counts the bits `c`, PAYBUF holds them, and they fit (R31, R6). -/
abbrev PayloadIs (s : State) (c : Code) : Prop :=
  Cells.holds s.paybuf 0 c ∧ s.payLen.toNat = c.length ∧ c.length ≤ s.params.payCap.toNat

/-- CTAB is the code table `f` (R42), `f sym = []` meaning that `sym` has no code. -/
abbrev CtabIs (s : State) (f : Byte → Code) : Prop :=
  ∀ sym : Byte, (f sym).length ≤ 255 ∧ Cells.get s.clen sym.toNat = some (byte (f sym).length) ∧
    Cells.holds s.cbit (sym.toNat * 256) (f sym)

/-- CTAB is the code table `f` and no CBIT cell past a code is written (R42). -/
def CtabExactly (s : State) (f : Byte → Code) : Prop :=
  CtabIs s f ∧ ∀ (sym : Byte) (j : Nat), (f sym).length ≤ j → j < 256 → Cells.get s.cbit (sym.toNat * 256 + j) = none

/-- DTAB is the inverse of the code table `f` (R43). -/
def DtabIs (s : State) (f : Byte → Code) : Prop :=
  ∀ c y, dtabGet s.dtab c = some y ↔ (c ≠ [] ∧ f y = c)

/-- No two symbols share a code (R161: Invert answers no Dup). -/
abbrev CodesDiffer (f : Byte → Code) : Prop := ∀ x y : Byte, f x ≠ [] → f x = f y → x = y

/-- No code is a prefix of another (glossary, R123). -/
abbrev PrefixFree (f : Byte → Code) : Prop := ∀ x y : Byte, f x ≠ [] → f x <+: f y → x = y

/-- The codes of `bs` one after another are what the greedy decoder takes (41_bitstream.md R170, R173): each of `bs` has a code, and no code
but its own is a prefix of it, so that its last bit is the first at which the candidate matches. The table need not be prefix-free. -/
abbrev FirstMatch (f : Byte → Code) (bs : List Byte) : Prop := ∀ b ∈ bs, f b ≠ [] ∧ ∀ y : Byte, f y ≠ [] → f y <+: f b → y = b

/-- How often byte value `sym` stands in `bs` (R100). -/
def occurrences (sym : Nat) (bs : List Byte) : Nat := bs.countP fun b => b.toNat == sym

/-- The symbols that occur in `bs`, ascending (R110). -/
def presentIn (bs : List Byte) : List Nat := symbols.filter fun sym => 1 ≤ occurrences sym bs

/-- The symbols with a count of at least 1 in FREQ, ascending (R110: S). -/
def presentSymbols (s : State) : List Nat :=
  symbols.filter fun sym => match Cells.get s.freq sym with | some w => 1 ≤ w.toNat | none => false

/-- The count of a symbol in FREQ, 0 where the cell is unwritten. -/
def freqCount (s : State) (sym : Nat) : Nat := match Cells.get s.freq sym with | some w => w.toNat | none => 0

/-- The symbols with a code in CTAB, ascending (R32: those with CLEN of at least 1). -/
def codedSymbols (s : State) : List Nat :=
  symbols.filter fun sym => match Cells.get s.clen sym with | some y => 1 ≤ y.toNat | none => false

/-! ### The code tree -/

/-- A CodeTree (glossary): a leaf holds a symbol, an internal node exactly two children, and each holds a weight. -/
inductive CodeTree where
  | leaf (weight : Word) (sym : Byte)
  | fork (weight : Word) (left right : CodeTree)
deriving DecidableEq, Repr

/-- The weight at the root. -/
def CodeTree.weight : CodeTree → Word
  | .leaf w _ => w
  | .fork w _ _ => w

/-- The symbols of the leaves, left to right. -/
def CodeTree.syms : CodeTree → List Byte
  | .leaf _ sym => [sym]
  | .fork _ l r => CodeTree.syms l ++ CodeTree.syms r

/-- The leaves with their weights, left to right. -/
def CodeTree.leaves : CodeTree → List (Byte × Word)
  | .leaf w sym => [(sym, w)]
  | .fork _ l r => CodeTree.leaves l ++ CodeTree.leaves r

/-- Every internal node weighs what its children weigh together (R113). -/
def CodeTree.summed : CodeTree → Prop
  | .leaf _ _ => True
  | .fork w l r => w.toNat = (CodeTree.weight l).toNat + (CodeTree.weight r).toNat ∧ CodeTree.summed l ∧ CodeTree.summed r

/-- The code of each leaf (R121): the path from the root, false for left and true for right, after `p`. -/
def CodeTree.paths : CodeTree → Code → List (Byte × Code)
  | .leaf _ sym, p => [(sym, p)]
  | .fork _ l r, p => CodeTree.paths l (p ++ [false]) ++ CodeTree.paths r (p ++ [true])

/-- The codes of a tree (R121, R122): a root that is a leaf has the code "0". -/
def CodeTree.codes : CodeTree → List (Byte × Code)
  | .leaf _ sym => [(sym, [false])]
  | .fork w l r => CodeTree.paths (.fork w l r) []

/-- Node `i` of NODES is the root of the tree (R41). -/
def Represents (nodes : Cells Node) : Nat → CodeTree → Prop
  | i, .leaf w sym => Cells.get nodes i = some (.leaf w sym)
  | i, .fork w l r =>
    ∃ a b : BitVec 9, Cells.get nodes i = some (.inner w a b) ∧ Represents nodes a.toNat l ∧ Represents nodes b.toNat r

/-- The ids that stand as a child in a list of nodes, left before right (R112). -/
def childIds : List Node → List Nat
  | [] => []
  | .leaf _ _ :: ns => childIds ns
  | .inner _ a b :: ns => a.toNat :: b.toNat :: childIds ns

/-- The weight of node `i`, 0 where the slot is unwritten. -/
def nodeWeight (nodes : Cells Node) (i : Nat) : Nat := match Cells.get nodes i with | some n => n.weight.toNat | none => 0

/-- Node `i` comes no later than node `j` in the order of R111: weight first, then id. -/
abbrev KeyLe (nodes : Cells Node) (i j : Nat) : Prop :=
  nodeWeight nodes i < nodeWeight nodes j ∨ nodeWeight nodes i = nodeWeight nodes j ∧ i ≤ j

/-- Node `i` is in the collection P of R110 when node `m` is made: it is made already, and no child of a node made already. -/
def InCollection (nodes : Cells Node) (m i : Nat) : Prop :=
  i < m ∧ ∀ j w a b, j < m → Cells.get nodes j = some (.inner w a b) → a.toNat ≠ i ∧ b.toNat ≠ i

/-- Node `m` merges the two least members of the collection: the least is its left child, the least of the others its right child, and it
weighs what they weigh together (R110, R111). -/
def MergesTheTwoLeast (nodes : Cells Node) (m : Nat) : Prop :=
  ∃ w a b, Cells.get nodes m = some (.inner w a b) ∧
    InCollection nodes m a.toNat ∧ (∀ x, InCollection nodes m x → KeyLe nodes a.toNat x) ∧
    InCollection nodes m b.toNat ∧ b ≠ a ∧ (∀ x, InCollection nodes m x → x ≠ a.toNat → KeyLe nodes b.toNat x) ∧
    w.toNat = nodeWeight nodes a.toNat + nodeWeight nodes b.toNat

/-- A choice that a tie-break may make (R111, I1): a member of the collection, of least weight. -/
def AdmissiblePick (pick : Pick) : Prop :=
  ∀ k ks, pick k ks ∈ k :: ks ∧ ∀ x ∈ k :: ks, (pick k ks).1 ≤ x.1

/-! ### The container -/

/-- The bytes of a code entry (R180): codeLen, codeBits, symbol. -/
def containerEntry (e : Byte × Code) : List Byte := toLE64 e.2.length ++ e.2.map bitChar ++ [e.1]

/-- The bytes of a record (R180): nameLen, name, payloadLen, payloadBits, codeCount, entries. -/
def containerRecord (name : List Byte) (payload : Code) (ct : List (Byte × Code)) : List Byte :=
  toLE64 name.length ++ name ++ toLE64 payload.length ++ payload.map bitChar ++ toLE64 ct.length
    ++ ct.flatMap containerEntry

/-- A code table that a record can carry (R197): every code has 1 to 255 bits, no symbol and no code twice. -/
abbrev TableLegal (ct : List (Byte × Code)) : Prop :=
  (∀ e ∈ ct, 1 ≤ e.2.length ∧ e.2.length ≤ 255) ∧ (ct.map Prod.fst).Nodup ∧ (ct.map Prod.snd).Nodup

/-- The entries of the code table `f` in ascending symbol order (R181, R182). -/
def entriesOf (f : Byte → Code) : List (Byte × Code) :=
  (symbols.filter fun sym => !(f (byte sym)).isEmpty).map fun sym => (byte sym, f (byte sym))

/-- The code table of a list of entries. -/
def tableOf (ct : List (Byte × Code)) : Byte → Code := fun sym => codeIn ct sym.toNat

/-! ### Invariants of a run -/

/-- STATUS is legal (R26 to R29, R34): a pending command is known and has not completed; ERR goes with an error code, and only after a
completion; ERR_INFO is 0 without an error; at most one session is open. -/
abbrev State.statusLegal (s : State) : Prop :=
  (s.status.busy = true → s.status.done = false ∧ s.pending.isSome = true) ∧
  (s.status.err = true ↔ s.status.errcode ≠ .noError) ∧
  (s.status.err = true → s.status.done = true) ∧
  (s.status.err = false → s.errInfo = 0) ∧
  (s.status.aw = .idle ∨ s.status.ar = .idle)

/-- Every written cell lies inside its buffer or table (R36, R40 to R42), in a block whose parameters meet R6. -/
abbrev State.inBounds (s : State) : Prop :=
  Params.wf s.params = true ∧
  (∀ e ∈ s.inbuf, e.1 < s.params.inCap.toNat) ∧ (∀ e ∈ s.namebuf, e.1 < s.params.nameCap.toNat) ∧
  (∀ e ∈ s.paybuf, e.1 < s.params.payCap.toNat) ∧ (∀ e ∈ s.outbuf, e.1 < s.params.outCap.toNat) ∧
  (∀ e ∈ s.arcbuf, e.1 < s.params.arcCap.toNat) ∧ (∀ e ∈ s.freq, e.1 < Config.nsym) ∧
  (∀ e ∈ s.nodes, e.1 < Config.nodeCap) ∧ (∀ e ∈ s.clen, e.1 < Config.nsym) ∧
  (∀ e ∈ s.cbit, e.1 < Config.nsym * 256 ∧ e.1 % 256 < Config.maxCodeLen)

/-- The open session's registers are legal (R29, R33, R67): a container under construction has its header and lies inside ARCBUF; a parse
stands inside a container that lies inside ARCBUF, and has no more records to come than were declared. -/
abbrev State.sessionLegal (s : State) : Prop :=
  Params.wf s.params = true ∧
  (s.status.aw = .opened → 8 ≤ s.arcLen.toNat ∧ s.arcLen.toNat ≤ s.params.arcCap.toNat ∧
    ∀ j, j < s.arcLen.toNat → (Cells.get s.arcbuf j).isSome = true) ∧
  (s.status.ar = .opened → 8 ≤ s.arcCur.toNat ∧ s.arcCur.toNat ≤ s.arcLen.toNat ∧
    s.arcLen.toNat ≤ s.params.arcCap.toNat ∧ s.recRemain.toNat ≤ s.recCount.toNat)

/-- What DTAB holds where DTAB_V = 1 (R43): at most 256 pairs, each of a bit-string of 1 to 255 bits and its symbol, no bit-string twice. -/
abbrev DtabLegal (d : List (Code × Byte)) : Prop :=
  d.length ≤ 256 ∧ (∀ e ∈ d, 1 ≤ e.1.length ∧ e.1.length ≤ 255) ∧ (d.map Prod.fst).Nodup

/-- The count registers count their tables (R32): DISTINCT the symbols with a count, NODE_COUNT the nodes, which fill NODES from slot 0 on,
and CODE_COUNT the symbols with a code. -/
def State.countsLegal (s : State) : Prop :=
  s.distinct.toNat = (presentSymbols s).length ∧
  (∀ i, (Cells.get s.nodes i).isSome = true ↔ i < s.nodeCount.toNat) ∧
  s.codeCount.toNat = (codedSymbols s).length

/-- A table whose valid bit is 1 holds what its kind must hold (R30, R40 to R43): FREQ is written, NODES is a tree with distinct symbols,
CTAB is a table of distinct codes with no bit past a code, DTAB is a decode table; DTAB is empty where its bit is 0 (log 12); and the count
registers count the tables (R32). -/
def State.tablesLegal (s : State) : Prop :=
  (s.status.freqV = true → ∀ sym, sym < 256 → (Cells.get s.freq sym).isSome = true) ∧
  (s.status.treeV = true → ∃ tree : CodeTree, Represents s.nodes s.root.toNat tree ∧ (CodeTree.syms tree).Nodup) ∧
  (s.status.ctabV = true → ∃ f : Byte → Code, CtabExactly s f ∧ CodesDiffer f) ∧
  (s.status.dtabV = true → DtabLegal s.dtab) ∧
  (s.status.dtabV = false → s.dtab = []) ∧
  s.countsLegal

end Sys2Proof.Machine
end

