-- ==== Sys2Proof/Certificates/Slice0/Obligations.lean ====
section
/-! DEFINITION. What is claimed of the model, from the numbered rules of spec/ (OBLIGATIONS.json names the rule of each). -/

open Sys2Proof Sys2Proof.Machine

/-! ### Encoding -/

/-- 30_encoding.md R80, R82: command words written out bit by bit select the commands of the opcode map. -/
def Obligations.SampleCommandWordsDecode : Prop :=
  decode 0b0000000000000000000000000000000000000000000000000000000000000000#64 = .ok .nop ∧
  decode 0b0000000000000000000000000000000000000000000000000000000000010000#64 = .ok .freq ∧
  decode 0b0000000000000000000000000000000000000000000000000000000000010100#64 = .ok .compress ∧
  decode 0b0000000000000000000000000000000000000000000000000000000000100001#64 = .ok .decode ∧
  decode 0b0000000000000000000000000000000000000000000000000000000000110001#64 = .ok .awrec ∧
  decode 0b0000000000000000000000000000000000000000000000000000000000111011#64 = .ok .extract ∧
  decode 0b0000000000000000000000000000000000000000000000000000000100010000#64 = .error .reservedBitsSet ∧
  decode 0b0000000000000000000000000000000000000000000000000000000000000101#64 = .error .unassignedOpcode

/-- 30_encoding.md R82: a command is selected exactly when v[63:8] = 0 and v[7:0] equals its OPC, and encoding gives that value. -/
def Obligations.CommandSelectedExactlyByItsOpcode : Prop :=
  ∀ (v : Word) (i : Instr),
    (decode v = .ok i ↔
      v.extractLsb' 8 56 = 0 ∧
      (v.extractLsb' 0 8, i) ∈
        ([(0x00, .nop), (0x01, .reset), (0x02, .abort), (0x10, .freq), (0x11, .build), (0x12, .codegen), (0x13, .encode),
          (0x14, .compress), (0x20, .dinv), (0x21, .decode), (0x30, .awbegin), (0x31, .awrec), (0x32, .awend),
          (0x38, .arbegin), (0x39, .arrec), (0x3A, .arend), (0x3B, .extract)] : List (BitVec 8 × Instr))) ∧
    (decode v = .ok i ↔ v = encode i)

/-- 30_encoding.md R83: every 64-bit value selects exactly one command or is illegal; it is illegal when v[63:8] is not 0 or v[7:0] is none of
the 17 OPC values; and the ENGINE completes an illegal command with ILLEGAL_COMMAND and ERR_INFO = v, closing any open session and changing
nothing else. -/
def Obligations.IllegalCommandValues : Prop :=
  (∀ v : Word, (∃ i, decode v = .ok i ∧ ∀ j, decode v = .ok j → j = i) ∨ (∃ e, decode v = .error e)) ∧
  (∀ v : Word, (∃ e, decode v = .error e) ↔
    (v.extractLsb' 8 56 ≠ 0 ∨ v.extractLsb' 0 8 ∉
      ([0x00, 0x01, 0x02, 0x10, 0x11, 0x12, 0x13, 0x14, 0x20, 0x21, 0x30, 0x31, 0x32, 0x38, 0x39, 0x3A, 0x3B] : List (BitVec 8)))) ∧
  (∀ (s : State) (v : Word), engineTurn s → s.status.busy = true → s.pending = some v →
    (∃ e, decode v = .error e) →
    step s = .next { sessionsClosed (dropMove s) with
      errInfo := v,
      status := { s.status with aw := .idle, ar := .idle, busy := false, done := true, err := true, errcode := .illegalCommand } })

/-! ### The step -/

/-- 60_exceptions.md R250: when the ENGINE may act and PENDING decodes to `i`, the step is exec of `i` on the state with the move taken off.
The word that withFetchWord places is that command. A HOST move is one host access (00_scope.md R5). The model's choices in it: that the moves
stand in a list, and that the ENGINE acts where it is empty (DESIGN CHOICE, log 6); that a turn of the ENGINE with BUSY = 0, an empty list among
them, is a step that passes (DESIGN CHOICE, log 7: R262 says only that no step of the ENGINE is enabled); and that withFetchWord stands for the
CMD write (DESIGN CHOICE, log 8). -/
def Obligations.StepRunsDecodedCommand : Prop :=
  (∀ (s : State) (v : Word) (i : Instr), engineTurn s → s.status.busy = true → s.pending = some v →
    decode v = .ok i → Instr.wf i = true → step s = exec i (dropMove s)) ∧
  (∀ (s : State) (i : Instr),
    step (s.withFetchWord 64 (encode i).toNat) = exec i (issue (encode i) s)) ∧
  (∀ (s : State), engineTurn s → s.status.busy = false → step s = .next (dropMove s)) ∧
  (∀ (s : State) (op : HostOp) (rest : List Move), s.inputs = .host op :: rest →
    step s = .next (hostAccess op { s with inputs := rest }))

/-- 60_exceptions.md R250 step 1: a host write of v to CMD while BUSY = 0 latches v and clears the completion fields. -/
def Obligations.CmdWriteIssuesTheCommand : Prop :=
  ∀ (s : State) (v : Word), s.status.busy = false →
    hostAccess (.write (hostAddr 0 1) v) s =
      { s with pending := some v, errInfo := 0,
               status := { s.status with busy := true, done := false, err := false, errcode := .noError,
                                         lastOpc := v.extractLsb' 0 8 } }

/-- 60_exceptions.md R250, R254, R253: every command, from every state, completes: BUSY = 0 and DONE = 1 after it. That it does so where it
reads an unwritten cell is the model's choice (DESIGN CHOICE, log 3), and so is the bound by which CODEGEN's walk ends over NODES that are no
tree, which no run reaches (DESIGN CHOICE, log 17). -/
def Obligations.EveryCommandCompletes : Prop :=
  ∀ (i : Instr) (s : State), ∃ t, exec i s = .next t ∧ t.status.busy = false ∧ t.status.done = true

/-- 60_exceptions.md R253, with the destinations of each command written out from 30_encoding.md R81: error completion. SEQUENCE and
ILLEGAL_COMMAND change no destination; a data error leaves every destination unwritten or 0 and its valid bit 0; every error closes the
sessions and sets ERR, ERRCODE, ERR_INFO, DONE and BUSY. That an invalidated DTAB is empty is DEDUCED (log 12). -/
def Obligations.ErrorCompletionEffect : Prop :=
  let listed : Instr → List Dest := fun i => match i with
    | .nop => []
    | .reset => [.inbuf, .namebuf, .paybuf, .outbuf, .arcbuf, .freq, .nodes, .ctab, .dtab, .inLen, .nameLen, .payLen, .outLen, .arcLen,
                 .distinct, .nodeCount, .root, .codeCount]
    | .abort => [.arcbuf, .arcLen]
    | .freq => [.freq, .distinct]
    | .build => [.nodes, .nodeCount, .root]
    | .codegen => [.ctab, .codeCount]
    | .encode => [.paybuf, .payLen]
    | .compress => [.freq, .distinct, .nodes, .nodeCount, .root, .ctab, .codeCount, .paybuf, .payLen]
    | .dinv => [.dtab]
    | .decode => [.outbuf, .outLen]
    | .awbegin => [.arcbuf, .arcLen]
    | .awrec => [.arcbuf, .arcLen]
    | .awend => [.arcbuf]
    | .arbegin => []
    | .arrec => [.namebuf, .nameLen, .paybuf, .payLen, .ctab, .codeCount, .dtab]
    | .arend => []
    | .extract => [.namebuf, .nameLen, .paybuf, .payLen, .ctab, .codeCount, .dtab, .outbuf, .outLen]
  (∀ (i : Instr) (d : Dest), d ∈ destinations i ↔ d ∈ listed i) ∧
  ∀ (i : Instr) (e : ErrCode) (info : Nat) (s : State),
    let t := errorCompletion (destinations i) { code := e, info := info } s
    let cleared : Dest → Bool := fun d => !(e == .sequenceError || e == .illegalCommand) && (listed i).contains d
    let u : State := { s with
      inbuf := if cleared .inbuf then [] else s.inbuf, inLen := if cleared .inLen then 0 else s.inLen,
      namebuf := if cleared .namebuf then [] else s.namebuf, nameLen := if cleared .nameLen then 0 else s.nameLen,
      paybuf := if cleared .paybuf then [] else s.paybuf, payLen := if cleared .payLen then 0 else s.payLen,
      outbuf := if cleared .outbuf then [] else s.outbuf, outLen := if cleared .outLen then 0 else s.outLen,
      arcbuf := if cleared .arcbuf then [] else s.arcbuf, arcLen := if cleared .arcLen then 0 else s.arcLen,
      freq := if cleared .freq then [] else s.freq, distinct := if cleared .distinct then 0 else s.distinct,
      nodes := if cleared .nodes then [] else s.nodes, nodeCount := if cleared .nodeCount then 0 else s.nodeCount,
      root := if cleared .root then 0 else s.root,
      clen := if cleared .ctab then [] else s.clen, cbit := if cleared .ctab then [] else s.cbit,
      codeCount := if cleared .codeCount then 0 else s.codeCount,
      dtab := if cleared .dtab then [] else s.dtab }
    t = { sessionsClosed u with
          errInfo := word info,
          status := { s.status with aw := .idle, ar := .idle, busy := false, done := true, err := true, errcode := e,
                                    freqV := s.status.freqV && !cleared .freq, treeV := s.status.treeV && !cleared .nodes,
                                    ctabV := s.status.ctabV && !cleared .ctab, dtabV := s.status.dtabV && !cleared .dtab } }

/-- 60_exceptions.md R253, R254: a command that completes with ERR = 1 has, whatever it read, the effect of error completion and no other,
and its error is one that R251 lets it raise; the one beside R251's list, MISSING_CODE of COMPRESS, comes only of an unwritten INBUF cell
that two reads find different (log 3), and CompressIsTheChain rules it out for an input that is written. -/
def Obligations.FailedCommandOnlyFails : Prop :=
  ∀ (i : Instr) (s t : State), s.status.err = false → exec i s = .next t → t.status.err = true →
    ∃ e info, t = { errorCompletion (destinations i) { code := e, info := info } s with faults := t.faults, draws := t.draws } ∧
      (e, i) ∈ ([(.emptyInput, .build), (.missingCode, .encode), (.truncatedPayload, .decode), (.truncatedPayload, .extract),
        (.archiveFormat, .arbegin), (.archiveFormat, .arrec), (.archiveFormat, .arend), (.archiveFormat, .extract),
        (.archiveFormat, .dinv), (.capacity, .freq), (.capacity, .encode), (.capacity, .compress), (.capacity, .decode),
        (.capacity, .awrec), (.capacity, .arbegin), (.capacity, .arrec), (.capacity, .extract),
        (.sequenceError, .build), (.sequenceError, .codegen), (.sequenceError, .encode), (.sequenceError, .dinv),
        (.sequenceError, .decode), (.sequenceError, .awbegin), (.sequenceError, .awrec), (.sequenceError, .awend),
        (.sequenceError, .arbegin), (.sequenceError, .arrec), (.sequenceError, .arend), (.sequenceError, .extract),
        (.missingCode, .compress)] : List (ErrCode × Instr))

/-- 30_encoding.md R81, 60_exceptions.md R254: a command that completes with ERR = 0 changes nothing but what R81's "writes" column lists for it
(RESET, which writes all state, has its own statement). The fault record and the count of free values change only where it read an unwritten
cell (log 3). COMPRESS leaves TREE_V = 1 where DISTINCT is not 0 after it and 0 where it is 0 (41_bitstream.md R150). That AWEND leaves ARC_LEN and
AREND leaves ARC_CUR is R81 against the column of R21 (DEDUCED, log 11). -/
def Obligations.SuccessChangesOnlyWhatTheTableLists : Prop :=
  ∀ (i : Instr) (s t : State), exec i s = .next t → t.status.err = false →
    let base : State := { s with faults := t.faults, draws := t.draws }
    let st : Status := { s.status with busy := false, done := true }
    match i with
    | .nop => t = { base with status := st }
    | .reset => t.inputs = s.inputs ∧ t.observed = s.observed ∧ t.checks = s.checks ∧ t.faults = s.faults ∧ t.params = s.params
    | .abort => t = { base with status := { st with aw := .idle, ar := .idle }, arcbuf := t.arcbuf, arcLen := t.arcLen,
                                recCount := t.recCount, recRemain := t.recRemain, arcCur := t.arcCur }
    | .freq => t = { base with status := { st with freqV := true }, freq := t.freq, distinct := t.distinct }
    | .build => t = { base with status := { st with treeV := true }, nodes := t.nodes, nodeCount := t.nodeCount, root := t.root }
    | .codegen => t = { base with status := { st with ctabV := true }, clen := t.clen, cbit := t.cbit, codeCount := t.codeCount }
    | .encode => t = { base with status := st, paybuf := t.paybuf, payLen := t.payLen }
    | .compress => t = { base with status := { st with freqV := true, treeV := decide (t.distinct ≠ 0), ctabV := true }, freq := t.freq,
                                   distinct := t.distinct, nodes := t.nodes, nodeCount := t.nodeCount, root := t.root,
                                   clen := t.clen, cbit := t.cbit, codeCount := t.codeCount, paybuf := t.paybuf, payLen := t.payLen }
    | .dinv => t = { base with status := { st with dtabV := true }, dtab := t.dtab }
    | .decode => t = { base with status := st, outbuf := t.outbuf, outLen := t.outLen }
    | .awbegin => t = { base with status := { st with aw := .opened }, arcbuf := t.arcbuf, arcLen := t.arcLen, recCount := t.recCount }
    | .awrec => t = { base with status := st, arcbuf := t.arcbuf, arcLen := t.arcLen, recCount := t.recCount }
    | .awend => t = { base with status := { st with aw := .idle }, arcbuf := t.arcbuf }
    | .arbegin => t = { base with status := { st with ar := .opened }, recCount := t.recCount, recRemain := t.recRemain,
                                  arcCur := t.arcCur }
    | .arrec => t = { base with status := { st with ctabV := true, dtabV := true }, namebuf := t.namebuf, nameLen := t.nameLen,
                                paybuf := t.paybuf, payLen := t.payLen, clen := t.clen, cbit := t.cbit, codeCount := t.codeCount,
                                dtab := t.dtab, recRemain := t.recRemain, arcCur := t.arcCur }
    | .arend => t = { base with status := { st with ar := .idle } }
    | .extract => t = { base with status := { st with ctabV := true, dtabV := true }, namebuf := t.namebuf, nameLen := t.nameLen,
                                  paybuf := t.paybuf, payLen := t.payLen, clen := t.clen, cbit := t.cbit, codeCount := t.codeCount,
                                  dtab := t.dtab, recRemain := t.recRemain, arcCur := t.arcCur, outbuf := t.outbuf,
                                  outLen := t.outLen }

/-- 60_exceptions.md R252, and the first checks of each command's rule: where a table is not valid or a session is in the wrong state, the
command ends in SEQUENCE with its detail value, and changes no destination. -/
def Obligations.SequenceErrors : Prop :=
  let fails : Instr → Nat → State → Prop := fun i k s =>
    exec i s = .next (errorCompletion (destinations i) { code := .sequenceError, info := k } s)
  ∀ s : State,
    (s.status.freqV = false → fails .build 1 s) ∧
    (s.status.treeV = false → fails .codegen 2 s) ∧
    (s.status.ctabV = false → fails .encode 3 s ∧ fails .dinv 3 s) ∧
    (s.status.dtabV = false → fails .decode 4 s) ∧
    (s.status.aw = .idle → fails .awrec 5 s ∧ fails .awend 5 s) ∧
    (s.status.aw = .opened → fails .awbegin 6 s) ∧
    (s.status.aw = .opened → s.status.ctabV = false → fails .awrec 3 s) ∧
    (s.status.aw = .opened → s.status.ar = .idle → fails .arbegin 6 s) ∧
    (s.status.ar = .idle → fails .arrec 7 s ∧ fails .arend 7 s ∧ fails .extract 7 s) ∧
    (s.status.ar = .opened → fails .arbegin 8 s) ∧
    (s.status.ar = .opened → s.status.aw = .idle → fails .awbegin 8 s) ∧
    (s.status.ar = .opened → s.recRemain = 0 → fails .arrec 9 s ∧ fails .extract 9 s) ∧
    (s.status.ar = .opened → s.recRemain ≠ 0 → fails .arend 10 s)

/-- 10_state.md R22, 60_exceptions.md R252: a length register above its buffer's capacity makes the next command that reads it end in CAPACITY
with that register's number. 42_archive.md R193: a name or a payload of the container that its buffer cannot hold makes ARREC and EXTRACT end in
CAPACITY(4) or CAPACITY(5). 40_huffman.md R110: BUILD over counts that are all 0 ends in EMPTY_INPUT(0). -/
def Obligations.CapacityAndEmptyInputErrors : Prop :=
  let fails : Instr → Nat → State → Prop := fun i r s =>
    exec i s = .next (errorCompletion (destinations i) { code := .capacity, info := r } s)
  ∀ s : State,
    (s.params.inCap.toNat < s.inLen.toNat →
      fails .freq 3 s ∧ fails .compress 3 s ∧ (s.status.ctabV = true → fails .encode 3 s)) ∧
    (s.params.payCap.toNat < s.payLen.toNat → s.status.dtabV = true → fails .decode 5 s) ∧
    (s.status.aw = .opened → s.status.ctabV = true → s.params.nameCap.toNat < s.nameLen.toNat → fails .awrec 4 s) ∧
    (s.status.aw = .opened → s.status.ctabV = true → s.nameLen.toNat ≤ s.params.nameCap.toNat →
      s.params.payCap.toNat < s.payLen.toNat → fails .awrec 5 s) ∧
    (s.status.ar = .idle → s.status.aw = .idle → s.params.arcCap.toNat < s.arcLen.toNat → fails .arbegin 7 s) ∧
    (∀ i, i = .arrec ∨ i = .extract → s.status.ar = .opened → s.recRemain ≠ 0 →
      (∀ nl, s.params.nameCap.toNat < nl → nl < 2 ^ 64 → Cells.holds s.arcbuf s.arcCur.toNat (toLE64 nl) →
        s.arcCur.toNat + 8 + nl ≤ s.arcLen.toNat → fails i 4 s) ∧
      (∀ (name : List Byte) (pl : Nat), name.length ≤ s.params.nameCap.toNat → s.params.payCap.toNat < pl → pl < 2 ^ 64 →
        Cells.holds s.arcbuf s.arcCur.toNat (toLE64 name.length ++ name ++ toLE64 pl) →
        s.arcCur.toNat + 16 + name.length + pl ≤ s.arcLen.toNat → fails i 5 s)) ∧
    (s.status.freqV = true → (∀ sym, sym < 256 → Cells.get s.freq sym = some 0) →
      exec .build s = .next (errorCompletion (destinations .build) { code := .emptyInput, info := 0 } s))

/-! ### The HOST's port -/

/-- 10_state.md R26, 60_exceptions.md R251: STATUS reads each field at its bits, ERRCODE and the sessions as the numbers of their tables, and
every reserved bit as 0. -/
def Obligations.StatusWordLayout : Prop :=
  ∀ t : Status,
    let w := Status.toWord t
    w.getLsbD 0 = t.busy ∧ w.getLsbD 1 = t.done ∧ w.getLsbD 2 = t.err ∧
    w.extractLsb' 3 5 = 0 ∧
    (w.extractLsb' 8 4).toNat = (match t.errcode with
      | .noError => 0 | .emptyInput => 1 | .missingCode => 2 | .truncatedPayload => 3 | .archiveFormat => 4 | .capacity => 5
      | .illegalCommand => 6 | .sequenceError => 7) ∧
    w.extractLsb' 12 4 = 0 ∧
    (w.extractLsb' 16 2).toNat = (match t.aw with | .idle => 0 | .opened => 1) ∧
    (w.extractLsb' 18 2).toNat = (match t.ar with | .idle => 0 | .opened => 1) ∧
    w.extractLsb' 20 4 = 0 ∧
    w.getLsbD 24 = t.freqV ∧ w.getLsbD 25 = t.treeV ∧ w.getLsbD 26 = t.ctabV ∧ w.getLsbD 27 = t.dtabV ∧
    w.extractLsb' 28 4 = 0 ∧ w.extractLsb' 32 8 = t.lastOpc ∧ w.extractLsb' 40 24 = 0

/-- 10_state.md R21, R22, R23, R35: what a host read of each register returns; CMD and the reserved registers read 0. -/
def Obligations.RegisterReads : Prop :=
  ∀ s : State, s.status.busy = false →
    let reads : Nat → Word → Prop := fun r v => hostAccess (.read (hostAddr 0 r)) s = { s with observed := s.observed ++ [v] }
    reads 0 0x0000000741434648 ∧ reads 1 0 ∧ reads 2 (Status.toWord s.status) ∧ reads 3 s.inLen ∧ reads 4 s.nameLen ∧
    reads 5 s.payLen ∧ reads 6 s.outLen ∧ reads 7 s.arcLen ∧ reads 8 s.distinct ∧ reads 9 s.nodeCount ∧ reads 10 s.root ∧
    reads 11 s.codeCount ∧ reads 12 s.recCount ∧ reads 13 s.recRemain ∧ reads 14 s.arcCur ∧ reads 15 s.errInfo ∧
    reads 16 s.params.inCap ∧ reads 17 s.params.nameCap ∧ reads 18 s.params.payCap ∧ reads 19 s.params.outCap ∧
    reads 20 s.params.arcCap ∧ (∀ r, 21 ≤ r → r < 2 ^ 56 → reads r 0)

/-- 10_state.md R22, 20_memory.md R67: a host write to an RW register stores all 64 bits, ARC_LEN only while no session is open; a write to any
other register but CMD is ignored. -/
def Obligations.RegisterWrites : Prop :=
  ∀ (s : State) (d : Word), s.status.busy = false →
    let writes : Nat → State → Prop := fun r t => hostAccess (.write (hostAddr 0 r) d) s = t
    writes 3 { s with inLen := d } ∧ writes 4 { s with nameLen := d } ∧ writes 5 { s with payLen := d } ∧
    (s.status.aw = .idle → s.status.ar = .idle → writes 7 { s with arcLen := d }) ∧
    (s.status.aw = .opened ∨ s.status.ar = .opened → writes 7 s) ∧
    (∀ r, r < 2 ^ 56 → r ≠ 1 → r ≠ 3 → r ≠ 4 → r ≠ 5 → r ≠ 7 → writes r s)

/-- 20_memory.md R61, R64: a host write to a cell of INBUF, NAMEBUF, PAYBUF or ARCBUF stores the low bits of the data, leaves every other cell as it
was, and the cell then reads as what was stored. -/
def Obligations.BufferWriteThenRead : Prop :=
  ∀ (s : State) (i : Nat) (d : Word), s.status.busy = false → Params.wf s.params = true →
    (i < s.params.inCap.toNat → ∃ t, hostAccess (.write (hostAddr 0x01 i) d) s = t ∧ t = { s with inbuf := t.inbuf } ∧
      hostRead t (hostAddr 0x01 i) = some ((d.setWidth 8).setWidth 64) ∧
      ∀ j, j ≠ i → Cells.get t.inbuf j = Cells.get s.inbuf j) ∧
    (i < s.params.nameCap.toNat → ∃ t, hostAccess (.write (hostAddr 0x02 i) d) s = t ∧ t = { s with namebuf := t.namebuf } ∧
      hostRead t (hostAddr 0x02 i) = some ((d.setWidth 8).setWidth 64) ∧
      ∀ j, j ≠ i → Cells.get t.namebuf j = Cells.get s.namebuf j) ∧
    (i < s.params.payCap.toNat → ∃ t, hostAccess (.write (hostAddr 0x03 i) d) s = t ∧ t = { s with paybuf := t.paybuf } ∧
      hostRead t (hostAddr 0x03 i) = some (if d.getLsbD 0 then 1 else 0) ∧
      ∀ j, j ≠ i → Cells.get t.paybuf j = Cells.get s.paybuf j) ∧
    (i < s.params.arcCap.toNat → s.status.aw = .idle → s.status.ar = .idle →
      ∃ t, hostAccess (.write (hostAddr 0x05 i) d) s = t ∧ t = { s with arcbuf := t.arcbuf } ∧
      hostRead t (hostAddr 0x05 i) = some ((d.setWidth 8).setWidth 64) ∧
      ∀ j, j ≠ i → Cells.get t.arcbuf j = Cells.get s.arcbuf j)

/-- 20_memory.md R66: an index out of range and a reserved space read 0 and ignore writes, with no fault. -/
def Obligations.OutOfRangeAccessesAreDefined : Prop :=
  ∀ (s : State) (sp i : Nat) (d : Word), s.status.busy = false → sp < 256 → i < 2 ^ 56 →
    (sp = 0x00 ∧ 32 ≤ i ∨ sp = 0x01 ∧ s.params.inCap.toNat ≤ i ∨ sp = 0x02 ∧ s.params.nameCap.toNat ≤ i ∨
      sp = 0x03 ∧ s.params.payCap.toNat ≤ i ∨ sp = 0x04 ∧ s.params.outCap.toNat ≤ i ∨ sp = 0x05 ∧ s.params.arcCap.toNat ≤ i ∨
      sp = 0x06 ∧ 256 ≤ i ∨ sp = 0x07 ∧ 256 ≤ i ∨ sp = 0x08 ∧ (65536 ≤ i ∨ i % 256 = 255) ∨ sp = 0x09 ∧ 511 * 4 ≤ i ∨ 0x0A ≤ sp) →
    hostAccess (.read (hostAddr sp i)) s = { s with observed := s.observed ++ [0] } ∧
    hostAccess (.write (hostAddr sp i) d) s = s

/-- 20_memory.md R67: while a session is open, host writes to ARCBUF and to ARC_LEN are ignored. -/
def Obligations.ContainerLockedDuringSession : Prop :=
  ∀ (s : State) (i : Nat) (d : Word), s.status.busy = false → (s.status.aw = .opened ∨ s.status.ar = .opened) → i < 2 ^ 56 →
    hostAccess (.write (hostAddr 0x05 i) d) s = s ∧ hostAccess (.write (hostAddr 0x00 7) d) s = s

/-- 20_memory.md R65: the four fields of a written node slot; a leaf reads 0 as its children and an internal node 0 as its symbol. -/
def Obligations.NodeWindowFields : Prop :=
  ∀ (s : State) (i : Nat), i < 511 →
    (∀ w sym, Cells.get s.nodes i = some (.leaf w sym) →
      hostRead s (hostAddr 0x09 (i * 4)) = some w ∧ hostRead s (hostAddr 0x09 (i * 4 + 1)) = some (0x100 + sym.setWidth 64) ∧
      hostRead s (hostAddr 0x09 (i * 4 + 2)) = some 0 ∧ hostRead s (hostAddr 0x09 (i * 4 + 3)) = some 0) ∧
    (∀ w l r, Cells.get s.nodes i = some (.inner w l r) →
      hostRead s (hostAddr 0x09 (i * 4)) = some w ∧ hostRead s (hostAddr 0x09 (i * 4 + 1)) = some 0 ∧
      hostRead s (hostAddr 0x09 (i * 4 + 2)) = some (l.setWidth 64) ∧ hostRead s (hostAddr 0x09 (i * 4 + 3)) = some (r.setWidth 64))

/-- 20_memory.md R61: the read-only windows FREQ, CLEN and CBIT return their cells and ignore writes; so does OUTBUF. -/
def Obligations.ReadOnlyWindows : Prop :=
  ∀ (s : State) (i : Nat) (d : Word), s.status.busy = false → i < 2 ^ 56 →
    (∀ sp ∈ [0x04, 0x06, 0x07, 0x08, 0x09], hostAccess (.write (hostAddr sp i) d) s = s) ∧
    (∀ y, i < s.params.outCap.toNat → Cells.get s.outbuf i = some y → hostRead s (hostAddr 0x04 i) = some (y.setWidth 64)) ∧
    (∀ w, i < 256 → Cells.get s.freq i = some w → hostRead s (hostAddr 0x06 i) = some w) ∧
    (∀ y, i < 256 → Cells.get s.clen i = some y → hostRead s (hostAddr 0x07 i) = some (y.setWidth 64)) ∧
    (∀ sym j b, i = sym * 256 + j → sym < 256 → j < 255 → Cells.get s.cbit i = some b →
      hostRead s (hostAddr 0x08 i) = some (if b then 1 else 0))

/-- 20_memory.md R61, R63, 00_scope.md R13: in each window a host read of a written cell returns it and changes nothing of the block, and a
host read of an unwritten cell returns some value, records UnwrittenRead, and changes nothing else of the block (the value is free, and may be
any 64-bit word: DESIGN CHOICE, log 3). 30_encoding.md
R87: `expect` is such a read, and records besides whether the value read equals the value expected (that its move stands in a list and the
HOST's record in the state is the model's: DESIGN CHOICE, logs 6 and 9). -/
def Obligations.HostReadsChangeNoState : Prop :=
  ∀ s : State, s.status.busy = false →
    let reads : Nat → Nat → Word → Prop := fun sp i v =>
      hostAccess (.read (hostAddr sp i)) s = { s with observed := s.observed ++ [v] }
    let unwritten : Nat → Nat → Prop := fun sp i => ∃ v, hostAccess (.read (hostAddr sp i)) s =
      { s with observed := s.observed ++ [v], draws := s.draws + 1, faults := { s.faults with unwrittenRead := true } }
    let byteWindow : Nat → Nat → Cells Byte → Prop := fun sp size c => ∀ i, i < size → i < 2 ^ 56 →
      (∀ y, Cells.get c i = some y → reads sp i (y.setWidth 64)) ∧ (Cells.get c i = none → unwritten sp i)
    byteWindow 0x01 s.params.inCap.toNat s.inbuf ∧ byteWindow 0x02 s.params.nameCap.toNat s.namebuf ∧
    byteWindow 0x04 s.params.outCap.toNat s.outbuf ∧ byteWindow 0x05 s.params.arcCap.toNat s.arcbuf ∧ byteWindow 0x07 256 s.clen ∧
    (∀ i, i < s.params.payCap.toNat → i < 2 ^ 56 →
      (∀ b, Cells.get s.paybuf i = some b → reads 0x03 i (if b then 1 else 0)) ∧ (Cells.get s.paybuf i = none → unwritten 0x03 i)) ∧
    (∀ i, i < 256 → (∀ w, Cells.get s.freq i = some w → reads 0x06 i w) ∧ (Cells.get s.freq i = none → unwritten 0x06 i)) ∧
    (∀ sym j, sym < 256 → j < 255 →
      (∀ b, Cells.get s.cbit (sym * 256 + j) = some b → reads 0x08 (sym * 256 + j) (if b then 1 else 0)) ∧
      (Cells.get s.cbit (sym * 256 + j) = none → unwritten 0x08 (sym * 256 + j))) ∧
    (∀ i f, i < 511 → f < 4 →
      (∀ v, hostRead s (hostAddr 0x09 (i * 4 + f)) = some v → reads 0x09 (i * 4 + f) v) ∧
      (Cells.get s.nodes i = none → unwritten 0x09 (i * 4 + f))) ∧
    (∀ (a v : Word) (rest : List Move), s.inputs = .expect a v :: rest →
      (∀ w, hostRead s a = some w →
        step s = .next { s with inputs := rest, observed := s.observed ++ [w], checks := s.checks ++ [decide (w = v)] }) ∧
      (hostRead s a = none → ∃ w, step s =
        .next { s with inputs := rest, observed := s.observed ++ [w], checks := s.checks ++ [decide (w = v)], draws := s.draws + 1,
                       faults := { s.faults with unwrittenRead := true } }))

/-- 10_state.md R27, 70_reset_and_hazards.md R300, R301: while BUSY = 1, reads of STATUS, ID and r16 to r20 return the register and change nothing; a write
of CMD records CmdWhileBusy and changes nothing of the block, PENDING among it; any other access records HostBusyAccess: a read returns some
value, and a write reaches its element or is lost, which nothing settles (the free values, that there is no third outcome of a write, and that
the command in flight then runs as its rule says, are the model's: DESIGN CHOICE, log 5). 60_exceptions.md R260, R308: whatever is on record, the
next step gives a next state (in every state with a command known while BUSY = 1), and with a fault on record no state after it is final.
30_encoding.md R87: `expect` is a read, of the one kind or of the other, and records besides whether the value read equals the value expected
(that its move stands in a list and the HOST's record in the state is the model's: DESIGN CHOICE, logs 6 and 9). That a forbidden read of an
unwritten cell records HostBusyAccess alone, and not UnwrittenRead beside it, is the model's choice (DESIGN CHOICE, log 5). -/
def Obligations.AccessesWhileBusy : Prop :=
  (∀ (s : State) (r : Nat), s.status.busy = true → (r = 0 ∨ r = 2 ∨ 16 ≤ r ∧ r ≤ 20) →
    hostAccess (.read (hostAddr 0 r)) s = { s with observed := s.observed ++ [regRead s r] } ∧
    regRead s 2 = Status.toWord s.status ∧ regRead s 0 = 0x0000000741434648 ∧ regRead s 16 = s.params.inCap ∧
    regRead s 17 = s.params.nameCap ∧ regRead s 18 = s.params.payCap ∧ regRead s 19 = s.params.outCap ∧ regRead s 20 = s.params.arcCap) ∧
  (∀ (s : State) (op : HostOp) (rest : List Move), s.status.busy = true → s.inputs = .host op :: rest →
    (∀ a d, op = .write a d → a = hostAddr 0 1 →
      step s = .next { s with inputs := rest, faults := { s.faults with cmdWhileBusy := true } }) ∧
    (∀ a d, op = .write a d → a ≠ hostAddr 0 1 →
      (step s = .next { s with inputs := rest, draws := s.draws + 1, faults := { s.faults with hostBusyAccess := true } } ∨
        step s = .next { (hostWrite a d { s with inputs := rest }) with
          draws := s.draws + 1, faults := { s.faults with hostBusyAccess := true } }) ∧
      (hostWrite a d s).pending = s.pending ∧ (hostWrite a d s).status = s.status) ∧
    (∀ a, op = .read a → (∀ r, (r = 0 ∨ r = 2 ∨ 16 ≤ r ∧ r ≤ 20) → a ≠ hostAddr 0 r) →
      ∃ v, step s = .next { s with inputs := rest, observed := s.observed ++ [v], draws := s.draws + 1,
                                   faults := { s.faults with hostBusyAccess := true } })) ∧
  (∀ (s : State) (a v : Word) (rest : List Move), s.status.busy = true → s.inputs = .expect a v :: rest →
    (∀ r, (r = 0 ∨ r = 2 ∨ 16 ≤ r ∧ r ≤ 20) → a = hostAddr 0 r →
      step s = .next { s with inputs := rest, observed := s.observed ++ [regRead s r], checks := s.checks ++ [decide (regRead s r = v)] }) ∧
    ((∀ r, (r = 0 ∨ r = 2 ∨ 16 ≤ r ∧ r ≤ 20) → a ≠ hostAddr 0 r) →
      ∃ w, step s = .next { s with inputs := rest, observed := s.observed ++ [w], checks := s.checks ++ [decide (w = v)], draws := s.draws + 1,
                                   faults := { s.faults with hostBusyAccess := true } })) ∧
  (∀ (s : State), (s.status.busy = true → s.pending.isSome = true) →
    ∃ t, step s = .next t ∧ (¬ s.clean → ¬ t.clean ∧ ¬ t.final))

/-! ### Control commands and reset -/

/-- 43_control.md R230: NOP, the command value 0, changes STATUS and nothing else; as the HOST runs it, its issue clears ERR, ERRCODE and
ERR_INFO, it aborts no session, and every buffer, table and other register stays. -/
def Obligations.NopChangesOnlyStatus : Prop :=
  encode .nop = 0x0000000000000000 ∧
  ∀ s : State, exec .nop s = .next { s with status := { s.status with done := true, busy := false } } ∧
    runCmd .nop s = .next { s with
      pending := some 0, errInfo := 0,
      status := { s.status with busy := false, done := true, err := false, errcode := .noError, lastOpc := 0x00 } }

/-- 43_control.md R231, 70_reset_and_hazards.md R290, R291: RESET gives every register, buffer and table its reset value, PENDING none, and STATUS
LAST_OPC = 1 and DONE = 1; the fault record stays. -/
def Obligations.ResetCommandState : Prop :=
  encode .reset = 0x0000000000000001 ∧
  ∀ s : State, ∃ t, exec .reset s = .next t ∧ Status.toWord t.status = 0x0000000100000002 ∧
    t = { State.resetWith s.params with
          status := { Status.reset with done := true, lastOpc := 0x01 },
          faults := s.faults, inputs := s.inputs, observed := s.observed, checks := s.checks, draws := s.draws }

/-- 43_control.md R232, R233: ABORT closes whichever session is open; a write session takes ARCBUF, ARC_LEN and REC_COUNT with it, a read session
REC_COUNT, REC_REMAIN and ARC_CUR. -/
def Obligations.AbortClosesSessions : Prop :=
  encode .abort = 0x0000000000000002 ∧
  ∀ s : State, exec .abort s = .next { s with
    arcbuf := if s.status.aw = .opened then [] else s.arcbuf,
    arcLen := if s.status.aw = .opened then 0 else s.arcLen,
    recCount := if s.status.aw = .opened ∨ s.status.ar = .opened then 0 else s.recCount,
    recRemain := if s.status.ar = .opened then 0 else s.recRemain,
    arcCur := if s.status.ar = .opened then 0 else s.arcCur,
    status := { s.status with aw := .idle, ar := .idle, done := true, busy := false } }

/-- 70_reset_and_hazards.md R292, R290, R291: the reset input acts at once in any state, with a command pending or not, and after a hazard too: every
register, buffer and table takes its reset value and PENDING is none. That the fault record stays is the model's choice between R45 and
R291 (log 10). -/
def Obligations.HardResetInAnyState : Prop :=
  ∀ (s : State) (rest : List Move), s.inputs = .hardReset :: rest →
    step s = .next { State.resetWith s.params with
      faults := s.faults, inputs := rest, observed := s.observed, checks := s.checks, draws := s.draws }

/-- 70_reset_and_hazards.md R291: the state after a hardware reset at the start of a run: STATUS and the registers read 0, ID and the capacities
their constants, every cell of every window is unwritten. -/
def Obligations.ResetState : Prop :=
  ∀ p : Params, let s := State.resetWith p
    hostRead s (hostAddr 0 0) = some 0x0000000741434648 ∧ (∀ r, 1 ≤ r → r ≤ 15 → hostRead s (hostAddr 0 r) = some 0) ∧
    hostRead s (hostAddr 0 16) = some p.inCap ∧ hostRead s (hostAddr 0 17) = some p.nameCap ∧
    hostRead s (hostAddr 0 18) = some p.payCap ∧ hostRead s (hostAddr 0 19) = some p.outCap ∧
    hostRead s (hostAddr 0 20) = some p.arcCap ∧ s.pending = none ∧
    (∀ i, Cells.get s.inbuf i = none ∧ Cells.get s.namebuf i = none ∧ Cells.get s.paybuf i = none ∧ Cells.get s.outbuf i = none ∧
      Cells.get s.arcbuf i = none ∧ Cells.get s.freq i = none ∧ Cells.get s.nodes i = none ∧ Cells.get s.clen i = none ∧
      Cells.get s.cbit i = none) ∧
    (∀ c, dtabGet s.dtab c = none) ∧ s.clean

/-! ### Frequency counting, tree building, code assignment -/

/-- 40_huffman.md R100, R101: FREQ counts every byte value of INBUF[0..IN_LEN) and changes nothing else; the counts sum to IN_LEN, and a symbol
occurs exactly when its count is at least 1. -/
def Obligations.FreqCountsEveryByte : Prop :=
  ∀ (s : State) (bs : List Byte), InputIs s bs →
    ∃ t, exec .freq s = .next t ∧
      t = { s with freq := t.freq, distinct := word (presentIn bs).length,
                   status := { s.status with done := true, busy := false, freqV := true } } ∧
      (∀ sym, sym < 256 → Cells.get t.freq sym = some (word (occurrences sym bs))) ∧
      (∀ i, 256 ≤ i → Cells.get t.freq i = none) ∧
      (symbols.map (freqCount t)).sum = s.inLen.toNat ∧
      (∀ sym : Byte, sym ∈ bs ↔ 1 ≤ freqCount t sym.toNat)

/-- 00_scope.md R13, 60_exceptions.md R260: FREQ over an unwritten cell below IN_LEN records UnwrittenRead. It completes with a free value for the
cell (log 3). -/
def Obligations.FreqRecordsUnwrittenRead : Prop :=
  ∀ (s : State) (j : Nat), s.inLen.toNat ≤ s.params.inCap.toNat → j < s.inLen.toNat → Cells.get s.inbuf j = none →
    ∃ t, exec .freq s = .next t ∧ t.faults.unwrittenRead = true ∧ t.status.freqV = true ∧ ¬ t.final

/-- 40_huffman.md R111: PQmin answers the member of the collection with the smallest key, weight first, then id. -/
def Obligations.PqMinIsTheSmallestKey : Prop :=
  ∀ (k : PQKey) (ks : List PQKey), pqMin k ks ∈ k :: ks ∧
    ∀ x ∈ k :: ks, (pqMin k ks).1 < x.1 ∨ ((pqMin k ks).1 = x.1 ∧ (pqMin k ks).2 ≤ x.2)

/-- 40_huffman.md R110 to R113: after BUILD over n present symbols NODES holds exactly 2n-1 nodes, a tree at ROOT: slots 0 to n-1 are the leaves, one
for each present symbol in ascending order with its count, the rest internal nodes; every other id is the child of exactly one internal node;
where the counts' sum fits 64 bits, as R113 shows of every run, each node weighs what the leaves below it count, and the merging is greedy: each
internal node has as left child the least, weight first and then id, of the nodes made before it that were no child yet, and as right child
the least of the others. -/
def Obligations.BuildMakesTheCodeTree : Prop :=
  ∀ s : State, s.status.freqV = true → (∀ sym, sym < 256 → (Cells.get s.freq sym).isSome = true) → presentSymbols s ≠ [] →
    let n := (presentSymbols s).length
    ∃ t tree, exec .build s = .next t ∧
      t = { s with nodes := t.nodes, nodeCount := word (2 * n - 1), root := if n = 1 then 0 else word (2 * n - 2),
                   status := { s.status with done := true, busy := false, treeV := true } } ∧
      (∀ i, (h : i < n) → Cells.get t.nodes i =
        some (.leaf (word (freqCount s (presentSymbols s)[i])) (byte (presentSymbols s)[i]))) ∧
      (∀ i, n ≤ i → i < 2 * n - 1 → ∃ w a b, Cells.get t.nodes i = some (.inner w a b)) ∧
      (∀ i, 2 * n - 1 ≤ i → Cells.get t.nodes i = none) ∧
      Represents t.nodes t.root.toNat tree ∧
      (CodeTree.leaves tree).Perm ((presentSymbols s).map fun sym => (byte sym, word (freqCount s sym))) ∧
      (childIds (t.nodes.map Prod.snd)).Nodup ∧
      (∀ i, i ∈ childIds (t.nodes.map Prod.snd) ↔ i < 2 * n - 1 ∧ i ≠ t.root.toNat) ∧
      ((symbols.map (freqCount s)).sum < 2 ^ 64 →
        CodeTree.summed tree ∧ (CodeTree.weight tree).toNat = (symbols.map (freqCount s)).sum ∧
        ∀ m, n ≤ m → m < 2 * n - 1 → MergesTheTwoLeast t.nodes m)

/-- 93_implementation_defined.md I1, 40_huffman.md R111: whatever admissible tie-break is taken, the merge loop makes a tree whose leaves are the
leaves it was given, each once, in 2n-1 nodes. -/
def Obligations.AnyTieBreakMakesATree : Prop :=
  ∀ (pick : Pick), AdmissiblePick pick → ∀ (ws : List Word), ws.length ≤ 256 → leavesFrom 0 ws ≠ [] →
    let n := (leavesFrom 0 ws).length
    let r := buildTree pick (leavesFrom 0 ws)
    ∃ tree, r.1.length = 2 * n - 1 ∧ Represents (cellsFrom 0 r.1) r.2 tree ∧
      (CodeTree.leaves tree).Perm
        ((leavesFrom 0 ws).filterMap fun nd => match nd with | .leaf w sym => some (sym, w) | .inner _ _ _ => none) ∧
      (CodeTree.syms tree).Nodup

/-- 40_huffman.md R123, for every tree and so for every tie-break: the codes of a tree with distinct symbols are not empty, no code is a prefix of
another, none is longer than 255 bits, and each leaf has exactly one. -/
def Obligations.TreeCodesArePrefixFree : Prop :=
  ∀ tree : CodeTree, (CodeTree.syms tree).Nodup →
    let ct := CodeTree.codes tree
    ct.map Prod.fst = CodeTree.syms tree ∧ TableLegal ct ∧ PrefixFree (tableOf ct)

/-- 40_huffman.md R120, R121, R122: CODEGEN over a tree with distinct symbols writes the code of each leaf, its path from the root, or "0" for a
single leaf, no code for every other symbol, the number of codes, and nothing else. -/
def Obligations.CodegenWritesThePaths : Prop :=
  ∀ (s : State) (tree : CodeTree), s.status.treeV = true → Represents s.nodes s.root.toNat tree → (CodeTree.syms tree).Nodup →
    ∃ t, exec .codegen s = .next t ∧
      t = { s with clen := t.clen, cbit := t.cbit, codeCount := word (CodeTree.syms tree).length,
                   status := { s.status with done := true, busy := false, ctabV := true } } ∧
      CtabIs t (tableOf (CodeTree.codes tree)) ∧
      (∀ sym j, sym < 256 → (tableOf (CodeTree.codes tree) (byte sym)).length ≤ j → j < 256 →
        Cells.get t.cbit (sym * 256 + j) = none)

/-! ### Encoding and decoding -/

/-- 41_bitstream.md R140, R141: ENCODE writes the concatenation of the input bytes' codes, in input order, to PAYBUF, its length to PAY_LEN, and
nothing else. -/
def Obligations.EncodeConcatenatesCodes : Prop :=
  ∀ (s : State) (f : Byte → Code) (bs : List Byte), s.status.ctabV = true → CtabIs s f → InputIs s bs → (∀ b ∈ bs, f b ≠ []) →
    (bs.flatMap f).length ≤ s.params.payCap.toNat →
    ∃ t, exec .encode s = .next t ∧
      t = { s with paybuf := t.paybuf, payLen := word (bs.map fun b => (f b).length).sum,
                   status := { s.status with done := true, busy := false } } ∧
      Cells.exactly t.paybuf (bs.flatMap f)

/-- 41_bitstream.md R140: the first input byte without a code, where the codes before it fit, makes ENCODE end in MISSING_CODE with its index; the first
code that does not fit makes it end in CAPACITY(5). -/
def Obligations.EncodeErrors : Prop :=
  ∀ (s : State) (f : Byte → Code) (pre post : List Byte) (b : Byte), s.status.ctabV = true → CtabIs s f → InputIs s (pre ++ b :: post) →
    (∀ x ∈ pre, f x ≠ []) → (pre.flatMap f).length ≤ s.params.payCap.toNat →
    (f b = [] → exec .encode s =
      .next (errorCompletion (destinations .encode) { code := .missingCode, info := pre.length } s)) ∧
    (f b ≠ [] → s.params.payCap.toNat < (pre.flatMap f).length + (f b).length →
      exec .encode s = .next (errorCompletion (destinations .encode) { code := .capacity, info := 5 } s))

/-- 41_bitstream.md R150: COMPRESS of an input that is not empty gives what FREQ, BUILD, CODEGEN and ENCODE give in turn, with no MISSING_CODE; where the
payload does not fit, it ends in CAPACITY(5) instead. -/
def Obligations.CompressIsTheChain : Prop :=
  ∀ (s : State) (bs : List Byte), InputIs s bs → bs ≠ [] →
    ∃ t1 t2 t3 f, exec .freq s = .next t1 ∧ exec .build t1 = .next t2 ∧ exec .codegen t2 = .next t3 ∧ CtabIs t3 f ∧
      PrefixFree f ∧ (∀ b, f b ≠ [] ↔ b ∈ bs) ∧
      ((bs.flatMap f).length ≤ s.params.payCap.toNat →
        ∃ t, exec .encode t3 = .next t ∧ exec .compress s = .next t ∧ t.status.err = s.status.err ∧ PayloadIs t (bs.flatMap f)) ∧
      (s.params.payCap.toNat < (bs.flatMap f).length →
        exec .compress s = .next (errorCompletion (destinations .compress) { code := .capacity, info := 5 } s))

/-- 41_bitstream.md R151: COMPRESS of an empty input succeeds with no tree, an empty code table and an empty payload. -/
def Obligations.CompressOfEmptyInput : Prop :=
  ∀ s : State, s.inLen = 0 →
    ∃ t, exec .compress s = .next t ∧
      t = { s with freq := t.freq, distinct := 0, nodes := [], nodeCount := 0, root := 0, clen := t.clen, cbit := [],
                   codeCount := 0, paybuf := [], payLen := 0,
                   status := { s.status with done := true, busy := false, freqV := true, treeV := false, ctabV := true } } ∧
      CtabIs t (fun _ => []) ∧ (∀ sym, sym < 256 → Cells.get t.freq sym = some 0)

/-- 41_bitstream.md R160, R161: DINV over a table of distinct codes makes DTAB its inverse and changes nothing else; two symbols that share a
code make it end in ARCHIVE_FORMAT with the larger of the first such pair. -/
def Obligations.DinvInvertsTheCodeTable : Prop :=
  ∀ (s : State) (f : Byte → Code), s.status.ctabV = true → CtabIs s f →
    (CodesDiffer f → ∃ t, exec .dinv s = .next t ∧
      t = { s with dtab := t.dtab, status := { s.status with done := true, busy := false, dtabV := true } } ∧ DtabIs t f) ∧
    (∀ y : Byte, f y ≠ [] → (∃ x : Byte, x.toNat < y.toNat ∧ f x = f y) →
      (∀ x z : Byte, x.toNat < z.toNat → z.toNat < y.toNat → f z ≠ [] → f x ≠ f z) →
      exec .dinv s = .next (errorCompletion (destinations .dinv) { code := .archiveFormat, info := y.toNat } s))

/-- 41_bitstream.md R170, R173: DECODE over any decode table, prefix-free or not, of a payload that its greedy first match takes as the codes of
some bytes (over a prefix-free table: the codes of any bytes) gives the bytes in order, with their number, and changes nothing else. -/
def Obligations.DecodeGivesTheBytes : Prop :=
  (∀ (f : Byte → Code) (bs : List Byte), PrefixFree f → (∀ b ∈ bs, f b ≠ []) → FirstMatch f bs) ∧
  ∀ (s : State) (f : Byte → Code) (bs : List Byte), s.status.dtabV = true → DtabIs s f → FirstMatch f bs →
    PayloadIs s (bs.flatMap f) → bs.length ≤ s.params.outCap.toNat →
    ∃ t, exec .decode s = .next t ∧
      t = { s with outbuf := t.outbuf, outLen := word bs.length, status := { s.status with done := true, busy := false } } ∧
      Cells.exactly t.outbuf bs

/-- 41_bitstream.md R170, R173: over any decode table, prefix-free or not, a payload that greedy first match takes as the codes of some bytes
and then bits that no code begins ends in TRUNCATED_PAYLOAD with the index of the first of those bits; one byte too many for OUTBUF ends in
CAPACITY(6). 42_archive.md R201: EXTRACT of a record with such a payload ends in the same errors. -/
def Obligations.DecodeErrors : Prop :=
  let truncated : Instr → Nat → State → Prop := fun i n s =>
    exec i s = .next (errorCompletion (destinations i) { code := .truncatedPayload, info := n } s)
  let full : Instr → State → Prop := fun i s => exec i s = .next (errorCompletion (destinations i) { code := .capacity, info := 6 } s)
  (∀ (s : State) (f : Byte → Code) (bs : List Byte) (rest : Code), s.status.dtabV = true → DtabIs s f → FirstMatch f bs →
    PayloadIs s (bs.flatMap f ++ rest) →
    (bs.length ≤ s.params.outCap.toNat → rest ≠ [] → (∀ b, f b ≠ [] → ¬ f b <+: rest) → truncated .decode (bs.flatMap f).length s) ∧
    (s.params.outCap.toNat < bs.length → full .decode s)) ∧
  (∀ (s : State) (name bs : List Byte) (ct : List (Byte × Code)) (rest : Code), s.status.ar = .opened → s.recRemain ≠ 0 →
    TableLegal ct → FirstMatch (tableOf ct) bs →
    let payload := bs.flatMap (tableOf ct) ++ rest
    name.length ≤ s.params.nameCap.toNat → payload.length ≤ s.params.payCap.toNat →
    Cells.holds s.arcbuf s.arcCur.toNat (containerRecord name payload ct) →
    s.arcCur.toNat + (containerRecord name payload ct).length ≤ s.arcLen.toNat →
    (bs.length ≤ s.params.outCap.toNat → rest ≠ [] → (∀ b, tableOf ct b ≠ [] → ¬ tableOf ct b <+: rest) →
      truncated .extract (bs.flatMap (tableOf ct)).length s) ∧
    (s.params.outCap.toNat < bs.length → full .extract s))

/-- 41_bitstream.md R172: the round trip. COMPRESS, DINV, DECODE, each issued by the HOST with nothing in between, over an input that INBUF
holds, be it empty or of one byte or of all: where COMPRESS completes without an error, so does DINV, and DECODE gives the input in
OUTBUF[0..OUT_LEN) where it fits OUTBUF and CAPACITY(6) where it does not. COMPRESS can end in no error but CAPACITY(5). -/
def Obligations.CompressDinvDecodeRoundTrip : Prop :=
  ∀ (s t1 : State) (bs : List Byte), InputIs s bs → runCmd .compress s = .next t1 →
    (t1.status.err = true → t1.status.errcode = .capacity ∧ t1.errInfo = 5) ∧
    (t1.status.err = false → ∃ t2 t3, runCmd .dinv t1 = .next t2 ∧ t2.status.err = false ∧ runCmd .decode t2 = .next t3 ∧
      (bs.length ≤ s.params.outCap.toNat → t3.status.err = false ∧ t3.outLen.toNat = bs.length ∧ Cells.exactly t3.outbuf bs) ∧
      (s.params.outCap.toNat < bs.length → t3.status.err = true ∧ t3.status.errcode = .capacity ∧ t3.errInfo = 6))

/-! ### The archive -/

/-- 00_scope.md R11, 20_memory.md R69: ToLE64 gives eight bytes, byte k being (v >> 8k) & 0xFF, and LE64 reads them back. 00_scope.md R12: Chr
gives 0x30 for the bit 0 and 0x31 for the bit 1, and Bit is its inverse, undefined for every other byte. -/
def Obligations.FieldBytesRoundTrip : Prop :=
  (∀ v : Nat, v < 2 ^ 64 → (toLE64 v).length = 8 ∧ (∀ k, k < 8 → (toLE64 v)[k]? = some (byte ((v >>> (8 * k)) &&& 0xFF))) ∧
    fromLE (toLE64 v) = v) ∧
  (bitChar false = 0x30 ∧ bitChar true = 0x31) ∧
  (charBit 0x30 = some false ∧ charBit 0x31 = some true ∧ ∀ y : Byte, y ≠ 0x30 → y ≠ 0x31 → charBit y = none)

/-- 42_archive.md R185: AWBEGIN opens a write session on a container of eight zero bytes. -/
def Obligations.AwbeginOpensAContainer : Prop :=
  ∀ s : State, s.status.aw = .idle → s.status.ar = .idle →
    ∃ t, exec .awbegin s = .next t ∧
      t = { s with arcbuf := t.arcbuf, arcLen := 8, recCount := 0,
                   status := { s.status with done := true, busy := false, aw := .opened } } ∧
      Cells.exactly t.arcbuf (List.replicate 8 0)

/-- 42_archive.md R186, R181, R182: AWREC appends the record of NAMEBUF, PAYBUF and CTAB at ARC_LEN, code entries in ascending symbol order, and changes
no other byte of ARCBUF. R183: the record's length. A record that does not fit ends in CAPACITY(7), before any byte is written. -/
def Obligations.AwrecAppendsTheRecord : Prop :=
  ∀ (s : State) (f : Byte → Code) (name : List Byte) (payload : Code), s.status.aw = .opened → s.status.ctabV = true → CtabIs s f →
    NameIs s name → PayloadIs s payload →
    let rec_ := containerRecord name payload (entriesOf f)
    rec_.length = 24 + name.length + payload.length + ((entriesOf f).map fun e => 9 + e.2.length).sum ∧
    (s.params.arcCap.toNat < s.arcLen.toNat + rec_.length →
      exec .awrec s = .next (errorCompletion (destinations .awrec) { code := .capacity, info := 7 } s)) ∧
    (s.arcLen.toNat + rec_.length ≤ s.params.arcCap.toNat → ∃ t, exec .awrec s = .next t ∧
      t = { s with arcbuf := t.arcbuf, arcLen := word (s.arcLen.toNat + rec_.length), recCount := s.recCount + 1,
                   status := { s.status with done := true, busy := false } } ∧
      Cells.holds t.arcbuf s.arcLen.toNat rec_ ∧
      (∀ j, j < s.arcLen.toNat ∨ s.arcLen.toNat + rec_.length ≤ j → Cells.get t.arcbuf j = Cells.get s.arcbuf j))

/-- 42_archive.md R188: AWEND writes REC_COUNT into the first eight bytes of the container, changes no other byte, and closes the session. -/
def Obligations.AwendWritesTheCount : Prop :=
  ∀ s : State, s.status.aw = .opened →
    ∃ t, exec .awend s = .next t ∧
      t = { s with arcbuf := t.arcbuf, status := { s.status with done := true, busy := false, aw := .idle } } ∧
      Cells.holds t.arcbuf 0 (toLE64 s.recCount.toNat) ∧ (∀ j, 8 ≤ j → Cells.get t.arcbuf j = Cells.get s.arcbuf j)

/-- 42_archive.md R190: ARBEGIN reads the count, any 64-bit value, and opens a read session at offset 8; a container shorter than its count field is
ARCHIVE_FORMAT(0). -/
def Obligations.ArbeginReadsTheCount : Prop :=
  ∀ (s : State) (c : Word), s.status.ar = .idle → s.status.aw = .idle → s.arcLen.toNat ≤ s.params.arcCap.toNat →
    (8 ≤ s.arcLen.toNat → Cells.holds s.arcbuf 0 (toLE64 c.toNat) →
      exec .arbegin s = .next { s with recCount := c, recRemain := c, arcCur := 8,
                                       status := { s.status with done := true, busy := false, ar := .opened } }) ∧
    (s.arcLen.toNat < 8 →
      exec .arbegin s = .next (errorCompletion (destinations .arbegin) { code := .archiveFormat, info := 0 } s))

/-- 42_archive.md R192, R193: ARREC on a record of the grammar of R180, in any entry order (R182), puts its name, payload and code table into NAMEBUF, PAYBUF
and CTAB, with no CBIT cell past a code written (10_state.md R42), makes DTAB the table's inverse, moves ARC_CUR past it, counts it off, and changes nothing else. -/
def Obligations.ArrecParsesARecord : Prop :=
  ∀ (s : State) (name : List Byte) (payload : Code) (ct : List (Byte × Code)), s.status.ar = .opened → s.recRemain ≠ 0 →
    TableLegal ct → name.length ≤ s.params.nameCap.toNat → payload.length ≤ s.params.payCap.toNat →
    Cells.holds s.arcbuf s.arcCur.toNat (containerRecord name payload ct) →
    s.arcCur.toNat + (containerRecord name payload ct).length ≤ s.arcLen.toNat →
    ∃ t, exec .arrec s = .next t ∧
      t = { s with namebuf := t.namebuf, nameLen := word name.length, paybuf := t.paybuf, payLen := word payload.length,
                   clen := t.clen, cbit := t.cbit, codeCount := word ct.length, dtab := t.dtab,
                   arcCur := word (s.arcCur.toNat + (containerRecord name payload ct).length), recRemain := s.recRemain - 1,
                   status := { s.status with done := true, busy := false, ctabV := true, dtabV := true } } ∧
      Cells.exactly t.namebuf name ∧ Cells.exactly t.paybuf payload ∧ CtabExactly t (tableOf ct) ∧ DtabIs t (tableOf ct)

/-- 42_archive.md R191, R202: a record cut anywhere before its end, its bytes before the cut being a legal record's, makes ARREC and EXTRACT end in
ARCHIVE_FORMAT, never in success. -/
def Obligations.CutRecordIsRefused : Prop :=
  ∀ (s : State) (name : List Byte) (payload : Code) (ct : List (Byte × Code)) (k : Nat), s.status.ar = .opened → s.recRemain ≠ 0 →
    TableLegal ct → name.length ≤ s.params.nameCap.toNat → payload.length ≤ s.params.payCap.toNat →
    k < (containerRecord name payload ct).length → s.arcLen.toNat = s.arcCur.toNat + k →
    Cells.holds s.arcbuf s.arcCur.toNat ((containerRecord name payload ct).take k) →
    ∃ off, off ≤ s.arcLen.toNat ∧
      exec .arrec s = .next (errorCompletion (destinations .arrec) { code := .archiveFormat, info := off } s) ∧
      exec .extract s = .next (errorCompletion (destinations .extract) { code := .archiveFormat, info := off } s)

/-- 42_archive.md R193, R196, R197, R191: the first malformed field of a record makes ARREC and EXTRACT end in ARCHIVE_FORMAT with the offset that
its rule gives: a length field or a symbol byte that passes the container's end (its own offset), a name, a payload or a code that passes it (the
offset of its length field), a payload or code character that is neither 0x30 nor 0x31, a codeCount above 256, a codeLen of 0 or above 255, a
symbol twice, a code twice. -/
def Obligations.BadBitCharacterIsRefused : Prop :=
  ∀ (i : Instr) (s : State), i = .arrec ∨ i = .extract → s.status.ar = .opened → s.recRemain ≠ 0 →
    let q := s.arcCur.toNat
    let stands : List Byte → Prop := fun bytes => Cells.holds s.arcbuf q bytes
    let fails : Nat → Prop := fun off => exec i s = .next (errorCompletion (destinations i) { code := .archiveFormat, info := off } s)
    (s.arcLen.toNat < q + 8 → fails q) ∧
    (∀ nl, nl < 2 ^ 64 → stands (toLE64 nl) → q + 8 ≤ s.arcLen.toNat → s.arcLen.toNat < q + 8 + nl → fails q) ∧
    ∀ name : List Byte, name.length ≤ s.params.nameCap.toNat →
      (stands (toLE64 name.length ++ name) → q + 8 + name.length ≤ s.arcLen.toNat → s.arcLen.toNat < q + 16 + name.length →
        fails (q + 8 + name.length)) ∧
      (∀ pl, pl < 2 ^ 64 → stands (toLE64 name.length ++ name ++ toLE64 pl) → q + 16 + name.length ≤ s.arcLen.toNat →
        s.arcLen.toNat < q + 16 + name.length + pl → fails (q + 8 + name.length)) ∧
      (∀ (pre : Code) (y : Byte) (pl : Nat), pre.length < pl → pl ≤ s.params.payCap.toNat → y ≠ 0x30 → y ≠ 0x31 →
        stands (toLE64 name.length ++ name ++ toLE64 pl ++ pre.map bitChar ++ [y]) → q + 16 + name.length + pl ≤ s.arcLen.toNat →
        fails (q + 16 + name.length + pre.length)) ∧
      ∀ payload : Code, payload.length ≤ s.params.payCap.toNat →
        let head := toLE64 name.length ++ name ++ toLE64 payload.length ++ payload.map bitChar
        (stands head → q + head.length ≤ s.arcLen.toNat → s.arcLen.toNat < q + head.length + 8 → fails (q + head.length)) ∧
        (∀ cc, 256 < cc → cc < 2 ^ 64 → stands (head ++ toLE64 cc) → q + head.length + 8 ≤ s.arcLen.toNat → fails (q + head.length)) ∧
        ∀ (ct : List (Byte × Code)) (cc : Nat), TableLegal ct → ct.length < cc → cc ≤ 256 →
          let body := head ++ toLE64 cc ++ ct.flatMap containerEntry
          let g := q + body.length
          (stands body → g ≤ s.arcLen.toNat → s.arcLen.toNat < g + 8 → fails g) ∧
          (∀ cl, cl = 0 ∨ 255 < cl → cl < 2 ^ 64 → stands (body ++ toLE64 cl) → g + 8 ≤ s.arcLen.toNat → fails g) ∧
          (∀ cl, 1 ≤ cl → cl ≤ 255 → stands (body ++ toLE64 cl) → g + 8 ≤ s.arcLen.toNat → s.arcLen.toNat < g + 8 + cl → fails g) ∧
          (∀ c : Code, 1 ≤ c.length → c.length ≤ 255 → stands (body ++ toLE64 c.length ++ c.map bitChar) →
            s.arcLen.toNat = g + 8 + c.length → fails (g + 8 + c.length)) ∧
          (∀ (pre : Code) (y : Byte) (cl : Nat), pre.length < cl → cl ≤ 255 → y ≠ 0x30 → y ≠ 0x31 →
            stands (body ++ toLE64 cl ++ pre.map bitChar ++ [y]) → g + 8 + cl ≤ s.arcLen.toNat → fails (g + 8 + pre.length)) ∧
          (∀ (sym : Byte) (c : Code), 1 ≤ c.length → c.length ≤ 255 → stands (body ++ containerEntry (sym, c)) →
            g + 9 + c.length ≤ s.arcLen.toNat →
            (sym ∈ ct.map Prod.fst → fails (g + 8 + c.length)) ∧
            (sym ∉ ct.map Prod.fst → c ∈ ct.map Prod.snd → fails g))

/-- 42_archive.md R200: AREND closes the session where no record and no byte is left, and ends in ARCHIVE_FORMAT(ARC_CUR) where bytes are left.
That ARC_CUR stays (R200 and R81 against the column of R21), and that AREND reads no cell of ARCBUF and so leaves the fault record (R200 and R81
against R36's "ENGINE reads" column), is the model's reading (DEDUCED, log 11). -/
def Obligations.ArendClosesTheSession : Prop :=
  ∀ s : State, s.status.ar = .opened → s.recRemain = 0 →
    (s.arcCur = s.arcLen →
      exec .arend s = .next { s with status := { s.status with done := true, busy := false, ar := .idle } }) ∧
    (s.arcCur ≠ s.arcLen →
      exec .arend s = .next (errorCompletion (destinations .arend) { code := .archiveFormat, info := s.arcCur.toNat } s))

/-- 42_archive.md R201, R203, R192, 41_bitstream.md R170, R173: EXTRACT on the record of a table and a payload that greedy first match takes as the
codes of some bytes (over a prefix-free table: the codes of any bytes) completes with the record in NAMEBUF, PAYBUF, CTAB and DTAB as ARREC leaves
it and the bytes in OUTBUF as DECODE does, and changes nothing else. -/
def Obligations.ExtractGivesTheFile : Prop :=
  ∀ (s : State) (name bs : List Byte) (ct : List (Byte × Code)), s.status.ar = .opened → s.recRemain ≠ 0 → TableLegal ct →
    FirstMatch (tableOf ct) bs →
    let payload := bs.flatMap (tableOf ct)
    name.length ≤ s.params.nameCap.toNat → payload.length ≤ s.params.payCap.toNat → bs.length ≤ s.params.outCap.toNat →
    Cells.holds s.arcbuf s.arcCur.toNat (containerRecord name payload ct) →
    s.arcCur.toNat + (containerRecord name payload ct).length ≤ s.arcLen.toNat →
    ∃ t, exec .extract s = .next t ∧
      t = { s with namebuf := t.namebuf, nameLen := word name.length, paybuf := t.paybuf, payLen := word payload.length,
                   clen := t.clen, cbit := t.cbit, codeCount := word ct.length, dtab := t.dtab,
                   arcCur := word (s.arcCur.toNat + (containerRecord name payload ct).length), recRemain := s.recRemain - 1,
                   outbuf := t.outbuf, outLen := word bs.length,
                   status := { s.status with done := true, busy := false, ctabV := true, dtabV := true } } ∧
      Cells.exactly t.namebuf name ∧ Cells.exactly t.paybuf payload ∧ CtabExactly t (tableOf ct) ∧ DtabIs t (tableOf ct) ∧
      Cells.exactly t.outbuf bs

/-! ### Rules of the whole machine -/

/-- The canonical form of every buffer and table (00_scope.md R13, 10_state.md R36), DTAB's ascending symbols (DEDUCED, log 12) among them,
is kept by every step. -/
def Obligations.StepKeepsMemoryCanonical : Prop :=
  ∀ s t : State, Memory.wf s → step s = .next t → Memory.wf t

/-- 10_state.md R36, R40 to R42: no step writes a cell outside a buffer or table. -/
def Obligations.StepKeepsCellsInBounds : Prop :=
  ∀ s t : State, s.inBounds → step s = .next t → t.inBounds

/-- 10_state.md R27, R28, R29, R34: every step keeps STATUS legal, the two sessions exclusive among it. -/
def Obligations.StepKeepsStatusLegal : Prop :=
  ∀ s t : State, s.statusLegal → step s = .next t → t.statusLegal

/-- 10_state.md R29, R33, 20_memory.md R67: every step keeps an open session's container and cursor legal. -/
def Obligations.StepKeepsSessionsLegal : Prop :=
  ∀ s t : State, s.statusLegal → s.sessionLegal → step s = .next t → t.sessionLegal

/-- 10_state.md R30, R32, R40 to R43, 40_huffman.md R120, 41_bitstream.md R160: every step keeps every valid table what its kind must be, so that
CODEGEN always finds a tree and DINV never finds a code twice, and the count registers DISTINCT, NODE_COUNT and CODE_COUNT the counts of their
tables. That DTAB is empty while DTAB_V = 0 is DEDUCED (log 12). -/
def Obligations.StepKeepsTablesLegal : Prop :=
  ∀ s t : State, s.tablesLegal → step s = .next t → t.tablesLegal

/-- The invariants hold right after reset (70_reset_and_hazards.md R291). That the capacities meet R6 is so of the reference values (log 1). -/
def Obligations.InvariantsHoldAtReset : Prop :=
  Memory.wf State.reset ∧ State.reset.inBounds ∧ State.reset.statusLegal ∧ State.reset.sessionLegal ∧ State.reset.tablesLegal ∧
  State.reset.clean

/-- 10_state.md R35, R45: no step changes the registers r16 to r20, and no step removes anything from the fault record. That the reset input in
the middle of a run keeps the record is the model's choice between R45 and the column of R291 (DESIGN CHOICE, log 10). -/
def Obligations.ConstantsStayAndFaultsAreKept : Prop :=
  ∀ s t : State, step s = .next t →
    t.params = s.params ∧
    (s.faults.unwrittenRead = true → t.faults.unwrittenRead = true) ∧
    (s.faults.hostBusyAccess = true → t.faults.hostBusyAccess = true) ∧
    (s.faults.cmdWhileBusy = true → t.faults.cmdWhileBusy = true)

/-- 10_state.md R31, 42_archive.md R191: the ENGINE never reads a cell at or beyond a buffer's length: what stands there makes no difference to a
command. (Where a cell below the length is unwritten, that both runs read the same value from it is the model's: its free values are one stream
over State.draws, logs 3 and 4, where R13 and I3 let two reads differ.) -/
def Obligations.CellsBeyondTheLengthAreNeverRead : Prop :=
  ∀ (s : State),
    (∀ i ∈ [Instr.freq, Instr.encode, Instr.compress], ∀ c : Cells Byte,
      (∀ j, j < s.inLen.toNat → Cells.get c j = Cells.get s.inbuf j) →
      ∃ t, exec i s = .next t ∧ exec i { s with inbuf := c } = .next { t with inbuf := c }) ∧
    (∀ c : Cells Byte, (∀ j, j < s.nameLen.toNat → Cells.get c j = Cells.get s.namebuf j) →
      ∃ t, exec .awrec s = .next t ∧ exec .awrec { s with namebuf := c } = .next { t with namebuf := c }) ∧
    (∀ i ∈ [Instr.decode, Instr.awrec], ∀ c : Cells Bool, (∀ j, j < s.payLen.toNat → Cells.get c j = Cells.get s.paybuf j) →
      ∃ t, exec i s = .next t ∧ exec i { s with paybuf := c } = .next { t with paybuf := c }) ∧
    (s.status.aw = .idle → ∀ i ∈ [Instr.arbegin, Instr.arrec, Instr.arend, Instr.extract], ∀ c : Cells Byte,
      (∀ j, j < s.arcLen.toNat → Cells.get c j = Cells.get s.arcbuf j) →
      ∃ t, exec i s = .next t ∧ exec i { s with arcbuf := c } = .next { t with arcbuf := c })

/-- 70_reset_and_hazards.md R307, R73: a pending command is executed: when the HOST only makes reads that are defined while BUSY = 1, the command
completes at the latest one step after its last move. 30_encoding.md R87: `wait` reads STATUS until bit 0 is 0: once with BUSY = 0, and over a
pending command, whatever its schedule, until the command has completed. The schedule is the model's (DESIGN CHOICE, log 6), and that the
command completes from every state rests on log 3 (reads of unwritten cells go on) and log 17 (CODEGEN over NODES that are no tree). -/
def Obligations.PendingCommandCompletes : Prop :=
  (∀ (s : State) (rs : List Nat), s.status.busy = true → s.pending.isSome = true →
    (∀ r ∈ rs, r = 0 ∨ r = 2 ∨ 16 ≤ r ∧ r ≤ 20) → s.inputs = rs.map (fun r => Move.host (.read (hostAddr 0 r))) →
    ∃ t, Host.Core.run Sys2Proof.core (rs.length + 1) s = .next t ∧ t.status.busy = false ∧ t.status.done = true ∧
      t.inputs = [] ∧ t.observed.length = s.observed.length + rs.length) ∧
  (∀ (s : State) (polls : Nat) (rest : List Move), s.inputs = .wait polls :: rest →
    (s.status.busy = false → step s = .next { s with inputs := rest, observed := s.observed ++ [Status.toWord s.status] }) ∧
    (s.status.busy = true → s.pending.isSome = true →
      ∃ t, Host.Core.run Sys2Proof.core (polls + 3) s = .next t ∧ t.status.busy = false ∧ t.status.done = true ∧ t.inputs = rest ∧
        t.observed = s.observed ++ List.replicate (polls + 1) (Status.toWord s.status) ++ [Status.toWord t.status]))
end

