-- ==== Sys2Proof/Laws/Cells.lean ====
section
/-! SUPPORT. The laws of cells (00_scope.md R10, R13): reading after writing, and that every write keeps the canonical form and stays in
bounds. -/

namespace Sys2Proof.Machine

variable {α : Type}

@[simp] theorem Cells.get_nil (i : Nat) : Cells.get ([] : Cells α) i = none := rfl

theorem Cells.get_cons (k : Nat) (v : α) (c : Cells α) (i : Nat) :
    Cells.get ((k, v) :: c) i = if k = i then some v else Cells.get c i := rfl

theorem Cells.get_append (c d : Cells α) (i : Nat) :
    Cells.get (c ++ d) i = (Cells.get c i).or (Cells.get d i) := by
  induction c with
  | nil => simp
  | cons e c ih =>
    obtain ⟨k, v⟩ := e
    by_cases h : k = i <;> simp [Cells.get_cons, h, ih]

theorem Cells.get_filter (c : Cells α) (p : Nat → Bool) (i : Nat) :
    Cells.get (c.filter fun e => p e.1) i = if p i then Cells.get c i else none := by
  induction c with
  | nil => simp
  | cons e c ih =>
    obtain ⟨k, v⟩ := e
    by_cases hp : p k = true <;> by_cases h : k = i <;> subst_vars <;> simp_all [Cells.get_cons]

/-- Reading a run of cells. -/
theorem Cells.get_cellsFrom (vs : List α) (i j : Nat) :
    Cells.get (cellsFrom i vs) j = if i ≤ j then vs[j - i]? else none := by
  induction vs generalizing i with
  | nil => simp [cellsFrom]
  | cons v vs ih =>
    rw [cellsFrom, Cells.get_cons, ih]
    by_cases h : i = j
    · simp [h]
    · by_cases h' : i ≤ j
      · have e : j - i = (j - (i + 1)) + 1 := by omega
        rw [e]
        simp [h, h', show i + 1 ≤ j by omega]
      · simp [h, h', show ¬ i + 1 ≤ j by omega]

/-- Reading after a write (R10): the written cells hold the new values, every other cell what it held. -/
theorem Cells.get_writeRange (c : Cells α) (i : Nat) (vs : List α) (j : Nat) :
    Cells.get (Cells.writeRange c i vs) j =
      if i ≤ j ∧ j < i + vs.length then vs[j - i]? else Cells.get c j := by
  unfold Cells.writeRange
  rw [Cells.get_append, Cells.get_append, Cells.get_filter c (fun k => decide (k < i)),
    Cells.get_filter c (fun k => decide (i + vs.length ≤ k)), Cells.get_cellsFrom]
  by_cases h1 : j < i
  · simp [h1, show ¬ i ≤ j by omega, show ¬ i + vs.length ≤ j by omega]
  · by_cases h2 : j < i + vs.length
    · have hl : j - i < vs.length := by omega
      simp [show i ≤ j by omega, h1, h2, hl]
    · have hl : vs.length ≤ j - i := by omega
      simp [show i ≤ j by omega, h1, h2, show i + vs.length ≤ j by omega, hl]

theorem Cells.holds_cellsFrom (vs : List α) (i : Nat) : Cells.holds (cellsFrom i vs) i vs := by
  intro j h
  simp [Cells.get_cellsFrom, h]

theorem Cells.exactly_cellsFrom (vs : List α) : Cells.exactly (cellsFrom 0 vs) vs := by
  refine ⟨Cells.holds_cellsFrom vs 0, fun i h => ?_⟩
  simp [Cells.get_cellsFrom, h]

theorem Cells.holds_writeRange (c : Cells α) (i : Nat) (vs : List α) :
    Cells.holds (Cells.writeRange c i vs) i vs := by
  intro j h
  simp [Cells.get_writeRange, h]

theorem Cells.holds_cons {c : Cells α} {i : Nat} {v : α} {vs : List α} :
    Cells.holds c i (v :: vs) ↔ Cells.get c i = some v ∧ Cells.holds c (i + 1) vs := by
  constructor
  · intro h
    refine ⟨h 0 (by simp), fun j hj => ?_⟩
    have := h (j + 1) (by simpa using hj)
    rw [show i + 1 + j = i + (j + 1) by omega]
    simpa using this
  · rintro ⟨h0, h⟩ j hj
    cases j with
    | zero => simpa using h0
    | succ j =>
      have := h j (by simpa using hj)
      rw [show i + (j + 1) = i + 1 + j by omega]
      simpa using this

theorem Cells.holds_nil (c : Cells α) (i : Nat) : Cells.holds c i [] := fun _ h => absurd h (by simp)

theorem Cells.holds_append {c : Cells α} {i : Nat} {vs ws : List α} :
    Cells.holds c i (vs ++ ws) ↔ Cells.holds c i vs ∧ Cells.holds c (i + vs.length) ws := by
  induction vs generalizing i with
  | nil => exact ⟨fun h => ⟨Cells.holds_nil c i, h⟩, fun h => h.2⟩
  | cons v vs ih =>
    rw [List.cons_append, Cells.holds_cons, Cells.holds_cons, ih, List.length_cons,
      show i + (vs.length + 1) = i + 1 + vs.length by omega, and_assoc]

/-! ### The canonical form -/

theorem mem_cellsFrom_bounds {vs : List α} {i : Nat} {e : Nat × α} (h : e ∈ cellsFrom i vs) :
    i ≤ e.1 ∧ e.1 < i + vs.length := by
  induction vs generalizing i with
  | nil => simp [cellsFrom] at h
  | cons v vs ih =>
    rcases List.mem_cons.1 h with rfl | h
    · simp
    · have := ih h
      simp only [List.length_cons]
      omega

theorem cellsFrom_wf (vs : List α) (i : Nat) : Cells.wf (cellsFrom i vs) := by
  induction vs generalizing i with
  | nil => exact List.Pairwise.nil
  | cons v vs ih =>
    refine List.Pairwise.cons (fun e he => ?_) (ih (i + 1))
    have := (mem_cellsFrom_bounds he).1
    simp only
    omega

/-- MemWrite keeps the canonical form. -/
theorem Cells.writeRange_wf {c : Cells α} (h : Cells.wf c) (i : Nat) (vs : List α) :
    Cells.wf (Cells.writeRange c i vs) := by
  unfold Cells.writeRange
  refine List.pairwise_append.2 ⟨List.pairwise_append.2 ⟨h.filter _, cellsFrom_wf vs i, ?_⟩, h.filter _, ?_⟩
  · intro a ha b hb
    have h1 : a.1 < i := by simpa using (List.mem_filter.1 ha).2
    have := (mem_cellsFrom_bounds hb).1
    omega
  · intro a ha b hb
    have h1 : i + vs.length ≤ b.1 := by simpa using (List.mem_filter.1 hb).2
    rcases List.mem_append.1 ha with ha | ha
    · have h2 : a.1 < i := by simpa using (List.mem_filter.1 ha).2
      omega
    · have := (mem_cellsFrom_bounds ha).2
      omega

/-- What a write lists: an entry that was there, or one of the written cells. -/
theorem mem_writeRange {c : Cells α} {i : Nat} {vs : List α} {e : Nat × α} (h : e ∈ Cells.writeRange c i vs) :
    e ∈ c ∨ (i ≤ e.1 ∧ e.1 < i + vs.length) := by
  unfold Cells.writeRange at h
  rcases List.mem_append.1 h with h | h
  · rcases List.mem_append.1 h with h | h
    · exact .inl (List.mem_filter.1 h).1
    · exact .inr (mem_cellsFrom_bounds h)
  · exact .inl (List.mem_filter.1 h).1

theorem Cells.get_eq_none_of_not_mem {c : Cells α} {i : Nat} (h : ∀ e ∈ c, e.1 ≠ i) : Cells.get c i = none := by
  induction c with
  | nil => rfl
  | cons e c ih =>
    obtain ⟨k, v⟩ := e
    have hk : k ≠ i := h (k, v) (by simp)
    simp [Cells.get_cons, hk, ih fun e he => h e (by simp [he])]

theorem Cells.get_mem {c : Cells α} {i : Nat} {v : α} (h : Cells.get c i = some v) : (i, v) ∈ c := by
  induction c with
  | nil => simp at h
  | cons e c ih =>
    obtain ⟨k, w⟩ := e
    by_cases hk : k = i
    · subst hk
      simp [Cells.get_cons] at h
      simp [h]
    · simp [Cells.get_cons, hk] at h
      simp [ih h]

/-- In canonical form the entries listed are exactly the cells that hold a value. -/
theorem Cells.get_of_mem {c : Cells α} (hc : Cells.wf c) {e : Nat × α} (h : e ∈ c) : Cells.get c e.1 = some e.2 := by
  induction c with
  | nil => simp at h
  | cons x c ih =>
    obtain ⟨k, w⟩ := x
    rcases List.mem_cons.1 h with rfl | h
    · simp [Cells.get_cons]
    · have hlt : k < e.1 := (List.pairwise_cons.1 hc).1 e h
      simp [Cells.get_cons, show k ≠ e.1 by omega, ih (List.pairwise_cons.1 hc).2 h]

/-- Equal contents are equal lists (R13). -/
theorem Cells.ext_get {c d : Cells α} (hc : Cells.wf c) (hd : Cells.wf d) (h : ∀ i, Cells.get c i = Cells.get d i) :
    c = d := by
  have sub : ∀ {c d : Cells α}, Cells.wf c → (∀ i, Cells.get c i = Cells.get d i) → c ⊆ d := by
    intro c d hc h e he
    have := Cells.get_of_mem hc he
    rw [h] at this
    exact Cells.get_mem this
  have nodup : ∀ {c : Cells α}, Cells.wf c → c.Nodup := fun hc => hc.imp fun hlt heq => by
    rw [heq] at hlt
    exact absurd hlt (by simp)
  refine List.Perm.eq_of_pairwise ?_ hc hd
    ((List.perm_ext_iff_of_nodup (nodup hc) (nodup hd)).2 fun e => ⟨fun he => sub hc h he, fun he => sub hd (fun i => (h i).symm) he⟩)
  intro a b _ _ h1 h2
  omega

theorem Memory.wf_reset (p : Params) : Memory.wf (State.resetWith p) := by
  simp [Memory.wf, State.resetWith, Cells.wf]

end Sys2Proof.Machine
end

