-- ==== Sys2Proof/Laws/State.lean ====
section
/-! SUPPORT. What each shared update of the state leaves of each field: one lemma per field per update, so that no later proof unfolds a
record update. -/

namespace Sys2Proof.Machine

/-! ### successCompletion (60_exceptions.md R254) -/

@[simp] theorem successCompletion_params (s : State) : (successCompletion s).params = s.params := rfl
@[simp] theorem successCompletion_inLen (s : State) : (successCompletion s).inLen = s.inLen := rfl
@[simp] theorem successCompletion_nameLen (s : State) : (successCompletion s).nameLen = s.nameLen := rfl
@[simp] theorem successCompletion_payLen (s : State) : (successCompletion s).payLen = s.payLen := rfl
@[simp] theorem successCompletion_outLen (s : State) : (successCompletion s).outLen = s.outLen := rfl
@[simp] theorem successCompletion_arcLen (s : State) : (successCompletion s).arcLen = s.arcLen := rfl
@[simp] theorem successCompletion_distinct (s : State) : (successCompletion s).distinct = s.distinct := rfl
@[simp] theorem successCompletion_nodeCount (s : State) : (successCompletion s).nodeCount = s.nodeCount := rfl
@[simp] theorem successCompletion_root (s : State) : (successCompletion s).root = s.root := rfl
@[simp] theorem successCompletion_codeCount (s : State) : (successCompletion s).codeCount = s.codeCount := rfl
@[simp] theorem successCompletion_recCount (s : State) : (successCompletion s).recCount = s.recCount := rfl
@[simp] theorem successCompletion_recRemain (s : State) : (successCompletion s).recRemain = s.recRemain := rfl
@[simp] theorem successCompletion_arcCur (s : State) : (successCompletion s).arcCur = s.arcCur := rfl
@[simp] theorem successCompletion_errInfo (s : State) : (successCompletion s).errInfo = s.errInfo := rfl
@[simp] theorem successCompletion_pending (s : State) : (successCompletion s).pending = s.pending := rfl
@[simp] theorem successCompletion_inbuf (s : State) : (successCompletion s).inbuf = s.inbuf := rfl
@[simp] theorem successCompletion_namebuf (s : State) : (successCompletion s).namebuf = s.namebuf := rfl
@[simp] theorem successCompletion_paybuf (s : State) : (successCompletion s).paybuf = s.paybuf := rfl
@[simp] theorem successCompletion_outbuf (s : State) : (successCompletion s).outbuf = s.outbuf := rfl
@[simp] theorem successCompletion_arcbuf (s : State) : (successCompletion s).arcbuf = s.arcbuf := rfl
@[simp] theorem successCompletion_freq (s : State) : (successCompletion s).freq = s.freq := rfl
@[simp] theorem successCompletion_nodes (s : State) : (successCompletion s).nodes = s.nodes := rfl
@[simp] theorem successCompletion_clen (s : State) : (successCompletion s).clen = s.clen := rfl
@[simp] theorem successCompletion_cbit (s : State) : (successCompletion s).cbit = s.cbit := rfl
@[simp] theorem successCompletion_dtab (s : State) : (successCompletion s).dtab = s.dtab := rfl
@[simp] theorem successCompletion_faults (s : State) : (successCompletion s).faults = s.faults := rfl
@[simp] theorem successCompletion_inputs (s : State) : (successCompletion s).inputs = s.inputs := rfl
@[simp] theorem successCompletion_observed (s : State) : (successCompletion s).observed = s.observed := rfl
@[simp] theorem successCompletion_checks (s : State) : (successCompletion s).checks = s.checks := rfl
@[simp] theorem successCompletion_draws (s : State) : (successCompletion s).draws = s.draws := rfl

@[simp] theorem successCompletion_status (s : State) : (successCompletion s).status = { s.status with done := true, busy := false } := rfl

/-! ### issue (60_exceptions.md R250) -/

@[simp] theorem issue_params (v : Word) (s : State) : (issue v s).params = s.params := rfl
@[simp] theorem issue_inLen (v : Word) (s : State) : (issue v s).inLen = s.inLen := rfl
@[simp] theorem issue_nameLen (v : Word) (s : State) : (issue v s).nameLen = s.nameLen := rfl
@[simp] theorem issue_payLen (v : Word) (s : State) : (issue v s).payLen = s.payLen := rfl
@[simp] theorem issue_outLen (v : Word) (s : State) : (issue v s).outLen = s.outLen := rfl
@[simp] theorem issue_arcLen (v : Word) (s : State) : (issue v s).arcLen = s.arcLen := rfl
@[simp] theorem issue_distinct (v : Word) (s : State) : (issue v s).distinct = s.distinct := rfl
@[simp] theorem issue_nodeCount (v : Word) (s : State) : (issue v s).nodeCount = s.nodeCount := rfl
@[simp] theorem issue_root (v : Word) (s : State) : (issue v s).root = s.root := rfl
@[simp] theorem issue_codeCount (v : Word) (s : State) : (issue v s).codeCount = s.codeCount := rfl
@[simp] theorem issue_recCount (v : Word) (s : State) : (issue v s).recCount = s.recCount := rfl
@[simp] theorem issue_recRemain (v : Word) (s : State) : (issue v s).recRemain = s.recRemain := rfl
@[simp] theorem issue_arcCur (v : Word) (s : State) : (issue v s).arcCur = s.arcCur := rfl
@[simp] theorem issue_inbuf (v : Word) (s : State) : (issue v s).inbuf = s.inbuf := rfl
@[simp] theorem issue_namebuf (v : Word) (s : State) : (issue v s).namebuf = s.namebuf := rfl
@[simp] theorem issue_paybuf (v : Word) (s : State) : (issue v s).paybuf = s.paybuf := rfl
@[simp] theorem issue_outbuf (v : Word) (s : State) : (issue v s).outbuf = s.outbuf := rfl
@[simp] theorem issue_arcbuf (v : Word) (s : State) : (issue v s).arcbuf = s.arcbuf := rfl
@[simp] theorem issue_freq (v : Word) (s : State) : (issue v s).freq = s.freq := rfl
@[simp] theorem issue_nodes (v : Word) (s : State) : (issue v s).nodes = s.nodes := rfl
@[simp] theorem issue_clen (v : Word) (s : State) : (issue v s).clen = s.clen := rfl
@[simp] theorem issue_cbit (v : Word) (s : State) : (issue v s).cbit = s.cbit := rfl
@[simp] theorem issue_dtab (v : Word) (s : State) : (issue v s).dtab = s.dtab := rfl
@[simp] theorem issue_faults (v : Word) (s : State) : (issue v s).faults = s.faults := rfl
@[simp] theorem issue_inputs (v : Word) (s : State) : (issue v s).inputs = s.inputs := rfl
@[simp] theorem issue_observed (v : Word) (s : State) : (issue v s).observed = s.observed := rfl
@[simp] theorem issue_checks (v : Word) (s : State) : (issue v s).checks = s.checks := rfl
@[simp] theorem issue_draws (v : Word) (s : State) : (issue v s).draws = s.draws := rfl

@[simp] theorem issue_status (v : Word) (s : State) : (issue v s).status = Status.issued v s.status := rfl
@[simp] theorem issue_pending (v : Word) (s : State) : (issue v s).pending = some v := rfl
@[simp] theorem issue_errInfo (v : Word) (s : State) : (issue v s).errInfo = 0 := rfl

/-! ### noteReads (00_scope.md R13) -/

@[simp] theorem noteReads_params (d : Nat) (s : State) : (s.noteReads d).params = s.params := by unfold State.noteReads; split <;> rfl
@[simp] theorem noteReads_status (d : Nat) (s : State) : (s.noteReads d).status = s.status := by unfold State.noteReads; split <;> rfl
@[simp] theorem noteReads_inLen (d : Nat) (s : State) : (s.noteReads d).inLen = s.inLen := by unfold State.noteReads; split <;> rfl
@[simp] theorem noteReads_nameLen (d : Nat) (s : State) : (s.noteReads d).nameLen = s.nameLen := by unfold State.noteReads; split <;> rfl
@[simp] theorem noteReads_payLen (d : Nat) (s : State) : (s.noteReads d).payLen = s.payLen := by unfold State.noteReads; split <;> rfl
@[simp] theorem noteReads_outLen (d : Nat) (s : State) : (s.noteReads d).outLen = s.outLen := by unfold State.noteReads; split <;> rfl
@[simp] theorem noteReads_arcLen (d : Nat) (s : State) : (s.noteReads d).arcLen = s.arcLen := by unfold State.noteReads; split <;> rfl
@[simp] theorem noteReads_distinct (d : Nat) (s : State) : (s.noteReads d).distinct = s.distinct := by unfold State.noteReads; split <;> rfl
@[simp] theorem noteReads_nodeCount (d : Nat) (s : State) : (s.noteReads d).nodeCount = s.nodeCount := by unfold State.noteReads; split <;> rfl
@[simp] theorem noteReads_root (d : Nat) (s : State) : (s.noteReads d).root = s.root := by unfold State.noteReads; split <;> rfl
@[simp] theorem noteReads_codeCount (d : Nat) (s : State) : (s.noteReads d).codeCount = s.codeCount := by unfold State.noteReads; split <;> rfl
@[simp] theorem noteReads_recCount (d : Nat) (s : State) : (s.noteReads d).recCount = s.recCount := by unfold State.noteReads; split <;> rfl
@[simp] theorem noteReads_recRemain (d : Nat) (s : State) : (s.noteReads d).recRemain = s.recRemain := by unfold State.noteReads; split <;> rfl
@[simp] theorem noteReads_arcCur (d : Nat) (s : State) : (s.noteReads d).arcCur = s.arcCur := by unfold State.noteReads; split <;> rfl
@[simp] theorem noteReads_errInfo (d : Nat) (s : State) : (s.noteReads d).errInfo = s.errInfo := by unfold State.noteReads; split <;> rfl
@[simp] theorem noteReads_pending (d : Nat) (s : State) : (s.noteReads d).pending = s.pending := by unfold State.noteReads; split <;> rfl
@[simp] theorem noteReads_inbuf (d : Nat) (s : State) : (s.noteReads d).inbuf = s.inbuf := by unfold State.noteReads; split <;> rfl
@[simp] theorem noteReads_namebuf (d : Nat) (s : State) : (s.noteReads d).namebuf = s.namebuf := by unfold State.noteReads; split <;> rfl
@[simp] theorem noteReads_paybuf (d : Nat) (s : State) : (s.noteReads d).paybuf = s.paybuf := by unfold State.noteReads; split <;> rfl
@[simp] theorem noteReads_outbuf (d : Nat) (s : State) : (s.noteReads d).outbuf = s.outbuf := by unfold State.noteReads; split <;> rfl
@[simp] theorem noteReads_arcbuf (d : Nat) (s : State) : (s.noteReads d).arcbuf = s.arcbuf := by unfold State.noteReads; split <;> rfl
@[simp] theorem noteReads_freq (d : Nat) (s : State) : (s.noteReads d).freq = s.freq := by unfold State.noteReads; split <;> rfl
@[simp] theorem noteReads_nodes (d : Nat) (s : State) : (s.noteReads d).nodes = s.nodes := by unfold State.noteReads; split <;> rfl
@[simp] theorem noteReads_clen (d : Nat) (s : State) : (s.noteReads d).clen = s.clen := by unfold State.noteReads; split <;> rfl
@[simp] theorem noteReads_cbit (d : Nat) (s : State) : (s.noteReads d).cbit = s.cbit := by unfold State.noteReads; split <;> rfl
@[simp] theorem noteReads_dtab (d : Nat) (s : State) : (s.noteReads d).dtab = s.dtab := by unfold State.noteReads; split <;> rfl
@[simp] theorem noteReads_inputs (d : Nat) (s : State) : (s.noteReads d).inputs = s.inputs := by unfold State.noteReads; split <;> rfl
@[simp] theorem noteReads_observed (d : Nat) (s : State) : (s.noteReads d).observed = s.observed := by unfold State.noteReads; split <;> rfl
@[simp] theorem noteReads_checks (d : Nat) (s : State) : (s.noteReads d).checks = s.checks := by unfold State.noteReads; split <;> rfl

@[simp] theorem noteReads_draws (d : Nat) (s : State) : (s.noteReads d).draws = d := by unfold State.noteReads; split <;> simp_all
theorem noteReads_same (s : State) : s.noteReads s.draws = s := by simp [State.noteReads]

/-! ### dropMove -/

@[simp] theorem dropMove_params (s : State) : (dropMove s).params = s.params := rfl
@[simp] theorem dropMove_status (s : State) : (dropMove s).status = s.status := rfl
@[simp] theorem dropMove_inLen (s : State) : (dropMove s).inLen = s.inLen := rfl
@[simp] theorem dropMove_nameLen (s : State) : (dropMove s).nameLen = s.nameLen := rfl
@[simp] theorem dropMove_payLen (s : State) : (dropMove s).payLen = s.payLen := rfl
@[simp] theorem dropMove_outLen (s : State) : (dropMove s).outLen = s.outLen := rfl
@[simp] theorem dropMove_arcLen (s : State) : (dropMove s).arcLen = s.arcLen := rfl
@[simp] theorem dropMove_distinct (s : State) : (dropMove s).distinct = s.distinct := rfl
@[simp] theorem dropMove_nodeCount (s : State) : (dropMove s).nodeCount = s.nodeCount := rfl
@[simp] theorem dropMove_root (s : State) : (dropMove s).root = s.root := rfl
@[simp] theorem dropMove_codeCount (s : State) : (dropMove s).codeCount = s.codeCount := rfl
@[simp] theorem dropMove_recCount (s : State) : (dropMove s).recCount = s.recCount := rfl
@[simp] theorem dropMove_recRemain (s : State) : (dropMove s).recRemain = s.recRemain := rfl
@[simp] theorem dropMove_arcCur (s : State) : (dropMove s).arcCur = s.arcCur := rfl
@[simp] theorem dropMove_errInfo (s : State) : (dropMove s).errInfo = s.errInfo := rfl
@[simp] theorem dropMove_pending (s : State) : (dropMove s).pending = s.pending := rfl
@[simp] theorem dropMove_inbuf (s : State) : (dropMove s).inbuf = s.inbuf := rfl
@[simp] theorem dropMove_namebuf (s : State) : (dropMove s).namebuf = s.namebuf := rfl
@[simp] theorem dropMove_paybuf (s : State) : (dropMove s).paybuf = s.paybuf := rfl
@[simp] theorem dropMove_outbuf (s : State) : (dropMove s).outbuf = s.outbuf := rfl
@[simp] theorem dropMove_arcbuf (s : State) : (dropMove s).arcbuf = s.arcbuf := rfl
@[simp] theorem dropMove_freq (s : State) : (dropMove s).freq = s.freq := rfl
@[simp] theorem dropMove_nodes (s : State) : (dropMove s).nodes = s.nodes := rfl
@[simp] theorem dropMove_clen (s : State) : (dropMove s).clen = s.clen := rfl
@[simp] theorem dropMove_cbit (s : State) : (dropMove s).cbit = s.cbit := rfl
@[simp] theorem dropMove_dtab (s : State) : (dropMove s).dtab = s.dtab := rfl
@[simp] theorem dropMove_faults (s : State) : (dropMove s).faults = s.faults := rfl
@[simp] theorem dropMove_observed (s : State) : (dropMove s).observed = s.observed := rfl
@[simp] theorem dropMove_checks (s : State) : (dropMove s).checks = s.checks := rfl
@[simp] theorem dropMove_draws (s : State) : (dropMove s).draws = s.draws := rfl

@[simp] theorem dropMove_inputs (s : State) : (dropMove s).inputs = s.inputs.tail := rfl

/-! ### abortSessions (43_control.md R233) -/

@[simp] theorem abortSessions_params (s : State) : (abortSessions s).params = s.params := by unfold abortSessions; grind
@[simp] theorem abortSessions_inLen (s : State) : (abortSessions s).inLen = s.inLen := by unfold abortSessions; grind
@[simp] theorem abortSessions_nameLen (s : State) : (abortSessions s).nameLen = s.nameLen := by unfold abortSessions; grind
@[simp] theorem abortSessions_payLen (s : State) : (abortSessions s).payLen = s.payLen := by unfold abortSessions; grind
@[simp] theorem abortSessions_outLen (s : State) : (abortSessions s).outLen = s.outLen := by unfold abortSessions; grind
@[simp] theorem abortSessions_distinct (s : State) : (abortSessions s).distinct = s.distinct := by unfold abortSessions; grind
@[simp] theorem abortSessions_nodeCount (s : State) : (abortSessions s).nodeCount = s.nodeCount := by unfold abortSessions; grind
@[simp] theorem abortSessions_root (s : State) : (abortSessions s).root = s.root := by unfold abortSessions; grind
@[simp] theorem abortSessions_codeCount (s : State) : (abortSessions s).codeCount = s.codeCount := by unfold abortSessions; grind
@[simp] theorem abortSessions_errInfo (s : State) : (abortSessions s).errInfo = s.errInfo := by unfold abortSessions; grind
@[simp] theorem abortSessions_pending (s : State) : (abortSessions s).pending = s.pending := by unfold abortSessions; grind
@[simp] theorem abortSessions_inbuf (s : State) : (abortSessions s).inbuf = s.inbuf := by unfold abortSessions; grind
@[simp] theorem abortSessions_namebuf (s : State) : (abortSessions s).namebuf = s.namebuf := by unfold abortSessions; grind
@[simp] theorem abortSessions_paybuf (s : State) : (abortSessions s).paybuf = s.paybuf := by unfold abortSessions; grind
@[simp] theorem abortSessions_outbuf (s : State) : (abortSessions s).outbuf = s.outbuf := by unfold abortSessions; grind
@[simp] theorem abortSessions_freq (s : State) : (abortSessions s).freq = s.freq := by unfold abortSessions; grind
@[simp] theorem abortSessions_nodes (s : State) : (abortSessions s).nodes = s.nodes := by unfold abortSessions; grind
@[simp] theorem abortSessions_clen (s : State) : (abortSessions s).clen = s.clen := by unfold abortSessions; grind
@[simp] theorem abortSessions_cbit (s : State) : (abortSessions s).cbit = s.cbit := by unfold abortSessions; grind
@[simp] theorem abortSessions_dtab (s : State) : (abortSessions s).dtab = s.dtab := by unfold abortSessions; grind
@[simp] theorem abortSessions_faults (s : State) : (abortSessions s).faults = s.faults := by unfold abortSessions; grind
@[simp] theorem abortSessions_inputs (s : State) : (abortSessions s).inputs = s.inputs := by unfold abortSessions; grind
@[simp] theorem abortSessions_observed (s : State) : (abortSessions s).observed = s.observed := by unfold abortSessions; grind
@[simp] theorem abortSessions_checks (s : State) : (abortSessions s).checks = s.checks := by unfold abortSessions; grind
@[simp] theorem abortSessions_draws (s : State) : (abortSessions s).draws = s.draws := by unfold abortSessions; grind


/-! ### resetAction (70_reset_and_hazards.md R290) -/

@[simp] theorem resetAction_params (s : State) : (resetAction s).params = s.params := rfl
@[simp] theorem resetAction_status (s : State) : (resetAction s).status = (State.resetWith s.params).status := rfl
@[simp] theorem resetAction_inLen (s : State) : (resetAction s).inLen = (State.resetWith s.params).inLen := rfl
@[simp] theorem resetAction_nameLen (s : State) : (resetAction s).nameLen = (State.resetWith s.params).nameLen := rfl
@[simp] theorem resetAction_payLen (s : State) : (resetAction s).payLen = (State.resetWith s.params).payLen := rfl
@[simp] theorem resetAction_outLen (s : State) : (resetAction s).outLen = (State.resetWith s.params).outLen := rfl
@[simp] theorem resetAction_arcLen (s : State) : (resetAction s).arcLen = (State.resetWith s.params).arcLen := rfl
@[simp] theorem resetAction_distinct (s : State) : (resetAction s).distinct = (State.resetWith s.params).distinct := rfl
@[simp] theorem resetAction_nodeCount (s : State) : (resetAction s).nodeCount = (State.resetWith s.params).nodeCount := rfl
@[simp] theorem resetAction_root (s : State) : (resetAction s).root = (State.resetWith s.params).root := rfl
@[simp] theorem resetAction_codeCount (s : State) : (resetAction s).codeCount = (State.resetWith s.params).codeCount := rfl
@[simp] theorem resetAction_recCount (s : State) : (resetAction s).recCount = (State.resetWith s.params).recCount := rfl
@[simp] theorem resetAction_recRemain (s : State) : (resetAction s).recRemain = (State.resetWith s.params).recRemain := rfl
@[simp] theorem resetAction_arcCur (s : State) : (resetAction s).arcCur = (State.resetWith s.params).arcCur := rfl
@[simp] theorem resetAction_errInfo (s : State) : (resetAction s).errInfo = (State.resetWith s.params).errInfo := rfl
@[simp] theorem resetAction_pending (s : State) : (resetAction s).pending = (State.resetWith s.params).pending := rfl
@[simp] theorem resetAction_inbuf (s : State) : (resetAction s).inbuf = (State.resetWith s.params).inbuf := rfl
@[simp] theorem resetAction_namebuf (s : State) : (resetAction s).namebuf = (State.resetWith s.params).namebuf := rfl
@[simp] theorem resetAction_paybuf (s : State) : (resetAction s).paybuf = (State.resetWith s.params).paybuf := rfl
@[simp] theorem resetAction_outbuf (s : State) : (resetAction s).outbuf = (State.resetWith s.params).outbuf := rfl
@[simp] theorem resetAction_arcbuf (s : State) : (resetAction s).arcbuf = (State.resetWith s.params).arcbuf := rfl
@[simp] theorem resetAction_freq (s : State) : (resetAction s).freq = (State.resetWith s.params).freq := rfl
@[simp] theorem resetAction_nodes (s : State) : (resetAction s).nodes = (State.resetWith s.params).nodes := rfl
@[simp] theorem resetAction_clen (s : State) : (resetAction s).clen = (State.resetWith s.params).clen := rfl
@[simp] theorem resetAction_cbit (s : State) : (resetAction s).cbit = (State.resetWith s.params).cbit := rfl
@[simp] theorem resetAction_dtab (s : State) : (resetAction s).dtab = (State.resetWith s.params).dtab := rfl
@[simp] theorem resetAction_faults (s : State) : (resetAction s).faults = s.faults := rfl
@[simp] theorem resetAction_inputs (s : State) : (resetAction s).inputs = s.inputs := rfl
@[simp] theorem resetAction_observed (s : State) : (resetAction s).observed = s.observed := rfl
@[simp] theorem resetAction_checks (s : State) : (resetAction s).checks = s.checks := rfl
@[simp] theorem resetAction_draws (s : State) : (resetAction s).draws = s.draws := rfl

/-! ### withCodes (40_huffman.md R120) -/

@[simp] theorem withCodes_params (ct : List (Byte × Code)) (n : Nat) (s : State) : (s.withCodes ct n).params = s.params := rfl
@[simp] theorem withCodes_inLen (ct : List (Byte × Code)) (n : Nat) (s : State) : (s.withCodes ct n).inLen = s.inLen := rfl
@[simp] theorem withCodes_nameLen (ct : List (Byte × Code)) (n : Nat) (s : State) : (s.withCodes ct n).nameLen = s.nameLen := rfl
@[simp] theorem withCodes_payLen (ct : List (Byte × Code)) (n : Nat) (s : State) : (s.withCodes ct n).payLen = s.payLen := rfl
@[simp] theorem withCodes_outLen (ct : List (Byte × Code)) (n : Nat) (s : State) : (s.withCodes ct n).outLen = s.outLen := rfl
@[simp] theorem withCodes_arcLen (ct : List (Byte × Code)) (n : Nat) (s : State) : (s.withCodes ct n).arcLen = s.arcLen := rfl
@[simp] theorem withCodes_distinct (ct : List (Byte × Code)) (n : Nat) (s : State) : (s.withCodes ct n).distinct = s.distinct := rfl
@[simp] theorem withCodes_nodeCount (ct : List (Byte × Code)) (n : Nat) (s : State) : (s.withCodes ct n).nodeCount = s.nodeCount := rfl
@[simp] theorem withCodes_root (ct : List (Byte × Code)) (n : Nat) (s : State) : (s.withCodes ct n).root = s.root := rfl
@[simp] theorem withCodes_recCount (ct : List (Byte × Code)) (n : Nat) (s : State) : (s.withCodes ct n).recCount = s.recCount := rfl
@[simp] theorem withCodes_recRemain (ct : List (Byte × Code)) (n : Nat) (s : State) : (s.withCodes ct n).recRemain = s.recRemain := rfl
@[simp] theorem withCodes_arcCur (ct : List (Byte × Code)) (n : Nat) (s : State) : (s.withCodes ct n).arcCur = s.arcCur := rfl
@[simp] theorem withCodes_errInfo (ct : List (Byte × Code)) (n : Nat) (s : State) : (s.withCodes ct n).errInfo = s.errInfo := rfl
@[simp] theorem withCodes_pending (ct : List (Byte × Code)) (n : Nat) (s : State) : (s.withCodes ct n).pending = s.pending := rfl
@[simp] theorem withCodes_inbuf (ct : List (Byte × Code)) (n : Nat) (s : State) : (s.withCodes ct n).inbuf = s.inbuf := rfl
@[simp] theorem withCodes_namebuf (ct : List (Byte × Code)) (n : Nat) (s : State) : (s.withCodes ct n).namebuf = s.namebuf := rfl
@[simp] theorem withCodes_paybuf (ct : List (Byte × Code)) (n : Nat) (s : State) : (s.withCodes ct n).paybuf = s.paybuf := rfl
@[simp] theorem withCodes_outbuf (ct : List (Byte × Code)) (n : Nat) (s : State) : (s.withCodes ct n).outbuf = s.outbuf := rfl
@[simp] theorem withCodes_arcbuf (ct : List (Byte × Code)) (n : Nat) (s : State) : (s.withCodes ct n).arcbuf = s.arcbuf := rfl
@[simp] theorem withCodes_freq (ct : List (Byte × Code)) (n : Nat) (s : State) : (s.withCodes ct n).freq = s.freq := rfl
@[simp] theorem withCodes_nodes (ct : List (Byte × Code)) (n : Nat) (s : State) : (s.withCodes ct n).nodes = s.nodes := rfl
@[simp] theorem withCodes_dtab (ct : List (Byte × Code)) (n : Nat) (s : State) : (s.withCodes ct n).dtab = s.dtab := rfl
@[simp] theorem withCodes_faults (ct : List (Byte × Code)) (n : Nat) (s : State) : (s.withCodes ct n).faults = s.faults := rfl
@[simp] theorem withCodes_inputs (ct : List (Byte × Code)) (n : Nat) (s : State) : (s.withCodes ct n).inputs = s.inputs := rfl
@[simp] theorem withCodes_observed (ct : List (Byte × Code)) (n : Nat) (s : State) : (s.withCodes ct n).observed = s.observed := rfl
@[simp] theorem withCodes_checks (ct : List (Byte × Code)) (n : Nat) (s : State) : (s.withCodes ct n).checks = s.checks := rfl
@[simp] theorem withCodes_draws (ct : List (Byte × Code)) (n : Nat) (s : State) : (s.withCodes ct n).draws = s.draws := rfl

@[simp] theorem withCodes_status (ct : List (Byte × Code)) (n : Nat) (s : State) : (s.withCodes ct n).status = { s.status with ctabV := true } := rfl
@[simp] theorem withCodes_clen (ct : List (Byte × Code)) (n : Nat) (s : State) : (s.withCodes ct n).clen = clenOf ct := rfl
@[simp] theorem withCodes_cbit (ct : List (Byte × Code)) (n : Nat) (s : State) : (s.withCodes ct n).cbit = cbitOf ct := rfl
@[simp] theorem withCodes_codeCount (ct : List (Byte × Code)) (n : Nat) (s : State) : (s.withCodes ct n).codeCount = word n := rfl

/-! ### what a host access records (20_memory.md R63, 60_exceptions.md R260) -/

@[simp] theorem observe_params (v : Word) (s : State) : (observe v s).params = s.params := rfl
@[simp] theorem observe_status (v : Word) (s : State) : (observe v s).status = s.status := rfl
@[simp] theorem observe_inLen (v : Word) (s : State) : (observe v s).inLen = s.inLen := rfl
@[simp] theorem observe_nameLen (v : Word) (s : State) : (observe v s).nameLen = s.nameLen := rfl
@[simp] theorem observe_payLen (v : Word) (s : State) : (observe v s).payLen = s.payLen := rfl
@[simp] theorem observe_outLen (v : Word) (s : State) : (observe v s).outLen = s.outLen := rfl
@[simp] theorem observe_arcLen (v : Word) (s : State) : (observe v s).arcLen = s.arcLen := rfl
@[simp] theorem observe_distinct (v : Word) (s : State) : (observe v s).distinct = s.distinct := rfl
@[simp] theorem observe_nodeCount (v : Word) (s : State) : (observe v s).nodeCount = s.nodeCount := rfl
@[simp] theorem observe_root (v : Word) (s : State) : (observe v s).root = s.root := rfl
@[simp] theorem observe_codeCount (v : Word) (s : State) : (observe v s).codeCount = s.codeCount := rfl
@[simp] theorem observe_recCount (v : Word) (s : State) : (observe v s).recCount = s.recCount := rfl
@[simp] theorem observe_recRemain (v : Word) (s : State) : (observe v s).recRemain = s.recRemain := rfl
@[simp] theorem observe_arcCur (v : Word) (s : State) : (observe v s).arcCur = s.arcCur := rfl
@[simp] theorem observe_errInfo (v : Word) (s : State) : (observe v s).errInfo = s.errInfo := rfl
@[simp] theorem observe_pending (v : Word) (s : State) : (observe v s).pending = s.pending := rfl
@[simp] theorem observe_inbuf (v : Word) (s : State) : (observe v s).inbuf = s.inbuf := rfl
@[simp] theorem observe_namebuf (v : Word) (s : State) : (observe v s).namebuf = s.namebuf := rfl
@[simp] theorem observe_paybuf (v : Word) (s : State) : (observe v s).paybuf = s.paybuf := rfl
@[simp] theorem observe_outbuf (v : Word) (s : State) : (observe v s).outbuf = s.outbuf := rfl
@[simp] theorem observe_arcbuf (v : Word) (s : State) : (observe v s).arcbuf = s.arcbuf := rfl
@[simp] theorem observe_freq (v : Word) (s : State) : (observe v s).freq = s.freq := rfl
@[simp] theorem observe_nodes (v : Word) (s : State) : (observe v s).nodes = s.nodes := rfl
@[simp] theorem observe_clen (v : Word) (s : State) : (observe v s).clen = s.clen := rfl
@[simp] theorem observe_cbit (v : Word) (s : State) : (observe v s).cbit = s.cbit := rfl
@[simp] theorem observe_dtab (v : Word) (s : State) : (observe v s).dtab = s.dtab := rfl
@[simp] theorem observe_faults (v : Word) (s : State) : (observe v s).faults = s.faults := rfl
@[simp] theorem observe_inputs (v : Word) (s : State) : (observe v s).inputs = s.inputs := rfl
@[simp] theorem observe_checks (v : Word) (s : State) : (observe v s).checks = s.checks := rfl
@[simp] theorem observe_draws (v : Word) (s : State) : (observe v s).draws = s.draws := rfl

@[simp] theorem observe_observed (v : Word) (s : State) : (observe v s).observed = s.observed ++ [v] := rfl

@[simp] theorem observeFree_params (s : State) : (observeFree s).params = s.params := rfl
@[simp] theorem observeFree_status (s : State) : (observeFree s).status = s.status := rfl
@[simp] theorem observeFree_inLen (s : State) : (observeFree s).inLen = s.inLen := rfl
@[simp] theorem observeFree_nameLen (s : State) : (observeFree s).nameLen = s.nameLen := rfl
@[simp] theorem observeFree_payLen (s : State) : (observeFree s).payLen = s.payLen := rfl
@[simp] theorem observeFree_outLen (s : State) : (observeFree s).outLen = s.outLen := rfl
@[simp] theorem observeFree_arcLen (s : State) : (observeFree s).arcLen = s.arcLen := rfl
@[simp] theorem observeFree_distinct (s : State) : (observeFree s).distinct = s.distinct := rfl
@[simp] theorem observeFree_nodeCount (s : State) : (observeFree s).nodeCount = s.nodeCount := rfl
@[simp] theorem observeFree_root (s : State) : (observeFree s).root = s.root := rfl
@[simp] theorem observeFree_codeCount (s : State) : (observeFree s).codeCount = s.codeCount := rfl
@[simp] theorem observeFree_recCount (s : State) : (observeFree s).recCount = s.recCount := rfl
@[simp] theorem observeFree_recRemain (s : State) : (observeFree s).recRemain = s.recRemain := rfl
@[simp] theorem observeFree_arcCur (s : State) : (observeFree s).arcCur = s.arcCur := rfl
@[simp] theorem observeFree_errInfo (s : State) : (observeFree s).errInfo = s.errInfo := rfl
@[simp] theorem observeFree_pending (s : State) : (observeFree s).pending = s.pending := rfl
@[simp] theorem observeFree_inbuf (s : State) : (observeFree s).inbuf = s.inbuf := rfl
@[simp] theorem observeFree_namebuf (s : State) : (observeFree s).namebuf = s.namebuf := rfl
@[simp] theorem observeFree_paybuf (s : State) : (observeFree s).paybuf = s.paybuf := rfl
@[simp] theorem observeFree_outbuf (s : State) : (observeFree s).outbuf = s.outbuf := rfl
@[simp] theorem observeFree_arcbuf (s : State) : (observeFree s).arcbuf = s.arcbuf := rfl
@[simp] theorem observeFree_freq (s : State) : (observeFree s).freq = s.freq := rfl
@[simp] theorem observeFree_nodes (s : State) : (observeFree s).nodes = s.nodes := rfl
@[simp] theorem observeFree_clen (s : State) : (observeFree s).clen = s.clen := rfl
@[simp] theorem observeFree_cbit (s : State) : (observeFree s).cbit = s.cbit := rfl
@[simp] theorem observeFree_dtab (s : State) : (observeFree s).dtab = s.dtab := rfl
@[simp] theorem observeFree_faults (s : State) : (observeFree s).faults = s.faults := rfl
@[simp] theorem observeFree_inputs (s : State) : (observeFree s).inputs = s.inputs := rfl
@[simp] theorem observeFree_checks (s : State) : (observeFree s).checks = s.checks := rfl

@[simp] theorem recordBusyAccess_params (s : State) : (recordBusyAccess s).params = s.params := rfl
@[simp] theorem recordBusyAccess_status (s : State) : (recordBusyAccess s).status = s.status := rfl
@[simp] theorem recordBusyAccess_inLen (s : State) : (recordBusyAccess s).inLen = s.inLen := rfl
@[simp] theorem recordBusyAccess_nameLen (s : State) : (recordBusyAccess s).nameLen = s.nameLen := rfl
@[simp] theorem recordBusyAccess_payLen (s : State) : (recordBusyAccess s).payLen = s.payLen := rfl
@[simp] theorem recordBusyAccess_outLen (s : State) : (recordBusyAccess s).outLen = s.outLen := rfl
@[simp] theorem recordBusyAccess_arcLen (s : State) : (recordBusyAccess s).arcLen = s.arcLen := rfl
@[simp] theorem recordBusyAccess_distinct (s : State) : (recordBusyAccess s).distinct = s.distinct := rfl
@[simp] theorem recordBusyAccess_nodeCount (s : State) : (recordBusyAccess s).nodeCount = s.nodeCount := rfl
@[simp] theorem recordBusyAccess_root (s : State) : (recordBusyAccess s).root = s.root := rfl
@[simp] theorem recordBusyAccess_codeCount (s : State) : (recordBusyAccess s).codeCount = s.codeCount := rfl
@[simp] theorem recordBusyAccess_recCount (s : State) : (recordBusyAccess s).recCount = s.recCount := rfl
@[simp] theorem recordBusyAccess_recRemain (s : State) : (recordBusyAccess s).recRemain = s.recRemain := rfl
@[simp] theorem recordBusyAccess_arcCur (s : State) : (recordBusyAccess s).arcCur = s.arcCur := rfl
@[simp] theorem recordBusyAccess_errInfo (s : State) : (recordBusyAccess s).errInfo = s.errInfo := rfl
@[simp] theorem recordBusyAccess_pending (s : State) : (recordBusyAccess s).pending = s.pending := rfl
@[simp] theorem recordBusyAccess_inbuf (s : State) : (recordBusyAccess s).inbuf = s.inbuf := rfl
@[simp] theorem recordBusyAccess_namebuf (s : State) : (recordBusyAccess s).namebuf = s.namebuf := rfl
@[simp] theorem recordBusyAccess_paybuf (s : State) : (recordBusyAccess s).paybuf = s.paybuf := rfl
@[simp] theorem recordBusyAccess_outbuf (s : State) : (recordBusyAccess s).outbuf = s.outbuf := rfl
@[simp] theorem recordBusyAccess_arcbuf (s : State) : (recordBusyAccess s).arcbuf = s.arcbuf := rfl
@[simp] theorem recordBusyAccess_freq (s : State) : (recordBusyAccess s).freq = s.freq := rfl
@[simp] theorem recordBusyAccess_nodes (s : State) : (recordBusyAccess s).nodes = s.nodes := rfl
@[simp] theorem recordBusyAccess_clen (s : State) : (recordBusyAccess s).clen = s.clen := rfl
@[simp] theorem recordBusyAccess_cbit (s : State) : (recordBusyAccess s).cbit = s.cbit := rfl
@[simp] theorem recordBusyAccess_dtab (s : State) : (recordBusyAccess s).dtab = s.dtab := rfl
@[simp] theorem recordBusyAccess_inputs (s : State) : (recordBusyAccess s).inputs = s.inputs := rfl
@[simp] theorem recordBusyAccess_observed (s : State) : (recordBusyAccess s).observed = s.observed := rfl
@[simp] theorem recordBusyAccess_checks (s : State) : (recordBusyAccess s).checks = s.checks := rfl
@[simp] theorem recordBusyAccess_draws (s : State) : (recordBusyAccess s).draws = s.draws := rfl

@[simp] theorem recordCmdWhileBusy_params (s : State) : (recordCmdWhileBusy s).params = s.params := rfl
@[simp] theorem recordCmdWhileBusy_status (s : State) : (recordCmdWhileBusy s).status = s.status := rfl
@[simp] theorem recordCmdWhileBusy_inLen (s : State) : (recordCmdWhileBusy s).inLen = s.inLen := rfl
@[simp] theorem recordCmdWhileBusy_nameLen (s : State) : (recordCmdWhileBusy s).nameLen = s.nameLen := rfl
@[simp] theorem recordCmdWhileBusy_payLen (s : State) : (recordCmdWhileBusy s).payLen = s.payLen := rfl
@[simp] theorem recordCmdWhileBusy_outLen (s : State) : (recordCmdWhileBusy s).outLen = s.outLen := rfl
@[simp] theorem recordCmdWhileBusy_arcLen (s : State) : (recordCmdWhileBusy s).arcLen = s.arcLen := rfl
@[simp] theorem recordCmdWhileBusy_distinct (s : State) : (recordCmdWhileBusy s).distinct = s.distinct := rfl
@[simp] theorem recordCmdWhileBusy_nodeCount (s : State) : (recordCmdWhileBusy s).nodeCount = s.nodeCount := rfl
@[simp] theorem recordCmdWhileBusy_root (s : State) : (recordCmdWhileBusy s).root = s.root := rfl
@[simp] theorem recordCmdWhileBusy_codeCount (s : State) : (recordCmdWhileBusy s).codeCount = s.codeCount := rfl
@[simp] theorem recordCmdWhileBusy_recCount (s : State) : (recordCmdWhileBusy s).recCount = s.recCount := rfl
@[simp] theorem recordCmdWhileBusy_recRemain (s : State) : (recordCmdWhileBusy s).recRemain = s.recRemain := rfl
@[simp] theorem recordCmdWhileBusy_arcCur (s : State) : (recordCmdWhileBusy s).arcCur = s.arcCur := rfl
@[simp] theorem recordCmdWhileBusy_errInfo (s : State) : (recordCmdWhileBusy s).errInfo = s.errInfo := rfl
@[simp] theorem recordCmdWhileBusy_pending (s : State) : (recordCmdWhileBusy s).pending = s.pending := rfl
@[simp] theorem recordCmdWhileBusy_inbuf (s : State) : (recordCmdWhileBusy s).inbuf = s.inbuf := rfl
@[simp] theorem recordCmdWhileBusy_namebuf (s : State) : (recordCmdWhileBusy s).namebuf = s.namebuf := rfl
@[simp] theorem recordCmdWhileBusy_paybuf (s : State) : (recordCmdWhileBusy s).paybuf = s.paybuf := rfl
@[simp] theorem recordCmdWhileBusy_outbuf (s : State) : (recordCmdWhileBusy s).outbuf = s.outbuf := rfl
@[simp] theorem recordCmdWhileBusy_arcbuf (s : State) : (recordCmdWhileBusy s).arcbuf = s.arcbuf := rfl
@[simp] theorem recordCmdWhileBusy_freq (s : State) : (recordCmdWhileBusy s).freq = s.freq := rfl
@[simp] theorem recordCmdWhileBusy_nodes (s : State) : (recordCmdWhileBusy s).nodes = s.nodes := rfl
@[simp] theorem recordCmdWhileBusy_clen (s : State) : (recordCmdWhileBusy s).clen = s.clen := rfl
@[simp] theorem recordCmdWhileBusy_cbit (s : State) : (recordCmdWhileBusy s).cbit = s.cbit := rfl
@[simp] theorem recordCmdWhileBusy_dtab (s : State) : (recordCmdWhileBusy s).dtab = s.dtab := rfl
@[simp] theorem recordCmdWhileBusy_inputs (s : State) : (recordCmdWhileBusy s).inputs = s.inputs := rfl
@[simp] theorem recordCmdWhileBusy_observed (s : State) : (recordCmdWhileBusy s).observed = s.observed := rfl
@[simp] theorem recordCmdWhileBusy_checks (s : State) : (recordCmdWhileBusy s).checks = s.checks := rfl
@[simp] theorem recordCmdWhileBusy_draws (s : State) : (recordCmdWhileBusy s).draws = s.draws := rfl

@[simp] theorem recordUnwrittenRead_params (s : State) : (recordUnwrittenRead s).params = s.params := rfl
@[simp] theorem recordUnwrittenRead_status (s : State) : (recordUnwrittenRead s).status = s.status := rfl
@[simp] theorem recordUnwrittenRead_inLen (s : State) : (recordUnwrittenRead s).inLen = s.inLen := rfl
@[simp] theorem recordUnwrittenRead_nameLen (s : State) : (recordUnwrittenRead s).nameLen = s.nameLen := rfl
@[simp] theorem recordUnwrittenRead_payLen (s : State) : (recordUnwrittenRead s).payLen = s.payLen := rfl
@[simp] theorem recordUnwrittenRead_outLen (s : State) : (recordUnwrittenRead s).outLen = s.outLen := rfl
@[simp] theorem recordUnwrittenRead_arcLen (s : State) : (recordUnwrittenRead s).arcLen = s.arcLen := rfl
@[simp] theorem recordUnwrittenRead_distinct (s : State) : (recordUnwrittenRead s).distinct = s.distinct := rfl
@[simp] theorem recordUnwrittenRead_nodeCount (s : State) : (recordUnwrittenRead s).nodeCount = s.nodeCount := rfl
@[simp] theorem recordUnwrittenRead_root (s : State) : (recordUnwrittenRead s).root = s.root := rfl
@[simp] theorem recordUnwrittenRead_codeCount (s : State) : (recordUnwrittenRead s).codeCount = s.codeCount := rfl
@[simp] theorem recordUnwrittenRead_recCount (s : State) : (recordUnwrittenRead s).recCount = s.recCount := rfl
@[simp] theorem recordUnwrittenRead_recRemain (s : State) : (recordUnwrittenRead s).recRemain = s.recRemain := rfl
@[simp] theorem recordUnwrittenRead_arcCur (s : State) : (recordUnwrittenRead s).arcCur = s.arcCur := rfl
@[simp] theorem recordUnwrittenRead_errInfo (s : State) : (recordUnwrittenRead s).errInfo = s.errInfo := rfl
@[simp] theorem recordUnwrittenRead_pending (s : State) : (recordUnwrittenRead s).pending = s.pending := rfl
@[simp] theorem recordUnwrittenRead_inbuf (s : State) : (recordUnwrittenRead s).inbuf = s.inbuf := rfl
@[simp] theorem recordUnwrittenRead_namebuf (s : State) : (recordUnwrittenRead s).namebuf = s.namebuf := rfl
@[simp] theorem recordUnwrittenRead_paybuf (s : State) : (recordUnwrittenRead s).paybuf = s.paybuf := rfl
@[simp] theorem recordUnwrittenRead_outbuf (s : State) : (recordUnwrittenRead s).outbuf = s.outbuf := rfl
@[simp] theorem recordUnwrittenRead_arcbuf (s : State) : (recordUnwrittenRead s).arcbuf = s.arcbuf := rfl
@[simp] theorem recordUnwrittenRead_freq (s : State) : (recordUnwrittenRead s).freq = s.freq := rfl
@[simp] theorem recordUnwrittenRead_nodes (s : State) : (recordUnwrittenRead s).nodes = s.nodes := rfl
@[simp] theorem recordUnwrittenRead_clen (s : State) : (recordUnwrittenRead s).clen = s.clen := rfl
@[simp] theorem recordUnwrittenRead_cbit (s : State) : (recordUnwrittenRead s).cbit = s.cbit := rfl
@[simp] theorem recordUnwrittenRead_dtab (s : State) : (recordUnwrittenRead s).dtab = s.dtab := rfl
@[simp] theorem recordUnwrittenRead_inputs (s : State) : (recordUnwrittenRead s).inputs = s.inputs := rfl
@[simp] theorem recordUnwrittenRead_observed (s : State) : (recordUnwrittenRead s).observed = s.observed := rfl
@[simp] theorem recordUnwrittenRead_checks (s : State) : (recordUnwrittenRead s).checks = s.checks := rfl
@[simp] theorem recordUnwrittenRead_draws (s : State) : (recordUnwrittenRead s).draws = s.draws := rfl


/-! ### the HOST's `wait` and `expect` (30_encoding.md R87): what their read leaves -/

@[simp] theorem waitAccess_params (n : Nat) (s : State) : (waitAccess n s).params = (hostAccess (.read (hostAddr 0 2)) s).params := rfl
@[simp] theorem waitAccess_status (n : Nat) (s : State) : (waitAccess n s).status = (hostAccess (.read (hostAddr 0 2)) s).status := rfl
@[simp] theorem waitAccess_inLen (n : Nat) (s : State) : (waitAccess n s).inLen = (hostAccess (.read (hostAddr 0 2)) s).inLen := rfl
@[simp] theorem waitAccess_nameLen (n : Nat) (s : State) : (waitAccess n s).nameLen = (hostAccess (.read (hostAddr 0 2)) s).nameLen := rfl
@[simp] theorem waitAccess_payLen (n : Nat) (s : State) : (waitAccess n s).payLen = (hostAccess (.read (hostAddr 0 2)) s).payLen := rfl
@[simp] theorem waitAccess_outLen (n : Nat) (s : State) : (waitAccess n s).outLen = (hostAccess (.read (hostAddr 0 2)) s).outLen := rfl
@[simp] theorem waitAccess_arcLen (n : Nat) (s : State) : (waitAccess n s).arcLen = (hostAccess (.read (hostAddr 0 2)) s).arcLen := rfl
@[simp] theorem waitAccess_distinct (n : Nat) (s : State) : (waitAccess n s).distinct = (hostAccess (.read (hostAddr 0 2)) s).distinct := rfl
@[simp] theorem waitAccess_nodeCount (n : Nat) (s : State) : (waitAccess n s).nodeCount = (hostAccess (.read (hostAddr 0 2)) s).nodeCount := rfl
@[simp] theorem waitAccess_root (n : Nat) (s : State) : (waitAccess n s).root = (hostAccess (.read (hostAddr 0 2)) s).root := rfl
@[simp] theorem waitAccess_codeCount (n : Nat) (s : State) : (waitAccess n s).codeCount = (hostAccess (.read (hostAddr 0 2)) s).codeCount := rfl
@[simp] theorem waitAccess_recCount (n : Nat) (s : State) : (waitAccess n s).recCount = (hostAccess (.read (hostAddr 0 2)) s).recCount := rfl
@[simp] theorem waitAccess_recRemain (n : Nat) (s : State) : (waitAccess n s).recRemain = (hostAccess (.read (hostAddr 0 2)) s).recRemain := rfl
@[simp] theorem waitAccess_arcCur (n : Nat) (s : State) : (waitAccess n s).arcCur = (hostAccess (.read (hostAddr 0 2)) s).arcCur := rfl
@[simp] theorem waitAccess_errInfo (n : Nat) (s : State) : (waitAccess n s).errInfo = (hostAccess (.read (hostAddr 0 2)) s).errInfo := rfl
@[simp] theorem waitAccess_pending (n : Nat) (s : State) : (waitAccess n s).pending = (hostAccess (.read (hostAddr 0 2)) s).pending := rfl
@[simp] theorem waitAccess_inbuf (n : Nat) (s : State) : (waitAccess n s).inbuf = (hostAccess (.read (hostAddr 0 2)) s).inbuf := rfl
@[simp] theorem waitAccess_namebuf (n : Nat) (s : State) : (waitAccess n s).namebuf = (hostAccess (.read (hostAddr 0 2)) s).namebuf := rfl
@[simp] theorem waitAccess_paybuf (n : Nat) (s : State) : (waitAccess n s).paybuf = (hostAccess (.read (hostAddr 0 2)) s).paybuf := rfl
@[simp] theorem waitAccess_outbuf (n : Nat) (s : State) : (waitAccess n s).outbuf = (hostAccess (.read (hostAddr 0 2)) s).outbuf := rfl
@[simp] theorem waitAccess_arcbuf (n : Nat) (s : State) : (waitAccess n s).arcbuf = (hostAccess (.read (hostAddr 0 2)) s).arcbuf := rfl
@[simp] theorem waitAccess_freq (n : Nat) (s : State) : (waitAccess n s).freq = (hostAccess (.read (hostAddr 0 2)) s).freq := rfl
@[simp] theorem waitAccess_nodes (n : Nat) (s : State) : (waitAccess n s).nodes = (hostAccess (.read (hostAddr 0 2)) s).nodes := rfl
@[simp] theorem waitAccess_clen (n : Nat) (s : State) : (waitAccess n s).clen = (hostAccess (.read (hostAddr 0 2)) s).clen := rfl
@[simp] theorem waitAccess_cbit (n : Nat) (s : State) : (waitAccess n s).cbit = (hostAccess (.read (hostAddr 0 2)) s).cbit := rfl
@[simp] theorem waitAccess_dtab (n : Nat) (s : State) : (waitAccess n s).dtab = (hostAccess (.read (hostAddr 0 2)) s).dtab := rfl
@[simp] theorem waitAccess_faults (n : Nat) (s : State) : (waitAccess n s).faults = (hostAccess (.read (hostAddr 0 2)) s).faults := rfl
@[simp] theorem waitAccess_observed (n : Nat) (s : State) : (waitAccess n s).observed = (hostAccess (.read (hostAddr 0 2)) s).observed := rfl
@[simp] theorem waitAccess_checks (n : Nat) (s : State) : (waitAccess n s).checks = (hostAccess (.read (hostAddr 0 2)) s).checks := rfl
@[simp] theorem waitAccess_draws (n : Nat) (s : State) : (waitAccess n s).draws = (hostAccess (.read (hostAddr 0 2)) s).draws := rfl

@[simp] theorem expectAccess_params (a v : Word) (s : State) : (expectAccess a v s).params = (hostAccess (.read a) s).params := rfl
@[simp] theorem expectAccess_status (a v : Word) (s : State) : (expectAccess a v s).status = (hostAccess (.read a) s).status := rfl
@[simp] theorem expectAccess_inLen (a v : Word) (s : State) : (expectAccess a v s).inLen = (hostAccess (.read a) s).inLen := rfl
@[simp] theorem expectAccess_nameLen (a v : Word) (s : State) : (expectAccess a v s).nameLen = (hostAccess (.read a) s).nameLen := rfl
@[simp] theorem expectAccess_payLen (a v : Word) (s : State) : (expectAccess a v s).payLen = (hostAccess (.read a) s).payLen := rfl
@[simp] theorem expectAccess_outLen (a v : Word) (s : State) : (expectAccess a v s).outLen = (hostAccess (.read a) s).outLen := rfl
@[simp] theorem expectAccess_arcLen (a v : Word) (s : State) : (expectAccess a v s).arcLen = (hostAccess (.read a) s).arcLen := rfl
@[simp] theorem expectAccess_distinct (a v : Word) (s : State) : (expectAccess a v s).distinct = (hostAccess (.read a) s).distinct := rfl
@[simp] theorem expectAccess_nodeCount (a v : Word) (s : State) : (expectAccess a v s).nodeCount = (hostAccess (.read a) s).nodeCount := rfl
@[simp] theorem expectAccess_root (a v : Word) (s : State) : (expectAccess a v s).root = (hostAccess (.read a) s).root := rfl
@[simp] theorem expectAccess_codeCount (a v : Word) (s : State) : (expectAccess a v s).codeCount = (hostAccess (.read a) s).codeCount := rfl
@[simp] theorem expectAccess_recCount (a v : Word) (s : State) : (expectAccess a v s).recCount = (hostAccess (.read a) s).recCount := rfl
@[simp] theorem expectAccess_recRemain (a v : Word) (s : State) : (expectAccess a v s).recRemain = (hostAccess (.read a) s).recRemain := rfl
@[simp] theorem expectAccess_arcCur (a v : Word) (s : State) : (expectAccess a v s).arcCur = (hostAccess (.read a) s).arcCur := rfl
@[simp] theorem expectAccess_errInfo (a v : Word) (s : State) : (expectAccess a v s).errInfo = (hostAccess (.read a) s).errInfo := rfl
@[simp] theorem expectAccess_pending (a v : Word) (s : State) : (expectAccess a v s).pending = (hostAccess (.read a) s).pending := rfl
@[simp] theorem expectAccess_inbuf (a v : Word) (s : State) : (expectAccess a v s).inbuf = (hostAccess (.read a) s).inbuf := rfl
@[simp] theorem expectAccess_namebuf (a v : Word) (s : State) : (expectAccess a v s).namebuf = (hostAccess (.read a) s).namebuf := rfl
@[simp] theorem expectAccess_paybuf (a v : Word) (s : State) : (expectAccess a v s).paybuf = (hostAccess (.read a) s).paybuf := rfl
@[simp] theorem expectAccess_outbuf (a v : Word) (s : State) : (expectAccess a v s).outbuf = (hostAccess (.read a) s).outbuf := rfl
@[simp] theorem expectAccess_arcbuf (a v : Word) (s : State) : (expectAccess a v s).arcbuf = (hostAccess (.read a) s).arcbuf := rfl
@[simp] theorem expectAccess_freq (a v : Word) (s : State) : (expectAccess a v s).freq = (hostAccess (.read a) s).freq := rfl
@[simp] theorem expectAccess_nodes (a v : Word) (s : State) : (expectAccess a v s).nodes = (hostAccess (.read a) s).nodes := rfl
@[simp] theorem expectAccess_clen (a v : Word) (s : State) : (expectAccess a v s).clen = (hostAccess (.read a) s).clen := rfl
@[simp] theorem expectAccess_cbit (a v : Word) (s : State) : (expectAccess a v s).cbit = (hostAccess (.read a) s).cbit := rfl
@[simp] theorem expectAccess_dtab (a v : Word) (s : State) : (expectAccess a v s).dtab = (hostAccess (.read a) s).dtab := rfl
@[simp] theorem expectAccess_faults (a v : Word) (s : State) : (expectAccess a v s).faults = (hostAccess (.read a) s).faults := rfl
@[simp] theorem expectAccess_inputs (a v : Word) (s : State) : (expectAccess a v s).inputs = (hostAccess (.read a) s).inputs := rfl
@[simp] theorem expectAccess_observed (a v : Word) (s : State) : (expectAccess a v s).observed = (hostAccess (.read a) s).observed := rfl
@[simp] theorem expectAccess_draws (a v : Word) (s : State) : (expectAccess a v s).draws = (hostAccess (.read a) s).draws := rfl

end Sys2Proof.Machine
end

