-- ==== Sys2Proof/Laws/Run.lean ====
section
/-! SUPPORT. The run of a command (60_exceptions.md R250, R253, R254): what a piece of pseudocode gives when it reads only written cells
(`Gives`, `Raises`), what holds of every result it can give (`Post`), and the two ways a command can end. -/

namespace Sys2Proof.Machine

variable {α β : Type}

/-- The piece reads no unwritten cell and answers `a`. -/
def Eng.Gives (m : Eng α) (a : α) : Prop := ∀ d, m d = (.ok a, d)

/-- The piece reads no unwritten cell and ends in `raise e(info)`. -/
def Eng.Raises (m : Eng α) (e : ErrCode) (info : Nat) : Prop := ∀ d, m d = (.error { code := e, info := info }, d)

/-- Whatever the piece reads, a result it answers meets `P`. -/
def Eng.Post (m : Eng α) (P : α → Prop) : Prop := ∀ d a d', m d = (.ok a, d') → P a

/-- Whatever the piece reads, a `raise` it ends in meets `P`. -/
def Eng.PostErr (m : Eng α) (P : Raise → Prop) : Prop := ∀ d r d', m d = (.error r, d') → P r

/-- Free values are taken off the counter, never put back. -/
def Eng.Mono (m : Eng α) : Prop := ∀ d, d ≤ (m d).2

/-! ### Sequencing -/

theorem Eng.andThen_ok {m : Eng α} {f : α → Eng β} {d d' : Nat} {a : α} (h : m d = (.ok a, d')) :
    (m.andThen f) d = f a d' := by simp [Eng.andThen, h]

theorem Eng.andThen_error {m : Eng α} {f : α → Eng β} {d d' : Nat} {r : Raise} (h : m d = (.error r, d')) :
    (m.andThen f) d = (.error r, d') := by simp [Eng.andThen, h]

/-- A sequence ends in its first part's `raise`, or in what its second part does after it. -/
theorem Eng.andThen_cases (m : Eng α) (f : α → Eng β) (d : Nat) :
    (∃ r d', m d = (.error r, d') ∧ (m.andThen f) d = (.error r, d')) ∨
    (∃ a d', m d = (.ok a, d') ∧ (m.andThen f) d = f a d') := by
  rcases h : m d with ⟨r | a, d'⟩
  · exact .inl ⟨r, d', rfl, Eng.andThen_error h⟩
  · exact .inr ⟨a, d', rfl, Eng.andThen_ok h⟩

/-! ### Gives and Raises -/

theorem Eng.gives_ret (a : α) : Eng.Gives (Eng.ret a) a := fun _ => rfl

theorem Eng.Gives.andThen {m : Eng α} {f : α → Eng β} {a : α} {b : β} (hm : m.Gives a) (hf : (f a).Gives b) :
    (m.andThen f).Gives b := fun d => by rw [Eng.andThen_ok (hm d), hf d]

theorem Eng.Gives.andThen_raises {m : Eng α} {f : α → Eng β} {a : α} {e : ErrCode} {n : Nat} (hm : m.Gives a)
    (hf : (f a).Raises e n) : (m.andThen f).Raises e n := fun d => by rw [Eng.andThen_ok (hm d), hf d]

theorem Eng.Raises.andThen {m : Eng α} {f : α → Eng β} {e : ErrCode} {n : Nat} (hm : m.Raises e n) :
    (m.andThen f).Raises e n := fun d => by rw [Eng.andThen_error (hm d)]

theorem Eng.raiseIf_false (e : ErrCode) (n : Nat) : (Eng.raiseIf false e n).Gives () := fun _ => rfl

theorem Eng.raiseIf_true (e : ErrCode) (n : Nat) : (Eng.raiseIf true e n).Raises e n := fun _ => rfl

theorem Eng.raiseIf_gives {c : Bool} (e : ErrCode) (n : Nat) (h : c = false) : (Eng.raiseIf c e n).Gives () := by
  subst h
  exact Eng.raiseIf_false e n

theorem Eng.raiseIf_raises {c : Bool} (e : ErrCode) (n : Nat) (h : c = true) : (Eng.raiseIf c e n).Raises e n := by
  subst h
  exact Eng.raiseIf_true e n

theorem memRead_gives {free : Nat → α} {c : Cells α} {i : Nat} {v : α} (h : Cells.get c i = some v) :
    (memRead free c i).Gives v := fun d => by simp [memRead, h]

theorem memReads_gives {free : Nat → α} {c : Cells α} {vs : List α} {i : Nat} (h : Cells.holds c i vs) :
    (memReads free c i vs.length).Gives vs := by
  induction vs generalizing i with
  | nil => exact Eng.gives_ret []
  | cons v vs ih =>
    obtain ⟨h0, h1⟩ := Cells.holds_cons.1 h
    exact (memRead_gives h0).andThen ((ih h1).andThen (Eng.gives_ret _))

/-! ### Post -/

theorem Eng.post_ret {a : α} {P : α → Prop} (h : P a) : (Eng.ret a).Post P := by
  intro d a' d' he
  cases he
  exact h

theorem Eng.post_fail {e : ErrCode} {n : Nat} {P : α → Prop} : (Eng.fail e n : Eng α).Post P := by
  intro d a d' he
  cases he

theorem Eng.Post.andThen {m : Eng α} {f : α → Eng β} {P : α → Prop} {Q : β → Prop} (hm : m.Post P)
    (hf : ∀ a, P a → (f a).Post Q) : (m.andThen f).Post Q := by
  intro d b d' he
  rcases Eng.andThen_cases m f d with ⟨r, d1, h1, h2⟩ | ⟨a, d1, h1, h2⟩
  · rw [h2] at he
    cases he
  · rw [h2] at he
    exact hf a (hm d a d1 h1) d1 b d' he

theorem Eng.post_true (m : Eng α) : m.Post fun _ => True := fun _ _ _ _ => trivial

theorem Eng.post_raiseIf (c : Bool) (e : ErrCode) (n : Nat) : (Eng.raiseIf c e n).Post fun _ => c = false := by
  intro d a d' he
  cases c
  · rfl
  · cases he

theorem Eng.Post.mono {m : Eng α} {P Q : α → Prop} (h : m.Post P) (hpq : ∀ a, P a → Q a) : m.Post Q :=
  fun d a d' he => hpq a (h d a d' he)

theorem Eng.Gives.post {m : Eng α} {a : α} (h : m.Gives a) {P : α → Prop} (hp : P a) : m.Post P := by
  intro d a' d' he
  rw [h d] at he
  cases he
  exact hp

theorem memReads_length (free : Nat → α) (c : Cells α) (n i : Nat) :
    (memReads free c i n).Post fun vs => vs.length = n := by
  induction n generalizing i with
  | zero => exact Eng.post_ret rfl
  | succ n ih =>
    exact (Eng.post_true _).andThen fun v _ => (ih (i + 1)).andThen fun vs h => Eng.post_ret (by simp [h])

/-! ### PostErr: which errors a piece can raise -/

theorem Eng.postErr_ret {a : α} {P : Raise → Prop} : (Eng.ret a).PostErr P := by
  intro d r d' he
  cases he

theorem Eng.postErr_fail {e : ErrCode} {n : Nat} {P : Raise → Prop} (h : P { code := e, info := n }) :
    (Eng.fail e n : Eng α).PostErr P := by
  intro d r d' he
  cases he
  exact h

theorem Eng.PostErr.andThen {m : Eng α} {f : α → Eng β} {P : Raise → Prop} (hm : m.PostErr P)
    (hf : ∀ a, (f a).PostErr P) : (m.andThen f).PostErr P := by
  intro d r d' he
  rcases Eng.andThen_cases m f d with ⟨r1, d1, h1, h2⟩ | ⟨a, d1, h1, h2⟩
  · rw [h2] at he
    cases he
    exact hm d r d' h1
  · rw [h2] at he
    exact hf a d1 r d' he

theorem Eng.postErr_raiseIf {c : Bool} {e : ErrCode} {n : Nat} {P : Raise → Prop} (h : c = true → P { code := e, info := n }) :
    (Eng.raiseIf c e n).PostErr P := by
  cases c
  · exact Eng.postErr_ret
  · exact Eng.postErr_fail (h rfl)

theorem memRead_postErr (free : Nat → α) (c : Cells α) (i : Nat) (P : Raise → Prop) : (memRead free c i).PostErr P := by
  intro d r d' he
  unfold memRead at he
  split at he <;> cases he

theorem memReads_postErr (free : Nat → α) (c : Cells α) (n i : Nat) (P : Raise → Prop) :
    (memReads free c i n).PostErr P := by
  induction n generalizing i with
  | zero => exact Eng.postErr_ret
  | succ n ih => exact (memRead_postErr free c i P).andThen fun v => (ih (i + 1)).andThen fun vs => Eng.postErr_ret

/-! ### The two ways a command ends -/

theorem runCommand_gives {m : Eng State} {s t : State} (ds : List Dest) (h : m.Gives t) (hd : t.draws = s.draws) :
    runCommand ds m s = .next (successCompletion t) := by
  unfold runCommand
  rw [h s.draws]
  simp only [State.noteReads, successCompletion_draws, hd, if_true]

theorem runCommand_raises {m : Eng State} {s : State} {e : ErrCode} {n : Nat} (ds : List Dest) (h : m.Raises e n)
    (hd : (errorCompletion ds { code := e, info := n } s).draws = s.draws) :
    runCommand ds m s = .next (errorCompletion ds { code := e, info := n } s) := by
  unfold runCommand
  rw [h s.draws]
  simp only [State.noteReads, hd, if_true]

/-- Every command ends in a next state (R83, R250). -/
theorem runCommand_total (ds : List Dest) (m : Eng State) (s : State) : ∃ t, runCommand ds m s = .next t := by
  unfold runCommand
  rcases m s.draws with ⟨r | t, d⟩
  · exact ⟨_, rfl⟩
  · exact ⟨_, rfl⟩

/-- What a next state of a command can be: success completion of what the pseudocode answers, or error completion (R253, R254). -/
theorem runCommand_cases {ds : List Dest} {m : Eng State} {s t : State} (h : runCommand ds m s = .next t) :
    (∃ u d, m s.draws = (.ok u, d) ∧ t = (successCompletion u).noteReads d) ∨
    (∃ r d, m s.draws = (.error r, d) ∧ t = (errorCompletion ds r s).noteReads d) := by
  unfold runCommand at h
  rcases hm : m s.draws with ⟨r | u, d⟩ <;> rw [hm] at h <;> cases h
  · exact .inr ⟨r, d, rfl, rfl⟩
  · exact .inl ⟨u, d, rfl, rfl⟩

end Sys2Proof.Machine
end

