-- ==== Sys2Proof/Laws/Tables.lean ====
section
/-! SUPPORT. The code table (10_state.md R42): what a list of entries leaves in CLEN and CBIT, its canonical form and bounds, and reading it
back. -/

namespace Sys2Proof.Machine

/-! ### Lists of entries -/

theorem codeIn_nil (sym : Nat) : codeIn [] sym = [] := rfl

theorem codeIn_cons (e : Byte × Code) (ct : List (Byte × Code)) (sym : Nat) :
    codeIn (e :: ct) sym = if e.1.toNat = sym then e.2 else codeIn ct sym := by
  unfold codeIn
  rw [List.find?_cons]
  by_cases h : e.1.toNat = sym
  · simp [h]
  · have h' : (e.1.toNat == sym) = false := by simpa using h
    simp only [h', if_neg h]

/-- A symbol that no entry has has no code. -/
theorem codeIn_of_not_mem {ct : List (Byte × Code)} {sym : Nat} (h : ∀ e ∈ ct, e.1.toNat ≠ sym) : codeIn ct sym = [] := by
  induction ct with
  | nil => rfl
  | cons e ct ih =>
    rw [codeIn_cons, if_neg (h e (by simp))]
    exact ih fun e he => h e (by simp [he])

/-- With distinct symbols each entry's symbol has the entry's code. -/
theorem codeIn_of_mem {ct : List (Byte × Code)} (hn : (ct.map Prod.fst).Nodup) {e : Byte × Code} (h : e ∈ ct) :
    codeIn ct e.1.toNat = e.2 := by
  induction ct with
  | nil => simp at h
  | cons x ct ih =>
    rw [List.map_cons, List.nodup_cons] at hn
    rw [codeIn_cons]
    rcases List.mem_cons.1 h with rfl | h
    · simp
    · rw [if_neg, ih hn.2 h]
      intro he
      exact hn.1 (List.mem_map.2 ⟨e, h, (BitVec.eq_of_toNat_eq he).symm⟩)

/-- A code comes from an entry, or is no code. -/
theorem codeIn_mem (ct : List (Byte × Code)) (sym : Nat) :
    codeIn ct sym = [] ∨ ∃ e ∈ ct, e.1.toNat = sym ∧ e.2 = codeIn ct sym := by
  induction ct with
  | nil => exact .inl rfl
  | cons e ct ih =>
    rw [codeIn_cons]
    by_cases h : e.1.toNat = sym
    · exact .inr ⟨e, by simp, h, by simp [h]⟩
    · rw [if_neg h]
      rcases ih with ih | ⟨x, hx, h1, h2⟩
      · exact .inl ih
      · exact .inr ⟨x, by simp [hx], h1, h2⟩

/-- Every code of the entries has at most `k` bits, so every code of the table has. -/
theorem codeIn_length {ct : List (Byte × Code)} {k : Nat} (h : ∀ e ∈ ct, e.2.length ≤ k) (sym : Nat) : (codeIn ct sym).length ≤ k := by
  rcases codeIn_mem ct sym with h0 | ⟨e, he, _, h2⟩
  · simp [h0]
  · rw [← h2]
    exact h e he

theorem tableOf_of_mem {ct : List (Byte × Code)} (hn : (ct.map Prod.fst).Nodup) {e : Byte × Code} (h : e ∈ ct) :
    tableOf ct e.1 = e.2 := codeIn_of_mem hn h

theorem tableOf_mem {ct : List (Byte × Code)} {sym : Byte} (h : tableOf ct sym ≠ []) : (sym, tableOf ct sym) ∈ ct := by
  rcases codeIn_mem ct sym.toNat with h0 | ⟨e, he, h1, h2⟩
  · exact absurd h0 h
  · have : e.1 = sym := BitVec.eq_of_toNat_eq h1
    rw [← this]
    unfold tableOf
    rw [h1, ← h2]
    exact he

theorem tableOf_nil (sym : Byte) : tableOf [] sym = [] := rfl

/-- With distinct symbols and no empty code, a symbol has a code exactly when it has an entry. -/
theorem tableOf_ne_nil {ct : List (Byte × Code)} (hn : (ct.map Prod.fst).Nodup) (h1 : ∀ e ∈ ct, 1 ≤ e.2.length) (sym : Byte) :
    tableOf ct sym ≠ [] ↔ sym ∈ ct.map Prod.fst := by
  constructor
  · intro h
    exact List.mem_map.2 ⟨_, tableOf_mem h, rfl⟩
  · intro h
    obtain ⟨e, he, rfl⟩ := List.mem_map.1 h
    rw [tableOf_of_mem hn he]
    intro h0
    have := h1 e he
    simp [h0] at this

/-- Distinct symbols and distinct codes: no two symbols of the table share a code (R161). -/
theorem codesDiffer_tableOf {ct : List (Byte × Code)} (hc : (ct.map Prod.snd).Nodup) : CodesDiffer (tableOf ct) := by
  intro x y hx hxy
  have h1 := tableOf_mem hx
  have h2 := tableOf_mem (ct := ct) (sym := y) (by rw [← hxy]; exact hx)
  rw [← hxy] at h2
  have := List.inj_on_of_nodup_map hc h1 h2 rfl
  exact congrArg Prod.fst this

/-! ### CLEN -/

theorem mem_symbols {sym : Nat} : sym ∈ symbols ↔ sym < 256 := by
  unfold symbols
  exact List.mem_range

theorem symbols_length : symbols.length = 256 := by
  unfold symbols
  exact List.length_range

/-- CLEN is written for every symbol (R120, R192). -/
theorem get_clenOf (ct : List (Byte × Code)) {sym : Nat} (h : sym < 256) :
    Cells.get (clenOf ct) sym = some (byte (codeIn ct sym).length) := by
  unfold clenOf
  rw [Cells.get_cellsFrom, if_pos (Nat.zero_le _), Nat.sub_zero, List.getElem?_map]
  unfold symbols Config.nsym
  rw [List.getElem?_range h]
  rfl

theorem clenOf_wf (ct : List (Byte × Code)) : Cells.wf (clenOf ct) := cellsFrom_wf _ _

theorem mem_clenOf {ct : List (Byte × Code)} {e : Nat × Byte} (h : e ∈ clenOf ct) : e.1 < 256 := by
  have := (mem_cellsFrom_bounds h).2
  rw [List.length_map, symbols_length] at this
  omega

/-! ### CBIT -/

theorem get_flatMap_range' (f : Nat → Code) (hf : ∀ sym, (f sym).length ≤ 256) (n a i : Nat) :
    Cells.get ((List.range' a n).flatMap fun sym => cellsFrom (cbitBase sym) (f sym)) i =
      if a ≤ i / 256 ∧ i / 256 < a + n then (f (i / 256))[i % 256]? else none := by
  induction n generalizing a with
  | zero => simp
  | succ n ih =>
    rw [List.range'_succ, List.flatMap_cons, Cells.get_append, ih, Cells.get_cellsFrom]
    unfold cbitBase
    have hd : i = 256 * (i / 256) + i % 256 := by omega
    by_cases h : a = i / 256
    · have h1 : a * 256 ≤ i := by omega
      have h2 : i - a * 256 = i % 256 := by omega
      rw [if_pos h1, h2, h]
      rw [if_neg (show ¬ (i / 256 + 1 ≤ i / 256 ∧ i / 256 < i / 256 + 1 + n) by omega), Option.or_none,
        if_pos (show i / 256 ≤ i / 256 ∧ i / 256 < i / 256 + (n + 1) by omega)]
    · have h1 : (if a * 256 ≤ i then (f a)[i - a * 256]? else none) = none := by
        by_cases h2 : a * 256 ≤ i
        · rw [if_pos h2]
          have := hf a
          exact List.getElem?_eq_none (by omega)
        · rw [if_neg h2]
      rw [h1, Option.none_or]
      by_cases h3 : a + 1 ≤ i / 256 ∧ i / 256 < a + 1 + n
      · rw [if_pos h3, if_pos (by omega)]
      · rw [if_neg h3, if_neg (by omega)]

/-- CBIT[s][j] is written exactly for j below the length of the code of s (R42). -/
theorem get_cbitOf {ct : List (Byte × Code)} (h : ∀ e ∈ ct, e.2.length ≤ 255) (i : Nat) :
    Cells.get (cbitOf ct) i = if i / 256 < 256 then (codeIn ct (i / 256))[i % 256]? else none := by
  unfold cbitOf symbols
  rw [List.range_eq_range', get_flatMap_range' (codeIn ct) (fun sym => (codeIn_length h sym).trans (by decide))]
  simp only [Nat.zero_le, true_and, Nat.zero_add, Config.nsym]

theorem cbitOf_wf {ct : List (Byte × Code)} (h : ∀ e ∈ ct, e.2.length ≤ 255) : Cells.wf (cbitOf ct) := by
  unfold cbitOf Cells.wf
  rw [List.pairwise_flatMap]
  refine ⟨fun sym _ => cellsFrom_wf _ _, ?_⟩
  unfold symbols
  refine List.Pairwise.imp ?_ List.pairwise_lt_range
  intro a b hab x hx y hy
  have h1 := (mem_cellsFrom_bounds hx).2
  have h2 := (mem_cellsFrom_bounds hy).1
  have h3 := codeIn_length h a
  unfold cbitBase at h1 h2
  omega

theorem mem_cbitOf {ct : List (Byte × Code)} (h : ∀ e ∈ ct, e.2.length ≤ 255) {e : Nat × Bool} (he : e ∈ cbitOf ct) :
    e.1 < Config.nsym * 256 ∧ e.1 % 256 < Config.maxCodeLen := by
  unfold cbitOf at he
  rw [List.mem_flatMap] at he
  obtain ⟨sym, hs, he⟩ := he
  have h1 := mem_cellsFrom_bounds he
  have h2 := codeIn_length h sym
  have h3 := mem_symbols.1 hs
  unfold cbitBase at h1
  unfold Config.nsym Config.maxCodeLen
  omega

/-! ### The table whole -/

theorem byte_toNat {n : Nat} (h : n ≤ 255) : (byte n).toNat = n := by
  unfold byte
  rw [BitVec.toNat_ofNat]
  exact Nat.mod_eq_of_lt (by omega)

theorem word_toNat {n : Nat} (h : n < 2 ^ 64) : (word n).toNat = n := by
  unfold word
  rw [BitVec.toNat_ofNat]
  exact Nat.mod_eq_of_lt h

theorem word_of_toNat (w : Word) : word w.toNat = w := by
  unfold word
  rw [BitVec.ofNat_toNat, BitVec.setWidth_eq]

theorem byte_of_toNat (b : Byte) : byte b.toNat = b := by
  unfold byte
  rw [BitVec.ofNat_toNat, BitVec.setWidth_eq]

/-- What a writer of the table leaves is the table of its entries (R42). -/
theorem ctabIs_of {ct : List (Byte × Code)} (h : ∀ e ∈ ct, e.2.length ≤ 255) {t : State} (h1 : t.clen = clenOf ct)
    (h2 : t.cbit = cbitOf ct) : CtabIs t (tableOf ct) := by
  intro sym
  refine ⟨codeIn_length h _, ?_, ?_⟩
  · rw [h1]
    exact get_clenOf ct sym.isLt
  · intro j hj
    have h3 := codeIn_length h sym.toNat
    have h4 : j < (codeIn ct sym.toNat).length := hj
    have e1 : (sym.toNat * 256 + j) / 256 = sym.toNat := by omega
    have e2 : (sym.toNat * 256 + j) % 256 = j := by omega
    rw [h2, get_cbitOf h, e1, e2, if_pos sym.isLt]
    exact List.getElem?_eq_getElem hj

/-- It writes no CBIT cell past a code (R42). -/
theorem ctabExactly_of {ct : List (Byte × Code)} (h : ∀ e ∈ ct, e.2.length ≤ 255) {t : State} (h1 : t.clen = clenOf ct)
    (h2 : t.cbit = cbitOf ct) : CtabExactly t (tableOf ct) := by
  refine ⟨ctabIs_of h h1 h2, fun sym j hj hj2 => ?_⟩
  rw [h2, get_cbitOf h, show (sym.toNat * 256 + j) / 256 = sym.toNat by omega, show (sym.toNat * 256 + j) % 256 = j by omega,
    if_pos sym.isLt]
  exact List.getElem?_eq_none hj

theorem cbitOf_nil : cbitOf [] = [] := by
  have : ∀ l : List Nat, (l.flatMap fun sym => cellsFrom (cbitBase sym) (codeIn [] sym)) = [] := by
    intro l
    induction l <;> simp_all [codeIn_nil, cellsFrom]
  exact this _

/-- The symbols with a code are those to which the entries give one (R32). -/
theorem codedSymbols_of {ct : List (Byte × Code)} (h : ∀ e ∈ ct, e.2.length ≤ 255) {t : State} (h1 : t.clen = clenOf ct) :
    (codedSymbols t).length = codeCountOf ct := by
  unfold codedSymbols codeCountOf
  rw [List.countP_eq_length_filter]
  congr 1
  refine List.filter_congr fun sym hs => ?_
  rw [h1, get_clenOf ct (mem_symbols.1 hs)]
  simp only [byte_toNat (codeIn_length h sym)]
  cases codeIn ct sym <;> simp

/-- An unwritten table counts no symbol (R32). -/
theorem codedSymbols_nil {t : State} (h : t.clen = []) : codedSymbols t = [] := by
  unfold codedSymbols
  rw [h, List.filter_eq_nil_iff]
  exact fun _ _ => Bool.false_ne_true

theorem presentSymbols_nil {t : State} (h : t.freq = []) : presentSymbols t = [] := by
  unfold presentSymbols
  rw [h, List.filter_eq_nil_iff]
  exact fun _ _ => Bool.false_ne_true

theorem codeCountOf_le (ct : List (Byte × Code)) : codeCountOf ct ≤ 256 := by
  unfold codeCountOf
  exact List.countP_le_length.trans (by rw [symbols_length])

/-- With distinct symbols and no empty code, the table has as many codes as entries (R32). -/
theorem codeCountOf_eq {ct : List (Byte × Code)} (hn : (ct.map Prod.fst).Nodup) (h1 : ∀ e ∈ ct, 1 ≤ e.2.length) :
    codeCountOf ct = ct.length := by
  unfold codeCountOf
  rw [List.countP_eq_length_filter, ← List.length_map (f := fun e : Byte × Code => e.1.toNat) (as := ct)]
  refine List.Perm.length_eq ?_
  have hs : symbols.Nodup := List.nodup_range
  have hn' : (ct.map fun e : Byte × Code => e.1.toNat).Nodup := by
    have : ct.map (fun e : Byte × Code => e.1.toNat) = (ct.map Prod.fst).map BitVec.toNat := by simp
    rw [this]
    exact hn.map fun x y h => BitVec.eq_of_toNat_eq h
  refine (List.perm_ext_iff_of_nodup (hs.filter _) hn').2 fun sym => ?_
  rw [List.mem_filter, mem_symbols, List.mem_map]
  constructor
  · rintro ⟨_, h⟩
    rcases codeIn_mem ct sym with h0 | ⟨e, he, h2, _⟩
    · simp [h0] at h
    · exact ⟨e, he, h2⟩
  · rintro ⟨e, he, rfl⟩
    refine ⟨e.1.isLt, ?_⟩
    rw [codeIn_of_mem hn he]
    have := h1 e he
    cases h : e.2
    · simp [h] at this
    · rfl

/-! ### Reading a table -/

/-- The length of a symbol's code, read from a table (R42). -/
theorem readLen_gives {s : State} {f : Byte → Code} (h : CtabIs s f) (sym : Byte) :
    (readByte s.clen sym.toNat).Gives (byte (f sym).length) := memRead_gives (h sym).2.1

/-- The code of a symbol, read from a table (R42). -/
theorem readCode_gives {s : State} {f : Byte → Code} (h : CtabIs s f) (sym : Byte) :
    (readCode s sym.toNat (f sym).length).Gives (f sym) := memReads_gives (h sym).2.2

end Sys2Proof.Machine
end

