-- ==== Sys2Proof/Laws/Merge.lean ====
section
/-! SUPPORT. The merge loop of BUILD (40_huffman.md R110 to R113): whatever tie-break picks the members, the nodes made are one tree over the
leaves given. -/

namespace Sys2Proof.Machine

/-! ### The choice -/

theorem pqMin_mem (k : PQKey) (ks : List PQKey) : pqMin k ks ∈ k :: ks := by
  induction ks generalizing k with
  | nil => simp [pqMin]
  | cons x xs ih =>
    rw [pqMin]
    rcases List.mem_cons.1 (ih (if keyLt x k = true then x else k)) with h | h
    · rw [h]
      split <;> simp
    · simp [h]

theorem pickOf_mem (tb : TieBreak) (k : PQKey) (ks : List PQKey) : pickOf tb k ks ∈ k :: ks := by
  cases tb
  exact pqMin_mem k ks

/-! ### Nodes in the arena -/

theorem get_arena (arena : List Node) (i : Nat) : Cells.get (cellsFrom 0 arena) i = arena[i]? := by
  rw [Cells.get_cellsFrom, if_pos (Nat.zero_le i), Nat.sub_zero]

/-- A tree stays where it is when nodes are added. -/
theorem Represents.append {arena : List Node} {i : Nat} {t : CodeTree} (h : Represents (cellsFrom 0 arena) i t) (ns : List Node) :
    Represents (cellsFrom 0 (arena ++ ns)) i t := by
  have e : ∀ j n, Cells.get (cellsFrom 0 arena) j = some n → Cells.get (cellsFrom 0 (arena ++ ns)) j = some n := by
    intro j n hj
    rw [get_arena] at hj ⊢
    rw [List.getElem?_append_left (List.getElem?_eq_some_iff.1 hj).1, hj]
  induction t generalizing i with
  | leaf w sym => exact e _ _ h
  | fork w l r ihl ihr =>
    obtain ⟨a, b, h1, h2, h3⟩ := h
    exact ⟨a, b, e _ _ h1, ihl h2, ihr h3⟩

theorem childIds_append (xs ys : List Node) : childIds (xs ++ ys) = childIds xs ++ childIds ys := by
  induction xs with
  | nil => rfl
  | cons n xs ih => cases n <;> simp [childIds, ih]

theorem childIds_leaves {ns : List Node} (h : ∀ n ∈ ns, ∃ w sym, n = Node.leaf w sym) : childIds ns = [] := by
  induction ns with
  | nil => rfl
  | cons n ns ih =>
    obtain ⟨w, sym, rfl⟩ := h n (by simp)
    exact ih fun m hm => h m (by simp [hm])

/-- The symbol and weight of a leaf. -/
def leafEntry : Node → Option (Byte × Word)
  | .leaf w sym => some (sym, w)
  | .inner _ _ _ => none

/-- The tree that a leaf is. -/
def leafTree : Option Node → CodeTree
  | some (.leaf w sym) => .leaf w sym
  | _ => .leaf 0 0

/-- What holds before every pass of the loop: the nodes made are the leaves and internal nodes; every id is a child or a member of the
collection, once; each member is a tree, and the members' trees hold the leaves between them. -/
structure MergeInv (leaves : List Node) (T : Nat → CodeTree) (arena : List Node) (p : List PQKey) : Prop where
  grown : ∃ ins, arena = leaves ++ ins ∧ ∀ n ∈ ins, ∃ w a b, n = Node.inner w a b
  count : arena.length + p.length = 2 * leaves.length
  ids : (childIds arena ++ p.map Prod.snd).Perm (List.range arena.length)
  rep : ∀ k ∈ p, Represents (cellsFrom 0 arena) k.2 (T k.2)
  leaf : (p.flatMap fun k => (T k.2).leaves).Perm (leaves.filterMap leafEntry)
  total : (p.map Prod.fst).sum = (leaves.map fun n => n.weight.toNat).sum
  weight : (leaves.map fun n => n.weight.toNat).sum < 2 ^ 64 →
    ∀ k ∈ p, (T k.2).summed ∧ (T k.2).weight.toNat = k.1
  last : arena = leaves ∨ ∃ k ∈ p, k.2 + 1 = arena.length

theorem keysFrom_snd (ns : List Node) (i : Nat) : (keysFrom i ns).map Prod.snd = List.range' i ns.length := by
  induction ns generalizing i with
  | nil => rfl
  | cons n ns ih => simp [keysFrom, ih, List.range'_succ]

theorem keysFrom_fst (ns : List Node) (i : Nat) : (keysFrom i ns).map Prod.fst = ns.map fun n => n.weight.toNat := by
  induction ns generalizing i with
  | nil => rfl
  | cons n ns ih => simp [keysFrom, ih]

theorem keysFrom_length (ns : List Node) (i : Nat) : (keysFrom i ns).length = ns.length := by
  rw [← List.length_map (f := Prod.fst), keysFrom_fst, List.length_map]

theorem keysFrom_mem {ns : List Node} {i : Nat} {k : PQKey} (h : k ∈ keysFrom i ns) :
    i ≤ k.2 ∧ ∃ n, ns[k.2 - i]? = some n ∧ k.1 = n.weight.toNat := by
  induction ns generalizing i with
  | nil => simp [keysFrom] at h
  | cons n ns ih =>
    rcases List.mem_cons.1 h with rfl | h
    · exact ⟨Nat.le_refl _, n, by simp, rfl⟩
    · obtain ⟨h1, m, h2, h3⟩ := ih h
      refine ⟨by omega, m, ?_, h3⟩
      rw [show k.2 - i = (k.2 - (i + 1)) + 1 by omega]
      simpa using h2

theorem keysFrom_leaves (ns : List Node) (i : Nat) (T : Nat → CodeTree) (hns : ∀ n ∈ ns, ∃ w sym, n = Node.leaf w sym)
    (hT : ∀ j, T (i + j) = leafTree ns[j]? ∨ ns.length ≤ j) :
    ((keysFrom i ns).flatMap fun k => (T k.2).leaves) = ns.filterMap leafEntry := by
  induction ns generalizing i with
  | nil => rfl
  | cons n ns ih =>
    obtain ⟨w, sym, rfl⟩ := hns _ (by simp : n ∈ n :: ns)
    have h0 : T i = .leaf w sym := by
      rcases hT 0 with h | h
      · simpa [leafTree] using h
      · simp at h
    have := ih (i + 1) (fun m hm => hns m (by simp [hm])) fun j => by
      rcases hT (j + 1) with h | h
      · left
        rw [show i + 1 + j = i + (j + 1) by omega, h]
        rfl
      · right
        simpa using h
    rw [keysFrom, List.flatMap_cons, this]
    simp [h0, CodeTree.leaves, leafEntry]

/-- The loop starts with each leaf a tree of its own. -/
theorem mergeInv_start (leaves : List Node) (hl : ∀ n ∈ leaves, ∃ w sym, n = Node.leaf w sym) :
    MergeInv leaves (fun i => leafTree leaves[i]?) leaves (keysFrom 0 leaves) where
  grown := ⟨[], by simp, by simp⟩
  count := by rw [keysFrom_length]; omega
  ids := by rw [childIds_leaves hl, keysFrom_snd, List.nil_append, List.range_eq_range']
  rep := by
    intro k hk
    obtain ⟨_, n, hn, _⟩ := keysFrom_mem hk
    rw [Nat.sub_zero] at hn
    obtain ⟨w, sym, rfl⟩ := hl n (List.mem_of_getElem? hn)
    simp only [hn, leafTree, Represents, get_arena]
  leaf := by
    have e := keysFrom_leaves leaves 0 (fun i => leafTree leaves[i]?) hl fun j => .inl (by simp)
    exact e ▸ List.Perm.refl _
  total := by rw [keysFrom_fst]
  weight := by
    intro _ k hk
    obtain ⟨_, n, hn, hw⟩ := keysFrom_mem hk
    rw [Nat.sub_zero] at hn
    obtain ⟨w, sym, rfl⟩ := hl n (List.mem_of_getElem? hn)
    simp only [hn, leafTree, CodeTree.summed, CodeTree.weight, hw, Node.weight, and_self]
  last := .inl rfl

/-- The trees after a merge of `a` and `b`. -/
def mergedTree (T : Nat → CodeTree) (a b : PQKey) (id i : Nat) : CodeTree :=
  if i = id then .fork (word (a.1 + b.1)) (T a.2) (T b.2) else T i

/-- One pass keeps what holds before every pass. -/
theorem mergeInv_pass {leaves arena : List Node} {T : Nat → CodeTree} {p rest : List PQKey} {a b : PQKey}
    (h : MergeInv leaves T arena p) (hn : leaves.length ≤ 256) (hp : p.Perm (a :: b :: rest)) :
    MergeInv leaves (mergedTree T a b arena.length) (arena ++ [mergeNode a b]) (rest ++ [(a.1 + b.1, arena.length)]) := by
  have hlen : p.length = rest.length + 2 := by rw [hp.length_eq]; simp
  have hlt : ∀ k ∈ p, k.2 < arena.length := by
    intro k hk
    have : k.2 ∈ childIds arena ++ p.map Prod.snd := by
      rw [List.mem_append]
      exact .inr (List.mem_map.2 ⟨k, hk, rfl⟩)
    exact List.mem_range.1 (h.ids.mem_iff.1 this)
  have ha : a ∈ p := hp.mem_iff.2 (by simp)
  have hb : b ∈ p := hp.mem_iff.2 (by simp)
  have hrest : ∀ k ∈ rest, k ∈ p := fun k hk => hp.mem_iff.2 (by simp [hk])
  have hsmall : arena.length < 512 := by have := h.count; omega
  have hTold : ∀ k ∈ p, mergedTree T a b arena.length k.2 = T k.2 := fun k hk => if_neg (by have := hlt k hk; omega)
  have hTnew : mergedTree T a b arena.length arena.length = .fork (word (a.1 + b.1)) (T a.2) (T b.2) := if_pos rfl
  have ida : (BitVec.ofNat 9 a.2).toNat = a.2 := by
    rw [BitVec.toNat_ofNat]; exact Nat.mod_eq_of_lt (by have := hlt a ha; omega)
  have idb : (BitVec.ofNat 9 b.2).toNat = b.2 := by
    rw [BitVec.toNat_ofNat]; exact Nat.mod_eq_of_lt (by have := hlt b hb; omega)
  refine ⟨?_, ?_, ?_, ?_, ?_, ?_, ?_, .inr ⟨_, List.mem_append_right _ (List.mem_singleton_self _), by simp⟩⟩
  · obtain ⟨ins, h1, h2⟩ := h.grown
    refine ⟨ins ++ [mergeNode a b], by rw [h1, List.append_assoc], ?_⟩
    intro n hn
    rcases List.mem_append.1 hn with hn | hn
    · exact h2 n hn
    · exact ⟨_, _, _, List.mem_singleton.1 hn⟩
  · have := h.count
    simp only [List.length_append, List.length_singleton]
    omega
  · have hc : childIds [mergeNode a b] = [a.2, b.2] := by simp [mergeNode, childIds, ida, idb]
    rw [childIds_append, hc, List.length_append, List.length_singleton, List.range_succ, List.map_append, List.append_assoc,
      ← List.append_assoc [a.2, b.2], ← List.append_assoc (childIds arena)]
    refine List.Perm.append ?_ (by simp)
    refine (List.Perm.append_left _ ?_).trans h.ids
    exact (hp.map Prod.snd).symm
  · intro k hk
    rcases List.mem_append.1 hk with hk | hk
    · rw [hTold k (hrest k hk)]
      exact (h.rep k (hrest k hk)).append _
    · rw [List.mem_singleton.1 hk]
      simp only [hTnew]
      refine ⟨BitVec.ofNat 9 a.2, BitVec.ofNat 9 b.2, ?_, ?_, ?_⟩
      · rw [get_arena, List.getElem?_append_right (Nat.le_refl _), Nat.sub_self]
        rfl
      · rw [ida]
        exact (h.rep a ha).append _
      · rw [idb]
        exact (h.rep b hb).append _
  · rw [List.flatMap_append]
    have e1 : (rest.flatMap fun k => (mergedTree T a b arena.length k.2).leaves) = rest.flatMap fun k => (T k.2).leaves := by
      refine List.flatMap_congr fun k hk => ?_
      rw [hTold k (hrest k hk)]
    have e2 : ([((a.1 + b.1, arena.length) : PQKey)].flatMap fun k => (mergedTree T a b arena.length k.2).leaves)
        = (T a.2).leaves ++ (T b.2).leaves := by
      simp [hTnew, CodeTree.leaves]
    rw [e1, e2]
    refine List.Perm.trans ?_ h.leaf
    refine List.Perm.trans ?_ (hp.flatMap_right _).symm
    rw [List.flatMap_cons, List.flatMap_cons, ← List.append_assoc (T a.2).leaves]
    exact List.perm_append_comm
  · have hs := (hp.map Prod.fst).sum_eq
    rw [h.total] at hs
    rw [hs]
    simp only [List.map_append, List.sum_append, List.map_cons, List.sum_cons, List.map_nil, List.sum_nil]
    omega
  · intro hw k hk
    have hs := (hp.map Prod.fst).sum_eq
    rw [h.total] at hs
    simp only [List.map_cons, List.sum_cons] at hs
    rcases List.mem_append.1 hk with hk | hk
    · rw [hTold k (hrest k hk)]
      exact h.weight hw k (hrest k hk)
    · rw [List.mem_singleton.1 hk]
      obtain ⟨a1, a2⟩ := h.weight hw a ha
      obtain ⟨b1, b2⟩ := h.weight hw b hb
      have hlt : a.1 + b.1 < 2 ^ 64 := by omega
      simp only [hTnew]
      exact ⟨⟨by rw [word_toNat hlt, a2, b2], a1, b1⟩, word_toNat hlt⟩

/-- The whole loop, from any point where it has passes enough: it ends with one member. -/
theorem mergeLoop_inv {pick : Pick} (hpick : ∀ k ks, pick k ks ∈ k :: ks) {leaves : List Node} (hn : leaves.length ≤ 256)
    (fuel : Nat) {arena : List Node} {T : Nat → CodeTree} {p : List PQKey} (h : MergeInv leaves T arena p) (hp : p ≠ [])
    (hf : p.length ≤ fuel + 1) :
    ∃ T' k, (mergeLoop pick fuel arena p).2 = [k] ∧ MergeInv leaves T' (mergeLoop pick fuel arena p).1 [k] := by
  induction fuel generalizing arena T p with
  | zero =>
    obtain ⟨k, rfl⟩ : ∃ k, p = [k] := List.length_eq_one_iff.1 (by have := List.length_pos_iff.2 hp; omega)
    exact ⟨T, k, rfl, h⟩
  | succ fuel ih =>
    obtain ⟨k, ks, rfl⟩ := List.exists_cons_of_ne_nil hp
    rw [mergeLoop]
    have h1 := List.perm_cons_erase (hpick k ks)
    cases he : (k :: ks).erase (pick k ks) with
    | nil =>
      rw [he] at h1
      have hk : ks = [] := by
        have := h1.length_eq
        simpa using this
      subst hk
      exact ⟨T, k, rfl, h⟩
    | cons x xs =>
      rw [he] at h1
      have h2 := List.perm_cons_erase (hpick x xs)
      have hperm : (k :: ks).Perm (pick k ks :: pick x xs :: (x :: xs).erase (pick x xs)) := h1.trans (h2.cons _)
      refine ih (mergeInv_pass h hn hperm) (by simp) ?_
      have := hperm.length_eq
      simp only [List.length_cons, List.length_append, List.length_nil] at this hf ⊢
      omega

/-- The loop of BUILD over the leaves given: one tree (R112). -/
theorem buildTree_inv {pick : Pick} (hpick : ∀ k ks, pick k ks ∈ k :: ks) {leaves : List Node} (hn : leaves.length ≤ 256)
    (h0 : leaves ≠ []) (hl : ∀ n ∈ leaves, ∃ w sym, n = Node.leaf w sym) :
    ∃ T w, MergeInv leaves T (buildTree pick leaves).1 [(w, (buildTree pick leaves).2)] := by
  have hne : keysFrom 0 leaves ≠ [] := by
    intro h
    have := keysFrom_length leaves 0
    rw [h] at this
    exact h0 (List.length_eq_zero_iff.1 this.symm)
  obtain ⟨T, k, h1, h2⟩ := mergeLoop_inv hpick hn leaves.length (mergeInv_start leaves hl) hne (by rw [keysFrom_length]; omega)
  refine ⟨T, k.1, ?_⟩
  unfold buildTree
  simp only [h1]
  exact h2

/-! ### The order of the merges -/

/-- No member of the collection comes before the one that PQmin answers (R111). -/
theorem pqMin_least (k : PQKey) (ks : List PQKey) : ∀ x ∈ k :: ks, keyLt x (pqMin k ks) = false := by
  induction ks generalizing k with
  | nil =>
    intro x hx
    rw [List.mem_singleton.1 hx]
    simp [pqMin, keyLt]
  | cons y ys ih =>
    rw [pqMin]
    intro x hx
    by_cases hyk : keyLt y k = true
    · rw [if_pos hyk]
      have h0 := ih y
      have h1 := h0 y (by simp)
      by_cases hxy : x ∈ y :: ys
      · exact h0 x hxy
      · have hxk : x = k := by simp at hx hxy; tauto
        subst hxk
        generalize pqMin y ys = m at h1
        unfold keyLt at *
        simp at *
        omega
    · rw [if_neg hyk]
      have h0 := ih k
      have h1 := h0 k (by simp)
      by_cases hxy : x ∈ k :: ys
      · exact h0 x hxy
      · have hxk : x = y := by simp at hx hxy; tauto
        subst hxk
        generalize pqMin k ys = m at h1
        unfold keyLt at *
        simp at *
        omega

theorem mem_childIds {ns : List Node} {i : Nat} :
    i ∈ childIds ns ↔ ∃ (j : Nat) (w : Word) (a b : BitVec 9), ns[j]? = some (.inner w a b) ∧ (a.toNat = i ∨ b.toNat = i) := by
  induction ns with
  | nil => simp [childIds]
  | cons n ns ih =>
    have e : (∃ (j : Nat) (w : Word) (a b : BitVec 9), (n :: ns)[j]? = some (.inner w a b) ∧ (a.toNat = i ∨ b.toNat = i)) ↔
        (∃ (w : Word) (a b : BitVec 9), n = .inner w a b ∧ (a.toNat = i ∨ b.toNat = i)) ∨ i ∈ childIds ns := by
      rw [ih]
      constructor
      · rintro ⟨j, w, a, b, h1, h2⟩
        cases j with
        | zero => exact .inl ⟨w, a, b, by simpa using h1, h2⟩
        | succ j => exact .inr ⟨j, w, a, b, by simpa using h1, h2⟩
      · rintro (⟨w, a, b, rfl, h2⟩ | ⟨j, w, a, b, h1, h2⟩)
        · exact ⟨0, w, a, b, rfl, h2⟩
        · exact ⟨j + 1, w, a, b, by simpa using h1, h2⟩
    rw [e]
    cases n with
    | leaf w sym => simp [childIds]
    | inner w a b =>
      simp only [childIds, List.mem_cons, Node.inner.injEq]
      constructor
      · rintro (h | h | h)
        · exact .inl ⟨w, a, b, ⟨rfl, rfl, rfl⟩, .inl h.symm⟩
        · exact .inl ⟨w, a, b, ⟨rfl, rfl, rfl⟩, .inr h.symm⟩
        · exact .inr h
      · rintro (⟨_, _, _, ⟨rfl, rfl, rfl⟩, h | h⟩ | h)
        · exact .inl h.symm
        · exact .inr (.inl h.symm)
        · exact .inr (.inr h)

theorem Represents.nodeWeight {nodes : Cells Node} {i : Nat} {t : CodeTree} (h : Represents nodes i t) :
    nodeWeight nodes i = t.weight.toNat := by
  unfold Machine.nodeWeight
  cases t with
  | leaf w sym => rw [show Cells.get nodes i = _ from h]; rfl
  | fork w l r =>
    obtain ⟨a, b, h1, _⟩ := h
    rw [h1]
    rfl

theorem get_arena_append {arena : List Node} (ns : List Node) {j : Nat} (h : j < arena.length) :
    Cells.get (cellsFrom 0 (arena ++ ns)) j = Cells.get (cellsFrom 0 arena) j := by
  rw [get_arena, get_arena, List.getElem?_append_left h]

theorem nodeWeight_append {arena : List Node} (ns : List Node) {j : Nat} (h : j < arena.length) :
    nodeWeight (cellsFrom 0 (arena ++ ns)) j = nodeWeight (cellsFrom 0 arena) j := by
  unfold nodeWeight
  rw [get_arena_append ns h]

theorem inCollection_append {arena : List Node} (ns : List Node) {m i : Nat} (h : m ≤ arena.length) :
    InCollection (cellsFrom 0 (arena ++ ns)) m i ↔ InCollection (cellsFrom 0 arena) m i := by
  unfold InCollection
  constructor
  · exact fun ⟨h1, h2⟩ => ⟨h1, fun j w a b hj hg => h2 j w a b hj (by rw [get_arena_append ns (by omega), hg])⟩
  · exact fun ⟨h1, h2⟩ => ⟨h1, fun j w a b hj hg => h2 j w a b hj (by rw [← hg, get_arena_append ns (by omega)])⟩

/-- A merge stays what it was when nodes are added. -/
theorem MergesTheTwoLeast.append {arena : List Node} (ns : List Node) {m : Nat} (h : MergesTheTwoLeast (cellsFrom 0 arena) m)
    (hm : m < arena.length) : MergesTheTwoLeast (cellsFrom 0 (arena ++ ns)) m := by
  obtain ⟨w, a, b, h1, h2, h3, h4, h5, h6, h7⟩ := h
  have hc := fun i => inCollection_append ns (i := i) (Nat.le_of_lt hm)
  have hwt : ∀ i, InCollection (cellsFrom 0 arena) m i → nodeWeight (cellsFrom 0 (arena ++ ns)) i = nodeWeight (cellsFrom 0 arena) i :=
    fun i hi => nodeWeight_append ns (Nat.lt_trans hi.1 hm)
  refine ⟨w, a, b, by rw [get_arena_append ns hm, h1], (hc _).2 h2, fun x hx => ?_, (hc _).2 h4, h5, fun x hx hne => ?_, ?_⟩
  · have hx := (hc x).1 hx
    unfold KeyLe
    rw [hwt _ h2, hwt _ hx]
    exact h3 x hx
  · have hx := (hc x).1 hx
    unfold KeyLe
    rw [hwt _ h4, hwt _ hx]
    exact h6 x hx hne
  · rw [hwt _ h2, hwt _ h4]
    exact h7

/-- The collection of R110 is the ids of the loop's members. -/
theorem MergeInv.collection {leaves arena : List Node} {T : Nat → CodeTree} {p : List PQKey} (h : MergeInv leaves T arena p) {i : Nat} :
    InCollection (cellsFrom 0 arena) arena.length i ↔ ∃ k ∈ p, k.2 = i := by
  have hm : ∀ x, x ∈ childIds arena ++ p.map Prod.snd ↔ x < arena.length := fun x => (h.ids.mem_iff).trans List.mem_range
  have hd := h.ids.nodup_iff.2 List.nodup_range
  rw [List.nodup_append] at hd
  constructor
  · rintro ⟨h1, h2⟩
    rcases List.mem_append.1 ((hm i).2 h1) with hc | hc
    · obtain ⟨j, w, a, b, h3, h4⟩ := mem_childIds.1 hc
      have h5 := h2 j w a b (List.getElem?_eq_some_iff.1 h3).1 (by rw [get_arena, h3])
      rcases h4 with h4 | h4
      · exact absurd h4 h5.1
      · exact absurd h4 h5.2
    · exact List.mem_map.1 hc
  · rintro ⟨k, hk, rfl⟩
    refine ⟨(hm _).1 (List.mem_append.2 (.inr (List.mem_map.2 ⟨k, hk, rfl⟩))), fun j w a b hj hg => ?_⟩
    rw [get_arena] at hg
    constructor
    · exact fun he => hd.2.2 _ (mem_childIds.2 ⟨j, w, a, b, hg, .inl he⟩) _ (List.mem_map.2 ⟨k, hk, rfl⟩) rfl
    · exact fun he => hd.2.2 _ (mem_childIds.2 ⟨j, w, a, b, hg, .inr he⟩) _ (List.mem_map.2 ⟨k, hk, rfl⟩) rfl

/-- The node that a pass makes merges the two least members (R110, R111). -/
theorem mergeNode_least {leaves arena : List Node} {T : Nat → CodeTree} {k : PQKey} {ks : List PQKey} {x : PQKey} {xs : List PQKey}
    (h : MergeInv leaves T arena (k :: ks)) (hn : leaves.length ≤ 256) (hw : (leaves.map fun n => n.weight.toNat).sum < 2 ^ 64)
    (he : (k :: ks).erase (pqMin k ks) = x :: xs) :
    MergesTheTwoLeast (cellsFrom 0 (arena ++ [mergeNode (pqMin k ks) (pqMin x xs)])) arena.length := by
  set a := pqMin k ks with ha'
  set b := pqMin x xs with hb'
  have ha : a ∈ k :: ks := pqMin_mem k ks
  have hperm := List.perm_cons_erase ha
  rw [he] at hperm
  have hb : b ∈ k :: ks := hperm.mem_iff.2 (List.mem_cons_of_mem _ (pqMin_mem x xs))
  have hcol := fun i => (inCollection_append [mergeNode a b] (i := i) (Nat.le_refl arena.length)).trans (h.collection (i := i))
  have hlt : ∀ y ∈ k :: ks, y.2 < arena.length := fun y hy => ((hcol y.2).2 ⟨y, hy, rfl⟩).1
  have hwt : ∀ y ∈ k :: ks, nodeWeight (cellsFrom 0 (arena ++ [mergeNode a b])) y.2 = y.1 := by
    intro y hy
    rw [nodeWeight_append _ (hlt y hy), (h.rep y hy).nodeWeight]
    exact (h.weight hw y hy).2
  have hsmall : arena.length < 512 := by
    have := h.count
    rw [List.length_cons] at this
    omega
  have ida : (BitVec.ofNat 9 a.2).toNat = a.2 := by
    rw [BitVec.toNat_ofNat]
    exact Nat.mod_eq_of_lt (by have := hlt a ha; omega)
  have idb : (BitVec.ofNat 9 b.2).toNat = b.2 := by
    rw [BitVec.toNat_ofNat]
    exact Nat.mod_eq_of_lt (by have := hlt b hb; omega)
  have hnd : ((k :: ks).map Prod.snd).Nodup := (List.nodup_append.1 (h.ids.nodup_iff.2 List.nodup_range)).2.1
  have hle : ∀ y ∈ k :: ks, ∀ z ∈ k :: ks, keyLt z y = false → KeyLe (cellsFrom 0 (arena ++ [mergeNode a b])) y.2 z.2 := by
    intro y hy z hz hlt
    unfold KeyLe
    rw [hwt y hy, hwt z hz]
    unfold keyLt at hlt
    simp at hlt
    omega
  have hne : b.2 ≠ a.2 := by
    have h1 := (hperm.map Prod.snd).nodup_iff.1 hnd
    rw [List.map_cons, List.nodup_cons] at h1
    exact fun h2 => h1.1 (List.mem_map.2 ⟨b, pqMin_mem x xs, h2⟩)
  have hsum : a.1 + b.1 < 2 ^ 64 := by
    have hs := ((hperm.trans ((List.perm_cons_erase (pqMin_mem x xs)).cons _)).map Prod.fst).sum_eq
    rw [h.total] at hs
    simp only [List.map_cons, List.sum_cons, ← hb'] at hs
    omega
  refine ⟨word (a.1 + b.1), BitVec.ofNat 9 a.2, BitVec.ofNat 9 b.2, ?_, ?_, ?_, ?_, ?_, ?_, ?_⟩
  · rw [get_arena, List.getElem?_append_right (Nat.le_refl _), Nat.sub_self]
    rfl
  · rw [ida]
    exact (hcol _).2 ⟨a, ha, rfl⟩
  · intro y hy
    obtain ⟨z, hz, rfl⟩ := (hcol y).1 hy
    rw [ida]
    exact hle a ha z hz (pqMin_least k ks z hz)
  · rw [idb]
    exact (hcol _).2 ⟨b, hb, rfl⟩
  · intro heq
    have := congrArg BitVec.toNat heq
    rw [ida, idb] at this
    exact hne this
  · intro y hy hya
    obtain ⟨z, hz, rfl⟩ := (hcol y).1 hy
    rw [ida] at hya
    rw [idb]
    refine hle b hb z hz (pqMin_least x xs z ?_)
    rcases List.mem_cons.1 (hperm.mem_iff.1 hz) with rfl | hz
    · exact absurd rfl hya
    · exact hz
  · rw [ida, idb, hwt a ha, hwt b hb, word_toNat hsum]

/-- Every internal node that the loop of BUILD makes merges the two least members (R110, R111). -/
theorem mergeLoop_greedy {leaves : List Node} (hn : leaves.length ≤ 256) (hw : (leaves.map fun n => n.weight.toNat).sum < 2 ^ 64)
    (fuel : Nat) {arena : List Node} {T : Nat → CodeTree} {p : List PQKey} (h : MergeInv leaves T arena p)
    (hg : ∀ m, leaves.length ≤ m → m < arena.length → MergesTheTwoLeast (cellsFrom 0 arena) m) :
    ∀ m, leaves.length ≤ m → m < (mergeLoop pqMin fuel arena p).1.length →
      MergesTheTwoLeast (cellsFrom 0 (mergeLoop pqMin fuel arena p).1) m := by
  induction fuel generalizing arena T p with
  | zero => exact hg
  | succ fuel ih =>
    cases p with
    | nil => exact hg
    | cons k ks =>
      rw [mergeLoop]
      cases he : (k :: ks).erase (pqMin k ks) with
      | nil => exact hg
      | cons x xs =>
        have h1 := List.perm_cons_erase (pqMin_mem k ks)
        rw [he] at h1
        have hperm := h1.trans ((List.perm_cons_erase (pqMin_mem x xs)).cons _)
        refine ih (mergeInv_pass h hn hperm) fun m hm hlt => ?_
        rw [List.length_append, List.length_singleton] at hlt
        rcases Nat.lt_succ_iff_lt_or_eq.1 hlt with hlt | rfl
        · exact (hg m hm hlt).append _ hlt
        · exact mergeNode_least h hn hw he

/-! ### The leaves -/

theorem leavesFrom_leaf {ws : List Word} {sym : Nat} : ∀ n ∈ leavesFrom sym ws, ∃ w s, n = Node.leaf w s := by
  induction ws generalizing sym with
  | nil => simp [leavesFrom]
  | cons w ws ih =>
    intro n hn
    rw [leavesFrom] at hn
    split at hn
    · rcases List.mem_cons.1 hn with rfl | hn
      · exact ⟨_, _, rfl⟩
      · exact ih n hn
    · exact ih n hn

theorem leavesFrom_length (ws : List Word) (sym : Nat) : (leavesFrom sym ws).length ≤ ws.length := by
  induction ws generalizing sym with
  | nil => simp [leavesFrom]
  | cons w ws ih =>
    rw [leavesFrom]
    split
    · have := ih (sym + 1)
      simp only [List.length_cons]
      omega
    · have := ih (sym + 1)
      simp only [List.length_cons]
      omega

/-- The leaves as the list of present symbols gives them (R110). -/
theorem leavesFrom_eq (ws : List Word) (sym : Nat) :
    leavesFrom sym ws = ((List.range' sym ws.length).filter fun s => 1 ≤ (ws[s - sym]?.getD 0).toNat).map
      fun s => Node.leaf (ws[s - sym]?.getD 0) (byte s) := by
  induction ws generalizing sym with
  | nil => rfl
  | cons w ws ih =>
    have hc : ∀ s ∈ List.range' (sym + 1) ws.length, (w :: ws)[s - sym]?.getD 0 = ws[s - (sym + 1)]?.getD 0 := by
      intro s hs
      rw [List.mem_range'_1] at hs
      rw [show s - sym = (s - (sym + 1)) + 1 by omega, List.getElem?_cons_succ]
    have hf : ((List.range' (sym + 1) ws.length).filter fun s => 1 ≤ ((w :: ws)[s - sym]?.getD 0).toNat)
        = (List.range' (sym + 1) ws.length).filter fun s => 1 ≤ (ws[s - (sym + 1)]?.getD 0).toNat :=
      List.filter_congr fun s hs => by rw [hc s hs]
    have hm : ∀ l : List Nat, (∀ s ∈ l, s ∈ List.range' (sym + 1) ws.length) →
        l.map (fun s => Node.leaf ((w :: ws)[s - sym]?.getD 0) (byte s)) =
          l.map fun s => Node.leaf (ws[s - (sym + 1)]?.getD 0) (byte s) := fun l hl =>
      List.map_congr_left fun s hs => by rw [hc s (hl s hs)]
    rw [leavesFrom, ih, List.length_cons, List.range'_succ, List.filter_cons, hf]
    by_cases h : 1 ≤ w.toNat
    · simp only [Nat.sub_self, List.getElem?_cons_zero, Option.getD_some, h, decide_true, if_true, List.map_cons]
      rw [hm _ fun s hs => (List.mem_filter.1 hs).1]
    · simp only [Nat.sub_self, List.getElem?_cons_zero, Option.getD_some, h, decide_false, if_false, Bool.false_eq_true]
      rw [hm _ fun s hs => (List.mem_filter.1 hs).1]

/-- Distinct leaves have distinct symbols, at most 256 counts being given. -/
theorem leavesFrom_syms (ws : List Word) :
    ((leavesFrom 0 ws).filterMap leafEntry).map Prod.fst =
      ((List.range ws.length).filter fun s => 1 ≤ (ws[s]?.getD 0).toNat).map byte := by
  rw [leavesFrom_eq, List.range_eq_range', List.filterMap_map, List.map_filterMap]
  simp only [Nat.sub_zero]
  rw [← List.filterMap_eq_map]
  refine List.filterMap_congr fun s _ => rfl

theorem leavesFrom_syms_nodup (ws : List Word) (h : ws.length ≤ 256) :
    (((leavesFrom 0 ws).filterMap leafEntry).map Prod.fst).Nodup := by
  rw [leavesFrom_syms ws]
  refine List.Nodup.map_on ?_ (List.nodup_range.filter _)
  intro x hx y hy hxy
  have h1 := List.mem_range.1 (List.mem_filter.1 hx).1
  have h2 := List.mem_range.1 (List.mem_filter.1 hy).1
  have := congrArg BitVec.toNat hxy
  rwa [byte_toNat (by omega), byte_toNat (by omega)] at this

theorem syms_eq_leaves (t : CodeTree) : t.syms = t.leaves.map Prod.fst := by
  induction t with
  | leaf w s => rfl
  | fork w l r ihl ihr => simp [CodeTree.syms, CodeTree.leaves, ihl, ihr]

end Sys2Proof.Machine
end

