-- ==== Sys2Proof/Laws/Codes.lean ====
section
/-! SUPPORT. Codes of a tree (40_huffman.md R120 to R123): paths are prefix-free and short, and the walk of CODEGEN finds them. -/

namespace Sys2Proof.Machine

/-! ### Prefix-free tables -/

/-- Neither entry's code is a prefix of the other's. -/
def Apart (e e' : Byte × Code) : Prop := ¬ e.2 <+: e'.2 ∧ ¬ e'.2 <+: e.2

theorem prefixFree_codesDiffer {f : Byte → Code} (h : PrefixFree f) : CodesDiffer f :=
  fun x y hx hxy => h x y hx (by rw [hxy])

/-- A table of distinct symbols whose codes are apart is prefix-free. -/
theorem prefixFree_tableOf {ct : List (Byte × Code)} (h : ct.Pairwise Apart) : PrefixFree (tableOf ct) := by
  intro x y hx hxy
  have hy : tableOf ct y ≠ [] := by
    intro h0
    rw [h0] at hxy
    exact hx (List.prefix_nil.1 hxy)
  by_contra hne
  have : Std.Symm Apart := ⟨fun _ _ h => ⟨h.2, h.1⟩⟩
  exact (h.forall (tableOf_mem hx) (tableOf_mem hy) fun he => hne (congrArg Prod.fst he)).1 hxy

/-- Codes that are apart are distinct, empty codes being none. -/
theorem nodup_codes_of_apart {ct : List (Byte × Code)} (h : ct.Pairwise Apart) : (ct.map Prod.snd).Nodup := by
  rw [List.Nodup, List.pairwise_map]
  refine h.imp fun {e e'} ha he => ha.1 ?_
  rw [he]

/-! ### Paths -/

theorem paths_syms (t : CodeTree) (p : Code) : (t.paths p).map Prod.fst = t.syms := by
  induction t generalizing p with
  | leaf w s => rfl
  | fork w l r ihl ihr => simp [CodeTree.paths, CodeTree.syms, ihl, ihr]

theorem paths_extend {t : CodeTree} {p : Code} {e : Byte × Code} (h : e ∈ t.paths p) : p <+: e.2 := by
  induction t generalizing p with
  | leaf w s =>
    rw [CodeTree.paths, List.mem_singleton] at h
    simp [h]
  | fork w l r ihl ihr =>
    rw [CodeTree.paths] at h
    rcases List.mem_append.1 h with h | h
    · exact (List.prefix_append p _).trans (ihl h)
    · exact (List.prefix_append p _).trans (ihr h)

theorem syms_length_pos (t : CodeTree) : 1 ≤ t.syms.length := by
  induction t with
  | leaf w s => simp [CodeTree.syms]
  | fork w l r ihl ihr => simp only [CodeTree.syms, List.length_append]; omega

/-- A path has fewer bits than the tree has leaves (R123: at most 255). -/
theorem paths_length {t : CodeTree} {p : Code} {e : Byte × Code} (h : e ∈ t.paths p) :
    e.2.length + 1 ≤ p.length + t.syms.length := by
  induction t generalizing p with
  | leaf w s =>
    rw [CodeTree.paths, List.mem_singleton] at h
    simp [h, CodeTree.syms]
  | fork w l r ihl ihr =>
    rw [CodeTree.paths] at h
    have h1 := syms_length_pos l
    have h2 := syms_length_pos r
    simp only [CodeTree.syms, List.length_append]
    rcases List.mem_append.1 h with h | h
    · have := ihl h
      simp only [List.length_append, List.length_singleton] at this
      omega
    · have := ihr h
      simp only [List.length_append, List.length_singleton] at this
      omega

theorem not_prefix_of_branch {p c d : Code} {b : Bool} (h1 : p ++ [b] <+: c) (h2 : p ++ [!b] <+: d) : ¬ c <+: d := by
  intro h
  have h3 := h1.trans h
  obtain ⟨x, rfl⟩ := h2
  rw [List.append_assoc, List.prefix_append_right_inj] at h3
  rw [List.singleton_append, List.cons_prefix_cons] at h3
  cases b <;> simp at h3

/-- The paths of a tree are apart (R123). -/
theorem paths_apart (t : CodeTree) (p : Code) : (t.paths p).Pairwise Apart := by
  induction t generalizing p with
  | leaf w s => exact List.pairwise_singleton _ _
  | fork w l r ihl ihr =>
    rw [CodeTree.paths]
    refine List.pairwise_append.2 ⟨ihl _, ihr _, fun e he e' he' => ?_⟩
    have h1 := paths_extend he
    have h2 := paths_extend he'
    exact ⟨not_prefix_of_branch (b := false) h1 h2, not_prefix_of_branch (b := true) h2 h1⟩

/-! ### The codes of a tree -/

theorem codes_syms (t : CodeTree) : t.codes.map Prod.fst = t.syms := by
  cases t with
  | leaf w s => rfl
  | fork w l r => exact paths_syms _ _

theorem codes_apart (t : CodeTree) : t.codes.Pairwise Apart := by
  cases t with
  | leaf w s => exact List.pairwise_singleton _ _
  | fork w l r => exact paths_apart _ _

theorem byte_list_length {l : List Byte} (h : l.Nodup) : l.length ≤ 256 := by
  have h1 : (l.map BitVec.toNat).Nodup := h.map fun x y hxy => BitVec.eq_of_toNat_eq hxy
  have h2 : l.map BitVec.toNat ⊆ List.range 256 := by
    intro x hx
    obtain ⟨b, _, rfl⟩ := List.mem_map.1 hx
    exact List.mem_range.2 b.isLt
  have := (h1.subperm h2).length_le
  rwa [List.length_map, List.length_range] at this

/-- Every code has 1 to 255 bits (R123), the symbols being distinct. -/
theorem codes_length {t : CodeTree} (hn : t.syms.Nodup) : ∀ e ∈ t.codes, 1 ≤ e.2.length ∧ e.2.length ≤ 255 := by
  intro e he
  cases t with
  | leaf w s =>
    rw [CodeTree.codes, List.mem_singleton] at he
    simp [he]
  | fork w l r =>
    have h1 := byte_list_length hn
    have h2 := paths_length he
    refine ⟨?_, by simp only [List.length_nil] at h2; omega⟩
    rw [CodeTree.codes, CodeTree.paths] at he
    rcases List.mem_append.1 he with he | he
    · have := (paths_extend he).length_le
      simpa using this
    · have := (paths_extend he).length_le
      simpa using this

theorem codes_legal {t : CodeTree} (hn : t.syms.Nodup) : TableLegal t.codes :=
  ⟨codes_length hn, by rwa [codes_syms], nodup_codes_of_apart (codes_apart t)⟩

theorem codes_prefixFree (t : CodeTree) : PrefixFree (tableOf t.codes) := prefixFree_tableOf (codes_apart t)

/-- A symbol has a code exactly when it is in the tree. -/
theorem codes_ne_nil {t : CodeTree} (hn : t.syms.Nodup) (sym : Byte) : tableOf t.codes sym ≠ [] ↔ sym ∈ t.syms := by
  rw [← codes_syms]
  exact tableOf_ne_nil (by rwa [codes_syms]) (fun e he => (codes_length hn e he).1) sym

/-! ### The walk -/

/-- The walk over a tree finds its paths, where it may go as deep as the tree has leaves (R120). -/
theorem walk_gives {nodes : Cells Node} {t : CodeTree} {fuel i : Nat} (p : Code) (h : Represents nodes i t)
    (hf : t.syms.length ≤ fuel) : (walk nodes fuel i p).Gives (t.paths p) := by
  induction t generalizing fuel i p with
  | leaf w s =>
    cases fuel with
    | zero => simp [CodeTree.syms] at hf
    | succ fuel => exact (memRead_gives h).andThen (Eng.gives_ret _)
  | fork w l r ihl ihr =>
    have h1 := syms_length_pos l
    have h2 := syms_length_pos r
    simp only [CodeTree.syms, List.length_append] at hf
    cases fuel with
    | zero => omega
    | succ fuel =>
      obtain ⟨a, b, h0, hl, hr⟩ := h
      exact (memRead_gives h0).andThen ((ihl _ hl (by omega)).andThen ((ihr _ hr (by omega)).andThen (Eng.gives_ret _)))

/-- The codes of the tree at the root (R120, R122). -/
theorem treeCodes_gives {nodes : Cells Node} {t : CodeTree} {root : Nat} (h : Represents nodes root t) (hn : t.syms.Nodup) :
    (treeCodes nodes root).Gives t.codes := by
  cases t with
  | leaf w s => exact (memRead_gives h).andThen (Eng.gives_ret _)
  | fork w l r =>
    obtain ⟨a, b, h0, hl, hr⟩ := id h
    exact (memRead_gives h0).andThen (walk_gives [] h (byte_list_length hn))

/-- Whatever NODES holds, the walk finds no code longer than its bound. -/
theorem walk_post (nodes : Cells Node) (fuel i : Nat) (p : Code) :
    (walk nodes fuel i p).Post fun ct => ∀ e ∈ ct, e.2.length + 1 ≤ p.length + fuel := by
  induction fuel generalizing i p with
  | zero => exact Eng.post_ret (by simp)
  | succ fuel ih =>
    refine (Eng.post_true _).andThen fun n _ => ?_
    cases n with
    | leaf w s => exact Eng.post_ret (by simp)
    | inner w l r =>
      refine (ih l.toNat (p ++ [false])).andThen fun cl hl => (ih r.toNat (p ++ [true])).andThen fun cr hr => Eng.post_ret ?_
      intro e he
      rcases List.mem_append.1 he with he | he
      · have := hl e he
        simp only [List.length_append, List.length_singleton] at this
        omega
      · have := hr e he
        simp only [List.length_append, List.length_singleton] at this
        omega

theorem treeCodes_post (nodes : Cells Node) (root : Nat) : (treeCodes nodes root).Post fun ct => ∀ e ∈ ct, e.2.length ≤ 255 := by
  refine (Eng.post_true _).andThen fun n _ => ?_
  cases n with
  | leaf w s => exact Eng.post_ret (by simp)
  | inner w l r =>
    refine (walk_post nodes _ root []).mono fun ct h e he => ?_
    have := h e he
    simp only [List.length_nil, Config.maxCodeLen] at this
    omega

end Sys2Proof.Machine
end

