-- ==== Sys2Proof/Laws/Completion.lean ====
section
/-! SUPPORT. Error completion (60_exceptions.md R253): what it leaves of each field, and what no completion touches. -/

namespace Sys2Proof.Machine

/-- AbortSessions, each field in one place (43_control.md R233). -/
theorem abortSessions_eq (s : State) : abortSessions s = sessionsClosed s := by
  rcases s with ⟨_, ⟨_, _, _, _, aw, ar, _, _, _, _, _⟩⟩
  cases aw <;> cases ar <;> rfl

/-- Clearing a list of destinations touches none of these fields. -/
theorem foldl_clearDest_frame (ds : List Dest) (s : State) :
    (ds.foldl clearDest s).params = s.params ∧ (ds.foldl clearDest s).faults = s.faults ∧
    (ds.foldl clearDest s).draws = s.draws ∧ (ds.foldl clearDest s).inputs = s.inputs ∧
    (ds.foldl clearDest s).observed = s.observed ∧ (ds.foldl clearDest s).pending = s.pending ∧
    (ds.foldl clearDest s).recCount = s.recCount ∧ (ds.foldl clearDest s).recRemain = s.recRemain ∧
    (ds.foldl clearDest s).arcCur = s.arcCur ∧ (ds.foldl clearDest s).checks = s.checks := by
  induction ds generalizing s with
  | nil => simp
  | cons d ds ih =>
    rw [List.foldl_cons]
    have h := ih (clearDest s d)
    cases d <;> exact h

/-- The input buffer is a destination of RESET alone (30_encoding.md R81), and RESET raises no error. -/
theorem foldl_clearDest_input (ds : List Dest) (s : State) (h1 : Dest.inbuf ∉ ds) (h2 : Dest.inLen ∉ ds) :
    (ds.foldl clearDest s).inbuf = s.inbuf ∧ (ds.foldl clearDest s).inLen = s.inLen := by
  induction ds generalizing s with
  | nil => exact ⟨rfl, rfl⟩
  | cons d ds ih =>
    have h := ih (clearDest s d) (fun hm => h1 (by simp [hm])) (fun hm => h2 (by simp [hm]))
    cases d
    case inbuf => simp at h1
    case inLen => simp at h2
    all_goals exact h

/-- Clearing a list of destinations leaves these fields of STATUS. -/
theorem foldl_clearDest_status (ds : List Dest) (s : State) :
    ∃ f t c d, (ds.foldl clearDest s).status =
      { s.status with freqV := s.status.freqV && f, treeV := s.status.treeV && t, ctabV := s.status.ctabV && c,
                      dtabV := s.status.dtabV && d } := by
  induction ds generalizing s with
  | nil => exact ⟨true, true, true, true, by simp⟩
  | cons e ds ih =>
    rw [List.foldl_cons]
    obtain ⟨f, t, c, d, h⟩ := ih (clearDest s e)
    rw [h]
    cases e
    case freq => exact ⟨false, t, c, d, by simp [clearDest]⟩
    case nodes => exact ⟨f, false, c, d, by simp [clearDest]⟩
    case ctab => exact ⟨f, t, false, d, by simp [clearDest]⟩
    case dtab => exact ⟨f, t, c, false, by simp [clearDest]⟩
    all_goals exact ⟨f, t, c, d, by simp [clearDest]⟩

/-- The destinations as error completion leaves them: `s`, or `s` with the destinations cleared. -/
def clearedBy (ds : List Dest) (r : Raise) (s : State) : State :=
  if r.code.sparesDestinations then s else ds.foldl clearDest s

theorem errorCompletion_eq (ds : List Dest) (r : Raise) (s : State) :
    errorCompletion ds r s =
      { sessionsClosed (clearedBy ds r s) with
        errInfo := word r.info,
        status := Status.failed r.code (sessionsClosed (clearedBy ds r s)).status } := by
  unfold errorCompletion
  simp only [abortSessions_eq]
  rfl

/-- What error completion never touches. -/
theorem errorCompletion_frame (ds : List Dest) (r : Raise) (s : State) :
    (errorCompletion ds r s).params = s.params ∧ (errorCompletion ds r s).faults = s.faults ∧
    (errorCompletion ds r s).draws = s.draws ∧ (errorCompletion ds r s).inputs = s.inputs ∧
    (errorCompletion ds r s).observed = s.observed ∧ (errorCompletion ds r s).pending = s.pending ∧
    (errorCompletion ds r s).checks = s.checks := by
  rw [errorCompletion_eq]
  have h := foldl_clearDest_frame ds s
  unfold clearedBy sessionsClosed
  split <;> simp [h]

@[simp] theorem errorCompletion_draws (ds : List Dest) (r : Raise) (s : State) :
    (errorCompletion ds r s).draws = s.draws := (errorCompletion_frame ds r s).2.2.1

/-- STATUS after error completion: ERR, ERRCODE and DONE set, BUSY and the sessions cleared. -/
theorem errorCompletion_status (ds : List Dest) (r : Raise) (s : State) :
    ∃ f t c d, (errorCompletion ds r s).status =
      { s.status with aw := .idle, ar := .idle, busy := false, done := true, err := true, errcode := r.code,
                      freqV := s.status.freqV && f, treeV := s.status.treeV && t, ctabV := s.status.ctabV && c,
                      dtabV := s.status.dtabV && d } := by
  rw [errorCompletion_eq]
  unfold clearedBy sessionsClosed
  obtain ⟨f, t, c, d, h⟩ := foldl_clearDest_status ds s
  split
  · exact ⟨true, true, true, true, by simp [Status.failed]⟩
  · exact ⟨f, t, c, d, by simp [Status.failed, h]⟩

/-- A command that reads only written cells and raises nothing completes in success (R254). -/
theorem exec_success {ds : List Dest} {m : Eng State} {s t : State} (h : m.Gives t) (hd : t.draws = s.draws) :
    runCommand ds m s = .next { t with status := { t.status with done := true, busy := false } } :=
  runCommand_gives ds h hd

/-- A command that reads only written cells up to its first failing check completes in that error (R253, R255). -/
theorem exec_error {ds : List Dest} {m : Eng State} {s : State} {e : ErrCode} {n : Nat} (h : m.Raises e n) :
    runCommand ds m s = .next (errorCompletion ds { code := e, info := n } s) :=
  runCommand_raises ds h (errorCompletion_draws _ _ _)

end Sys2Proof.Machine
end

