-- ==== Sys2Proof/Laws/Streams.lean ====
section
/-! SUPPORT. The loops of ENCODE, DINV and DECODE (41_bitstream.md R140, R161, R170), each with what it gives on written cells and the errors
it can end in. -/

namespace Sys2Proof.Machine

/-! ### Checks -/

theorem sequenceIf_raises {c : Bool} {k : SeqDetail} (h : c = true) : (sequenceIf c k).Raises .sequenceError k.number :=
  Eng.raiseIf_raises _ _ h

theorem sequenceIf_gives {c : Bool} {k : SeqDetail} (h : c = false) : (sequenceIf c k).Gives () := Eng.raiseIf_gives _ _ h

theorem capacityIf_raises {c : Bool} {k : CapDetail} (h : c = true) : (capacityIf c k).Raises .capacity k.number :=
  Eng.raiseIf_raises _ _ h

theorem capacityIf_gives {c : Bool} {k : CapDetail} (h : c = false) : (capacityIf c k).Gives () := Eng.raiseIf_gives _ _ h

theorem formatIf_raises {c : Bool} {off : Nat} (h : c = true) : (formatIf c off).Raises .archiveFormat off := Eng.raiseIf_raises _ _ h

theorem formatIf_gives {c : Bool} {off : Nat} (h : c = false) : (formatIf c off).Gives () := Eng.raiseIf_gives _ _ h

/-! ### ENCODE -/

theorem code_length_ne {f : Byte → Code} {b : Byte} (h : (f b).length ≤ 255) : ((byte (f b).length).toNat == 0) = (f b).isEmpty := by
  rw [byte_toNat h]
  cases f b <;> rfl

/-- The first byte of the loop, where it has a code that fits. -/
theorem encodeLoop_cons {s : State} {f : Byte → Code} (hf : CtabIs s f) {b : Byte} {m k p : Nat}
    (hb : Cells.get s.inbuf k = some b) (hc : f b ≠ []) (hp : p + (f b).length ≤ s.params.payCap.toNat) :
    encodeLoop s (m + 1) k p =
      (encodeLoop s m (k + 1) (p + (f b).length)).andThen fun rest => Eng.ret (f b ++ rest) := by
  have hl := (hf b).1
  funext d
  have h1 : (Eng.raiseIf ((byte (f b).length).toNat == 0) .missingCode k).Gives () := Eng.raiseIf_gives _ _ (by
    rw [code_length_ne hl]
    cases h : f b
    · exact absurd h hc
    · rfl)
  have h2 : (capacityIf (s.params.payCap.toNat < p + (byte (f b).length).toNat) .paybuf).Gives () := capacityIf_gives (by
    rw [byte_toNat hl]
    simpa using hp)
  have h3 := readCode_gives hf b
  have h0 : (readByte s.inbuf k).Gives b := memRead_gives hb
  rw [encodeLoop, Eng.andThen_ok (h0 d), Eng.andThen_ok (readLen_gives hf b d), Eng.andThen_ok (h1 d),
    Eng.andThen_ok (h2 d), byte_toNat hl, Eng.andThen_ok (h3 d)]

theorem encodeLoop_gives {s : State} {f : Byte → Code} (hf : CtabIs s f) {bs : List Byte} {k p : Nat} (h : Cells.holds s.inbuf k bs)
    (hc : ∀ b ∈ bs, f b ≠ []) (hp : p + (bs.flatMap f).length ≤ s.params.payCap.toNat) :
    (encodeLoop s bs.length k p).Gives (bs.flatMap f) := by
  induction bs generalizing k p with
  | nil => exact Eng.gives_ret []
  | cons b bs ih =>
    obtain ⟨h0, h1⟩ := Cells.holds_cons.1 h
    rw [List.flatMap_cons, List.length_append] at hp
    rw [List.length_cons, encodeLoop_cons hf h0 (hc b (by simp)) (by omega)]
    exact (ih h1 (fun x hx => hc x (by simp [hx])) (by omega)).andThen (Eng.gives_ret _)

/-- The loop ends at the first byte without a code, or at the first code that does not fit (R140). -/
theorem encodeLoop_raises {s : State} {f : Byte → Code} (hf : CtabIs s f) {pre post : List Byte} {b : Byte} {k p : Nat}
    (h : Cells.holds s.inbuf k (pre ++ b :: post)) (hc : ∀ b ∈ pre, f b ≠ []) (hp : p + (pre.flatMap f).length ≤ s.params.payCap.toNat) :
    (f b = [] → (encodeLoop s (pre ++ b :: post).length k p).Raises .missingCode (k + pre.length)) ∧
    (f b ≠ [] → s.params.payCap.toNat < p + (pre.flatMap f).length + (f b).length →
      (encodeLoop s (pre ++ b :: post).length k p).Raises .capacity 5) := by
  induction pre generalizing k p with
  | nil =>
    obtain ⟨h0, _⟩ := Cells.holds_cons.1 h
    have hl := (hf b).1
    rw [List.nil_append, List.length_cons, encodeLoop]
    constructor
    · intro h1
      refine (memRead_gives h0).andThen_raises ((readLen_gives hf b).andThen_raises (Eng.Raises.andThen ?_))
      exact Eng.raiseIf_raises _ _ (by rw [code_length_ne hl, h1]; rfl)
    · intro h1 h2
      refine (memRead_gives h0).andThen_raises ((readLen_gives hf b).andThen_raises
        ((Eng.raiseIf_gives _ _ ?_).andThen_raises (Eng.Raises.andThen ?_)))
      · rw [code_length_ne hl]
        cases h : f b
        · exact absurd h h1
        · rfl
      · refine capacityIf_raises ?_
        rw [byte_toNat hl]
        simpa using h2
  | cons x pre ih =>
    rw [List.cons_append] at h
    obtain ⟨h0, h1⟩ := Cells.holds_cons.1 h
    rw [List.flatMap_cons, List.length_append] at hp
    have ih := ih (k := k + 1) (p := p + (f x).length) h1 (fun y hy => hc y (by simp [hy])) (by omega)
    have e : (x :: pre ++ b :: post).length = (pre ++ b :: post).length + 1 := rfl
    rw [e, encodeLoop_cons hf h0 (hc x (by simp)) (by omega)]
    constructor
    · intro hb
      have h2 := (ih.1 hb).andThen (f := fun rest => Eng.ret (f x ++ rest))
      rw [Nat.add_assoc, Nat.add_comm 1] at h2
      exact h2
    · intro hb hlt
      rw [List.flatMap_cons, List.length_append] at hlt
      exact (ih.2 hb (by omega)).andThen

/-- Whatever the loop reads, what it writes fits PAYBUF. -/
theorem encodeLoop_post (s : State) (m k p : Nat) (hp : p ≤ s.params.payCap.toNat) :
    (encodeLoop s m k p).Post fun c => p + c.length ≤ s.params.payCap.toNat := by
  induction m generalizing k p with
  | zero => exact Eng.post_ret (by simpa using hp)
  | succ m ih =>
    refine (Eng.post_true _).andThen fun b _ => (Eng.post_true _).andThen fun len _ => (Eng.post_true _).andThen fun _ _ =>
      (Eng.post_raiseIf _ _ _).andThen fun _ hcap => (memReads_length _ _ _ _).andThen fun c hc => ?_
    have hle : p + len.toNat ≤ s.params.payCap.toNat := by simpa using hcap
    refine (ih (k + 1) (p + len.toNat) hle).andThen fun rest hr => Eng.post_ret ?_
    rw [List.length_append, hc]
    omega

/-! ### DINV -/

theorem dtabGet_nil (c : Code) : dtabGet [] c = none := rfl

theorem dtabGet_some {d : List (Code × Byte)} {c : Code} {y : Byte} (h : dtabGet d c = some y) : (c, y) ∈ d := by
  unfold dtabGet at h
  split at h
  · rename_i e he
    have h1 := List.find?_some he
    have h2 := List.mem_of_find?_eq_some he
    rw [beq_iff_eq] at h1
    obtain ⟨c', y'⟩ := e
    simp only [Option.some.injEq] at h
    simp only at h1
    subst h1 h
    exact h2
  · simp at h

theorem dtabGet_isSome {d : List (Code × Byte)} {c : Code} : (dtabGet d c).isSome = true ↔ ∃ e ∈ d, e.1 = c := by
  constructor
  · intro h
    obtain ⟨y, hy⟩ := Option.isSome_iff_exists.1 h
    exact ⟨_, dtabGet_some hy, rfl⟩
  · rintro ⟨e, he, rfl⟩
    unfold dtabGet
    cases h : d.find? fun x => x.1 == e.1 with
    | some x => rfl
    | none =>
      have := List.find?_eq_none.1 h e he
      simp at this

/-- The pairs that Invert adds for the symbols listed (R161). -/
def inverseOf (f : Byte → Code) (l : List Nat) : List (Code × Byte) :=
  (l.filter fun sym => !(f (byte sym)).isEmpty).map fun sym => (f (byte sym), byte sym)

theorem mem_inverseOf {f : Byte → Code} {l : List Nat} {e : Code × Byte} :
    e ∈ inverseOf f l ↔ ∃ sym ∈ l, f (byte sym) ≠ [] ∧ e = (f (byte sym), byte sym) := by
  unfold inverseOf
  simp only [List.mem_map, List.mem_filter, Bool.not_eq_true', List.isEmpty_eq_false_iff]
  constructor
  · rintro ⟨sym, ⟨h1, h2⟩, rfl⟩
    exact ⟨sym, h1, h2, rfl⟩
  · rintro ⟨sym, h1, h2, rfl⟩
    exact ⟨sym, ⟨h1, h2⟩, rfl⟩

theorem inverseOf_cons (f : Byte → Code) (sym : Nat) (l : List Nat) :
    inverseOf f (sym :: l) = if f (byte sym) = [] then inverseOf f l else (f (byte sym), byte sym) :: inverseOf f l := by
  unfold inverseOf
  rw [List.filter_cons]
  by_cases h : f (byte sym) = []
  · simp [h]
  · have : (f (byte sym)).isEmpty = false := by simpa using h
    simp [this, h]

theorem inverseOf_append (f : Byte → Code) (l l' : List Nat) : inverseOf f (l ++ l') = inverseOf f l ++ inverseOf f l' := by
  simp [inverseOf]

/-- The symbols before the first one whose code is there already go into the table (R161). -/
theorem invertLoop_append {s : State} {f : Byte → Code} (hf : CtabIs s f) {l rest : List Nat} (hl : ∀ sym ∈ l, sym < 256)
    {d : List (Code × Byte)} (hd : ((d ++ inverseOf f l).map Prod.fst).Nodup) :
    invertLoop s (l ++ rest) d = invertLoop s rest (d ++ inverseOf f l) := by
  induction l generalizing d with
  | nil => simp [inverseOf]
  | cons sym l ih =>
    have hsym : (byte sym).toNat = sym := byte_toNat (by have := hl sym (by simp); omega)
    have hlen := (hf (byte sym)).1
    have h1 := readLen_gives hf (byte sym)
    have h2 := readCode_gives hf (byte sym)
    rw [hsym] at h1 h2
    rw [inverseOf_cons] at hd ⊢
    funext e
    rw [List.cons_append, invertLoop, Eng.andThen_ok (h1 e), byte_toNat hlen]
    by_cases h : f (byte sym) = []
    · rw [if_pos h] at hd ⊢
      rw [if_pos (by rw [h]; rfl), ih (fun x hx => hl x (by simp [hx])) hd]
    · rw [if_neg h] at hd ⊢
      rw [if_neg (by simpa using h), Eng.andThen_ok (h2 e)]
      have hno : (dtabGet d (f (byte sym))).isSome = false := by
        by_contra hc
        obtain ⟨x, hx, hxe⟩ := dtabGet_isSome.1 ((Bool.not_eq_false _).mp hc)
        rw [List.map_append, List.nodup_append] at hd
        exact hd.2.2 x.1 (List.mem_map.2 ⟨x, hx, rfl⟩) (f (byte sym)) (by simp) hxe
      rw [Eng.andThen_ok (formatIf_gives hno e), ih (fun x hx => hl x (by simp [hx])) (by simpa using hd)]
      simp

theorem invertLoop_gives {s : State} {f : Byte → Code} (hf : CtabIs s f) {l : List Nat} (hl : ∀ sym ∈ l, sym < 256)
    (hd : ((inverseOf f l).map Prod.fst).Nodup) : (invertLoop s l []).Gives (inverseOf f l) := by
  have := invertLoop_append hf (rest := []) hl (d := []) (by simpa using hd)
  rw [List.append_nil, List.nil_append] at this
  rw [this]
  exact Eng.gives_ret _

theorem inverseOf_nodup {f : Byte → Code} {l : List Nat} (hn : l.Nodup)
    (h : ∀ x ∈ l, ∀ y ∈ l, f (byte x) ≠ [] → f (byte x) = f (byte y) → x = y) : ((inverseOf f l).map Prod.fst).Nodup := by
  unfold inverseOf
  rw [List.map_map]
  refine List.Nodup.map_on ?_ (hn.filter _)
  intro x hx y hy hxy
  obtain ⟨hx1, hx2⟩ := List.mem_filter.1 hx
  exact h x hx1 y (List.mem_filter.1 hy).1 (by simpa using hx2) hxy

theorem inverseOf_symbols_nodup {f : Byte → Code} (h : CodesDiffer f) : ((inverseOf f symbols).map Prod.fst).Nodup := by
  refine inverseOf_nodup List.nodup_range fun x hx y hy h1 h2 => ?_
  have := congrArg BitVec.toNat (h _ _ h1 h2)
  have hx := mem_symbols.1 hx
  have hy := mem_symbols.1 hy
  rwa [byte_toNat (by omega), byte_toNat (by omega)] at this

/-- The pairs of all symbols are the inverse of the table (R43). -/
theorem dtabIs_inverseOf {f : Byte → Code} (h : CodesDiffer f) {s : State} (hs : s.dtab = inverseOf f symbols) : DtabIs s f := by
  intro c y
  rw [hs]
  constructor
  · intro hy
    obtain ⟨sym, _, h1, h2⟩ := mem_inverseOf.1 (dtabGet_some hy)
    rw [Prod.mk.injEq] at h2
    obtain ⟨rfl, rfl⟩ := h2
    exact ⟨h1, rfl⟩
  · rintro ⟨h1, rfl⟩
    have hm : (f y, y) ∈ inverseOf f symbols :=
      mem_inverseOf.2 ⟨y.toNat, mem_symbols.2 y.isLt, by rwa [byte_of_toNat], by rw [byte_of_toNat]⟩
    obtain ⟨z, hz⟩ := Option.isSome_iff_exists.1 (dtabGet_isSome.2 ⟨_, hm, rfl⟩)
    rw [hz]
    obtain ⟨sym, _, h3, h4⟩ := mem_inverseOf.1 (dtabGet_some hz)
    rw [Prod.mk.injEq] at h4
    obtain ⟨h4, rfl⟩ := h4
    rw [h y _ h1 h4]

/-- What Invert answers, whatever it reads: pairs in ascending symbol order, each with a bit-string of 1 to 255 bits, none twice (R43, R161). -/
theorem invertLoop_post (s : State) {l : List Nat} (hl : l.Pairwise (· < ·)) (h256 : ∀ x ∈ l, x < 256) {d : List (Code × Byte)}
    (hd : ∀ e ∈ d, ∀ x ∈ l, e.2.toNat < x) (h1 : Dtab.wf d) (h2 : ∀ e ∈ d, 1 ≤ e.1.length ∧ e.1.length ≤ 255)
    (h3 : (d.map Prod.fst).Nodup) :
    (invertLoop s l d).Post fun r => Dtab.wf r ∧ (∀ e ∈ r, 1 ≤ e.1.length ∧ e.1.length ≤ 255) ∧ (r.map Prod.fst).Nodup := by
  induction l generalizing d with
  | nil => exact Eng.post_ret ⟨h1, h2, h3⟩
  | cons sym l ih =>
    obtain ⟨hlt, hl⟩ := List.pairwise_cons.1 hl
    have hsym : (byte sym).toNat = sym := byte_toNat (by have := h256 sym (by simp); omega)
    rw [invertLoop]
    refine (Eng.post_true _).andThen fun len _ => ?_
    split
    · exact ih hl (fun x hx => h256 x (by simp [hx])) (fun e he x hx => hd e he x (by simp [hx])) h1 h2 h3
    · refine (memReads_length _ _ _ _).andThen fun c hc => (Eng.post_raiseIf _ _ _).andThen fun _ hno => ?_
      have hc' : c.length = len.toNat := hc
      have hb := len.isLt
      refine ih hl (fun x hx => h256 x (by simp [hx])) ?_ ?_ ?_ ?_
      · intro e he x hx
        rcases List.mem_append.1 he with he | he
        · exact hd e he x (by simp [hx])
        · rw [List.mem_singleton.1 he]
          simpa [hsym] using hlt x hx
      · refine List.pairwise_append.2 ⟨h1, List.pairwise_singleton _ _, fun e he y hy => ?_⟩
        rw [List.mem_singleton.1 hy]
        simpa [hsym] using hd e he sym (by simp)
      · intro e he
        rcases List.mem_append.1 he with he | he
        · exact h2 e he
        · rw [List.mem_singleton.1 he]
          simp only
          omega
      · rw [List.map_append, List.nodup_append]
        refine ⟨h3, by simp, fun a ha b hb hab => ?_⟩
        obtain ⟨e, he, rfl⟩ := List.mem_map.1 ha
        rw [List.map_singleton, List.mem_singleton] at hb
        rw [dtabGet_isSome.2 ⟨e, he, hab.trans hb⟩] at hno
        simp at hno

/-- The symbols of the pairs being in ascending order, there are at most 256 (R43). -/
theorem dtab_length {d : List (Code × Byte)} (h : Dtab.wf d) : d.length ≤ 256 := by
  have hn : (d.map Prod.snd).Nodup := by
    rw [List.Nodup, List.pairwise_map]
    exact h.imp fun hlt he => by rw [he] at hlt; exact absurd hlt (Nat.lt_irrefl _)
  have := byte_list_length hn
  rwa [List.length_map] at this

/-! ### DECODE -/

/-- Over a prefix-free table the codes of any bytes that have one are what the greedy decoder takes (R173). -/
theorem firstMatch_of_prefixFree {f : Byte → Code} (hp : PrefixFree f) {bs : List Byte} (hc : ∀ b ∈ bs, f b ≠ []) : FirstMatch f bs :=
  fun b hb => ⟨hc b hb, fun y hy hyb => hp y b hy hyb⟩

/-- A prefix of a code that begins with no other code is no code, if it is not the whole of it. -/
theorem dtabGet_proper {s : State} {f : Byte → Code} (hd : DtabIs s f) {b : Byte} (hp : ∀ y, f y ≠ [] → f y <+: f b → y = b) {c e : Code}
    (h : f b = c ++ e) (he : e ≠ []) : dtabGet s.dtab c = none := by
  cases hg : dtabGet s.dtab c with
  | none => rfl
  | some y =>
    obtain ⟨h1, h2⟩ := (hd c y).1 hg
    have hy : y = b := hp y (by rwa [h2]) (by rw [h2, h]; exact List.prefix_append _ _)
    rw [hy, h] at h2
    simp at h2
    exact absurd h2 he

/-- The loop over the rest of one code: it emits the symbol and starts the next candidate (R170). -/
theorem decodeLoop_code {s : State} {f : Byte → Code} (hd : DtabIs s f) {b : Byte} (hp : ∀ y, f y ≠ [] → f y <+: f b → y = b) {m i start o : Nat}
    {cand c : Code} (hb : f b = cand ++ c) (hc : c ≠ []) (h : Cells.holds s.paybuf i c) :
    decodeLoop s (c.length + m) i cand start o =
      (capacityIf (o == s.params.outCap.toNat) .outbuf).andThen fun _ =>
        (decodeLoop s m (i + c.length) [] (i + c.length) (o + 1)).andThen fun ys => Eng.ret (b :: ys) := by
  induction c generalizing i cand with
  | nil => exact absurd rfl hc
  | cons x c ih =>
    obtain ⟨h0, h1⟩ := Cells.holds_cons.1 h
    have hb' : f b = (cand ++ [x]) ++ c := by rw [hb]; simp
    funext d
    rw [List.length_cons, show c.length + 1 + m = (c.length + m) + 1 by omega, decodeLoop, readBit, Eng.andThen_ok (memRead_gives h0 d)]
    by_cases hc0 : c = []
    · subst hc0
      have hg : dtabGet s.dtab (cand ++ [x]) = some b := (hd _ _).2 ⟨by simp, by rw [hb']; simp⟩
      rw [hg]
      simp
    · rw [dtabGet_proper hd hp hb' hc0]
      simp only
      rw [ih hb' hc0 h1, show i + 1 + c.length = i + (c.length + 1) by omega]

theorem decodeLoop_gives {s : State} {f : Byte → Code} (hd : DtabIs s f) {bs : List Byte} {i o : Nat}
    (hc : FirstMatch f bs) (h : Cells.holds s.paybuf i (bs.flatMap f)) (ho : o + bs.length ≤ s.params.outCap.toNat) :
    (decodeLoop s (bs.flatMap f).length i [] i o).Gives bs := by
  induction bs generalizing i o with
  | nil => exact (Eng.raiseIf_gives _ _ rfl).andThen (Eng.gives_ret [])
  | cons b bs ih =>
    rw [List.flatMap_cons] at h
    obtain ⟨h0, h1⟩ := Cells.holds_append.1 h
    rw [List.length_cons] at ho
    rw [List.flatMap_cons, List.length_append, decodeLoop_code hd (hc b (by simp)).2 (cand := []) rfl (hc b (by simp)).1 h0]
    exact (capacityIf_gives (by rw [beq_eq_false_iff_ne]; omega)).andThen
      ((ih (fun x hx => hc x (by simp [hx])) h1 (by omega)).andThen (Eng.gives_ret _))

/-- The bytes of the codes, then what the loop does with the bits after them. -/
theorem decodeLoop_raises {s : State} {f : Byte → Code} (hd : DtabIs s f) {bs : List Byte} {i o m : Nat}
    {e : ErrCode} {n : Nat} (hc : FirstMatch f bs) (h : Cells.holds s.paybuf i (bs.flatMap f))
    (ho : o + bs.length ≤ s.params.outCap.toNat)
    (hr : (decodeLoop s m (i + (bs.flatMap f).length) [] (i + (bs.flatMap f).length) (o + bs.length)).Raises e n) :
    (decodeLoop s ((bs.flatMap f).length + m) i [] i o).Raises e n := by
  induction bs generalizing i o with
  | nil => simpa using hr
  | cons b bs ih =>
    rw [List.flatMap_cons] at h
    obtain ⟨h0, h1⟩ := Cells.holds_append.1 h
    rw [List.flatMap_cons, List.length_append, List.length_cons] at hr
    rw [List.length_cons] at ho
    rw [List.flatMap_cons, List.length_append, Nat.add_assoc, decodeLoop_code hd (hc b (by simp)).2 (cand := []) rfl (hc b (by simp)).1 h0]
    refine (capacityIf_gives (by rw [beq_eq_false_iff_ne]; omega)).andThen_raises (Eng.Raises.andThen ?_)
    refine ih (fun x hx => hc x (by simp [hx])) h1 (by omega) ?_
    rw [show i + (f b).length + (bs.flatMap f).length = i + ((f b).length + (bs.flatMap f).length) by omega,
      show o + 1 + bs.length = o + (bs.length + 1) by omega]
    exact hr

/-- Bits that no code is a beginning of end in TRUNCATED_PAYLOAD at the candidate's first bit (R170). -/
theorem decodeLoop_truncated {s : State} {f : Byte → Code} (hd : DtabIs s f) {i o start : Nat} {cand c : Code}
    (h : Cells.holds s.paybuf i c) (hne : cand ++ c ≠ []) (hno : ∀ b, f b ≠ [] → ¬ f b <+: cand ++ c) :
    (decodeLoop s c.length i cand start o).Raises .truncatedPayload start := by
  induction c generalizing i cand with
  | nil =>
    rw [List.append_nil] at hne
    refine (Eng.raiseIf_raises _ _ ?_).andThen
    cases cand
    · exact absurd rfl hne
    · rfl
  | cons x c ih =>
    obtain ⟨h0, h1⟩ := Cells.holds_cons.1 h
    rw [List.length_cons, decodeLoop]
    refine (memRead_gives h0).andThen_raises ?_
    have hg : dtabGet s.dtab (cand ++ [x]) = none := by
      cases hg : dtabGet s.dtab (cand ++ [x]) with
      | none => rfl
      | some y =>
        obtain ⟨h2, h3⟩ := (hd _ y).1 hg
        refine absurd ?_ (hno y (by rw [h3]; exact h2))
        rw [h3]
        exact ⟨c, by simp⟩
    rw [hg]
    exact ih h1 (by simp) (by simpa using hno)

/-- A byte too many ends in CAPACITY (R170). -/
theorem decodeLoop_capacity {s : State} {f : Byte → Code} (hd : DtabIs s f) {bs : List Byte} {rest : Code} {i o : Nat}
    (hc : FirstMatch f bs) (h : Cells.holds s.paybuf i (bs.flatMap f ++ rest)) (ho : o ≤ s.params.outCap.toNat)
    (hlt : s.params.outCap.toNat < o + bs.length) :
    (decodeLoop s (bs.flatMap f ++ rest).length i [] i o).Raises .capacity 6 := by
  induction bs generalizing i o with
  | nil => simp at hlt; omega
  | cons b bs ih =>
    rw [List.flatMap_cons, List.append_assoc] at h ⊢
    obtain ⟨h0, h1⟩ := Cells.holds_append.1 h
    rw [List.length_cons] at hlt
    rw [List.length_append, decodeLoop_code hd (hc b (by simp)).2 (cand := []) rfl (hc b (by simp)).1 h0]
    by_cases ho' : o = s.params.outCap.toNat
    · exact (capacityIf_raises (by rw [beq_iff_eq]; exact ho')).andThen
    · refine (capacityIf_gives (by rw [beq_eq_false_iff_ne]; exact ho')).andThen_raises (Eng.Raises.andThen ?_)
      exact ih (fun x hx => hc x (by simp [hx])) h1 (by omega) (by omega)

/-- Whatever the loop reads, what it emits fits OUTBUF. -/
theorem decodeLoop_post (s : State) (m i : Nat) (cand : Code) (start o : Nat) (ho : o ≤ s.params.outCap.toNat) :
    (decodeLoop s m i cand start o).Post fun ys => o + ys.length ≤ s.params.outCap.toNat := by
  induction m generalizing i cand start o with
  | zero => exact (Eng.post_true _).andThen fun _ _ => Eng.post_ret (by simpa using ho)
  | succ m ih =>
    refine (Eng.post_true _).andThen fun b _ => ?_
    split
    · refine (Eng.post_raiseIf _ _ _).andThen fun _ hne => ?_
      have : o ≠ s.params.outCap.toNat := by simpa using hne
      refine (ih _ _ _ (o + 1) (by omega)).andThen fun ys hy => Eng.post_ret ?_
      simp only [List.length_cons]
      omega
    · exact ih _ _ _ o ho

end Sys2Proof.Machine
end

