-- ==== Sys2Proof/Laws/Records.lean ====
section
/-! SUPPORT. The container (42_archive.md): byte order, parsing of a record that is whole, cut or ill-formed, and the bytes that AWREC writes. -/

namespace Sys2Proof.Machine

/-! ### Fields -/

theorem toLE64_length (v : Nat) : (toLE64 v).length = 8 := by simp [toLE64]

theorem toLE64_eq (v : Nat) : toLE64 v = [byte v, byte (v / 256), byte (v / 65536), byte (v / 16777216), byte (v / 4294967296),
    byte (v / 1099511627776), byte (v / 281474976710656), byte (v / 72057594037927936)] := by
  unfold toLE64
  simp [List.range_succ, Nat.shiftRight_eq_div_pow]

/-- Bytes in little-endian order give the number back (00_scope.md R11). -/
theorem fromLE_toLE64 {v : Nat} (h : v < 18446744073709551616) : fromLE (toLE64 v) = v := by
  rw [toLE64_eq]
  simp only [fromLE, byte, BitVec.toNat_ofNat]
  omega

theorem charBit_bitChar (b : Bool) : charBit (bitChar b) = some b := by cases b <;> decide

theorem charBit_none {y : Byte} (h0 : y ≠ 0x30) (h1 : y ≠ 0x31) : charBit y = none := by
  unfold charBit
  rw [if_neg h0, if_neg h1]

/-! ### Cells, cut -/

theorem Cells.holds_take_append {α : Type} {c : Cells α} {i k : Nat} {vs ws : List α} (h : Cells.holds c i ((vs ++ ws).take k))
    (hk : vs.length ≤ k) : Cells.holds c i vs ∧ Cells.holds c (i + vs.length) (ws.take (k - vs.length)) := by
  rw [List.take_append, List.take_of_length_le hk] at h
  exact Cells.holds_append.1 h

/-! ### Parsing what is there -/

theorem need_gives {s : State} {q k off : Nat} (h : q + k ≤ s.arcLen.toNat) : (need s q k off).Gives () :=
  formatIf_gives (by simpa using h)

theorem need_raises {s : State} {q k off : Nat} (h : s.arcLen.toNat < q + k) : (need s q k off).Raises .archiveFormat off :=
  formatIf_raises (by simpa using h)

theorem readField_gives {s : State} {q n : Nat} (h : Cells.holds s.arcbuf q (toLE64 n)) (hn : n < 18446744073709551616) :
    (readField s q).Gives n := by
  have hr : (readBytes s.arcbuf q 8).Gives (toLE64 n) := by
    have := memReads_gives (free := Config.unspecifiedByte) h
    rwa [toLE64_length] at this
  have he : (Eng.ret (fromLE (toLE64 n))).Gives n := fun d => by rw [fromLE_toLE64 hn]; rfl
  exact hr.andThen he

theorem lengthField_gives {s : State} {q n : Nat} (h : Cells.holds s.arcbuf q (toLE64 n)) (hn : n < 18446744073709551616)
    (hq : q + 8 ≤ s.arcLen.toNat) : (lengthField s q).Gives n := (need_gives hq).andThen (readField_gives h hn)

theorem lengthField_raises {s : State} {q : Nat} (hq : s.arcLen.toNat < q + 8) : (lengthField s q).Raises .archiveFormat q :=
  (need_raises hq).andThen

theorem parseBits_gives {s : State} {c : Code} {q : Nat} (h : Cells.holds s.arcbuf q (c.map bitChar)) : (parseBits s c.length q).Gives c := by
  induction c generalizing q with
  | nil => exact Eng.gives_ret []
  | cons b c ih =>
    rw [List.map_cons] at h
    obtain ⟨h0, h1⟩ := Cells.holds_cons.1 h
    rw [List.length_cons, parseBits]
    refine (memRead_gives h0).andThen ?_
    rw [charBit_bitChar]
    exact (ih h1).andThen (Eng.gives_ret _)

/-- A byte that is no bit character ends the parse at its offset (R196). -/
theorem parseBits_raises {s : State} {pre : Code} {y : Byte} {n q : Nat} (h : Cells.holds s.arcbuf q (pre.map bitChar ++ [y]))
    (hy : charBit y = none) (hn : pre.length < n) : (parseBits s n q).Raises .archiveFormat (q + pre.length) := by
  induction pre generalizing n q with
  | nil =>
    cases n with
    | zero => simp at hn
    | succ n =>
      rw [parseBits]
      refine (memRead_gives (Cells.holds_cons.1 h).1).andThen_raises ?_
      rw [hy]
      exact fun d => rfl
  | cons b pre ih =>
    cases n with
    | zero => simp at hn
    | succ n =>
      rw [List.map_cons, List.cons_append] at h
      obtain ⟨h0, h1⟩ := Cells.holds_cons.1 h
      rw [parseBits]
      refine (memRead_gives h0).andThen_raises ?_
      rw [charBit_bitChar]
      have := ih (n := n) h1 (by simpa using hn)
      rw [List.length_cons, show q + (pre.length + 1) = q + 1 + pre.length by omega]
      exact this.andThen

theorem containerEntry_length (e : Byte × Code) : (containerEntry e).length = 9 + e.2.length := by
  simp only [containerEntry, List.length_append, toLE64_length, List.length_map, List.length_singleton]
  omega

theorem entries_length (ct : List (Byte × Code)) : (ct.flatMap containerEntry).length = (ct.map fun e => 9 + e.2.length).sum := by
  rw [List.length_flatMap]
  simp only [containerEntry_length]

/-- Entries of legal lengths, no symbol and no code twice, are taken one after another (R197), whatever comes after them. -/
theorem parseEntries_append {s : State} {ct acc : List (Byte × Code)} {g : Nat} (m : Nat) (hl : ∀ e ∈ ct, 1 ≤ e.2.length ∧ e.2.length ≤ 255)
    (hs : ((acc ++ ct).map Prod.fst).Nodup) (hc : ((acc ++ ct).map Prod.snd).Nodup) (h : Cells.holds s.arcbuf g (ct.flatMap containerEntry))
    (hq : g + (ct.flatMap containerEntry).length ≤ s.arcLen.toNat) :
    parseEntries s (ct.length + m) g acc = parseEntries s m (g + (ct.flatMap containerEntry).length) (acc ++ ct) := by
  induction ct generalizing g acc with
  | nil => simp
  | cons e ct ih =>
    obtain ⟨h1, h2⟩ := hl e (by simp)
    rw [List.flatMap_cons, List.length_append, containerEntry_length] at hq
    rw [List.flatMap_cons] at h
    obtain ⟨ha, hb⟩ := Cells.holds_append.1 h
    rw [containerEntry_length] at hb
    unfold containerEntry at ha
    obtain ⟨ha, hsym⟩ := Cells.holds_append.1 ha
    obtain ⟨hlen, hbits⟩ := Cells.holds_append.1 ha
    rw [List.length_append, toLE64_length, List.length_map] at hsym
    rw [toLE64_length] at hbits
    have hs1 : (acc.any fun x => x.1 == e.1) = false := by
      by_contra hcon
      obtain ⟨x, hx, hxe⟩ := List.any_eq_true.1 ((Bool.not_eq_false _).mp hcon)
      rw [List.map_append, List.map_cons, List.nodup_append] at hs
      exact hs.2.2 x.1 (List.mem_map.2 ⟨x, hx, rfl⟩) e.1 (by simp) (by simpa using hxe)
    have hc1 : (acc.any fun x => x.2 == e.2) = false := by
      by_contra hcon
      obtain ⟨x, hx, hxe⟩ := List.any_eq_true.1 ((Bool.not_eq_false _).mp hcon)
      rw [List.map_append, List.map_cons, List.nodup_append] at hc
      exact hc.2.2 x.2 (List.mem_map.2 ⟨x, hx, rfl⟩) e.2 (by simp) (by simpa using hxe)
    have hrest := ih (acc := acc ++ [e]) (g := g + 8 + e.2.length + 1) (fun x hx => hl x (by simp [hx])) (by simpa using hs)
      (by simpa using hc) (by rw [show g + 8 + e.2.length + 1 = g + (9 + e.2.length) by omega]; exact hb) (by omega)
    have g2 : (formatIf (e.2.length == 0 || decide (Config.maxCodeLen < e.2.length)) g).Gives () := formatIf_gives (by
      rw [Bool.or_eq_false_iff]
      exact ⟨by rw [beq_eq_false_iff_ne]; omega, decide_eq_false (by unfold Config.maxCodeLen; omega)⟩)
    have hr : (readByte s.arcbuf (g + 8 + e.2.length)).Gives e.1 :=
      memRead_gives (by have := (Cells.holds_cons.1 hsym).1; rwa [← Nat.add_assoc] at this)
    funext d
    rw [List.length_cons, show ct.length + 1 + m = ct.length + m + 1 by omega, parseEntries,
      Eng.andThen_ok (lengthField_gives hlen (by omega) (by omega) d), Eng.andThen_ok (g2 d),
      Eng.andThen_ok (need_gives (s := s) (q := g + 8) (by omega) d), Eng.andThen_ok (parseBits_gives hbits d),
      Eng.andThen_ok (need_gives (s := s) (q := g + 8 + e.2.length) (k := 1) (by omega) d), Eng.andThen_ok (hr d),
      Eng.andThen_ok (formatIf_gives hs1 d), Eng.andThen_ok (formatIf_gives hc1 d), hrest, List.flatMap_cons, List.length_append,
      containerEntry_length]
    congr 1
    · omega
    · simp

/-- The entries parsed so far and those to come: legal lengths, no symbol and no code twice (R197). -/
theorem parseEntries_gives {s : State} {ct acc : List (Byte × Code)} {g : Nat} (hl : ∀ e ∈ ct, 1 ≤ e.2.length ∧ e.2.length ≤ 255)
    (hs : ((acc ++ ct).map Prod.fst).Nodup) (hc : ((acc ++ ct).map Prod.snd).Nodup) (h : Cells.holds s.arcbuf g (ct.flatMap containerEntry))
    (hq : g + (ct.flatMap containerEntry).length ≤ s.arcLen.toNat) :
    (parseEntries s ct.length g acc).Gives (acc ++ ct, g + (ct.flatMap containerEntry).length) := by
  have := parseEntries_append 0 hl hs hc h hq
  rw [Nat.add_zero] at this
  rw [this]
  exact Eng.gives_ret _

/-- Entries cut before their end do not parse (R191, R202). -/
theorem parseEntries_cut {s : State} {ct acc : List (Byte × Code)} {g k : Nat} (hl : ∀ e ∈ ct, 1 ≤ e.2.length ∧ e.2.length ≤ 255)
    (hs : ((acc ++ ct).map Prod.fst).Nodup) (hc : ((acc ++ ct).map Prod.snd).Nodup)
    (h : Cells.holds s.arcbuf g ((ct.flatMap containerEntry).take k)) (hk : k < (ct.flatMap containerEntry).length)
    (hq : s.arcLen.toNat = g + k) :
    ∃ off, off ≤ s.arcLen.toNat ∧ (parseEntries s ct.length g acc).Raises .archiveFormat off := by
  induction ct generalizing g acc k with
  | nil => simp at hk
  | cons e ct ih =>
    obtain ⟨h1, h2⟩ := hl e (by simp)
    rw [List.flatMap_cons, List.length_append, containerEntry_length] at hk
    rw [List.flatMap_cons] at h
    rw [List.length_cons, parseEntries]
    by_cases hk1 : k < 8
    · exact ⟨g, by omega, (lengthField_raises (by omega)).andThen⟩
    unfold containerEntry at h
    rw [List.append_assoc, List.append_assoc] at h
    obtain ⟨hlen, h⟩ := Cells.holds_take_append h (by rw [toLE64_length]; omega)
    rw [toLE64_length] at h
    have g1 := lengthField_gives hlen (by omega) (show g + 8 ≤ s.arcLen.toNat by omega)
    have g2 : (formatIf (e.2.length == 0 || decide (Config.maxCodeLen < e.2.length)) g).Gives () := formatIf_gives (by
      rw [Bool.or_eq_false_iff]
      exact ⟨by rw [beq_eq_false_iff_ne]; omega, decide_eq_false (by unfold Config.maxCodeLen; omega)⟩)
    by_cases hk2 : k < 8 + e.2.length
    · exact ⟨g, by omega, g1.andThen_raises (g2.andThen_raises (need_raises (by omega)).andThen)⟩
    obtain ⟨hbits, h⟩ := Cells.holds_take_append h (by rw [List.length_map]; omega)
    rw [List.length_map] at h
    have g3 := parseBits_gives hbits
    by_cases hk3 : k < 8 + e.2.length + 1
    · exact ⟨g + 8 + e.2.length, by omega, g1.andThen_raises (g2.andThen_raises ((need_gives (by omega)).andThen_raises
        (g3.andThen_raises (need_raises (by omega)).andThen)))⟩
    obtain ⟨hsym, h⟩ := Cells.holds_take_append h (by rw [List.length_singleton]; omega)
    rw [List.length_singleton] at h
    have hs1 : (acc.any fun x => x.1 == e.1) = false := by
      by_contra hcon
      obtain ⟨x, hx, hxe⟩ := List.any_eq_true.1 ((Bool.not_eq_false _).mp hcon)
      rw [List.map_append, List.map_cons, List.nodup_append] at hs
      exact hs.2.2 x.1 (List.mem_map.2 ⟨x, hx, rfl⟩) e.1 (by simp) (by simpa using hxe)
    have hc1 : (acc.any fun x => x.2 == e.2) = false := by
      by_contra hcon
      obtain ⟨x, hx, hxe⟩ := List.any_eq_true.1 ((Bool.not_eq_false _).mp hcon)
      rw [List.map_append, List.map_cons, List.nodup_append] at hc
      exact hc.2.2 x.2 (List.mem_map.2 ⟨x, hx, rfl⟩) e.2 (by simp) (by simpa using hxe)
    obtain ⟨off, ho, hr⟩ := ih (acc := acc ++ [e]) (g := g + 8 + e.2.length + 1) (k := k - 8 - e.2.length - 1)
      (fun x hx => hl x (by simp [hx])) (by simpa using hs) (by simpa using hc) h (by omega) (by omega)
    have g4 : (readByte s.arcbuf (g + 8 + e.2.length)).Gives e.1 := memRead_gives (Cells.holds_cons.1 hsym).1
    exact ⟨off, ho, g1.andThen_raises (g2.andThen_raises ((need_gives (by omega)).andThen_raises (g3.andThen_raises
      ((need_gives (by omega)).andThen_raises (g4.andThen_raises ((formatIf_gives hs1).andThen_raises
        ((formatIf_gives hc1).andThen_raises hr)))))))⟩

theorem tableLegal_length {ct : List (Byte × Code)} (h : TableLegal ct) : ct.length ≤ 256 := by
  have := byte_list_length h.2.1
  rwa [List.length_map] at this

theorem containerRecord_length (name : List Byte) (payload : Code) (ct : List (Byte × Code)) :
    (containerRecord name payload ct).length = 24 + name.length + payload.length + (ct.flatMap containerEntry).length := by
  simp only [containerRecord, List.length_append, toLE64_length, List.length_map]
  omega

/-- A whole legal record parses to what it was made of (R193). -/
theorem parseRecord_gives {s : State} {q : Nat} {name : List Byte} {payload : Code} {ct : List (Byte × Code)} (hct : TableLegal ct)
    (hn : name.length ≤ s.params.nameCap.toNat) (hp : payload.length ≤ s.params.payCap.toNat)
    (h : Cells.holds s.arcbuf q (containerRecord name payload ct)) (hq : q + (containerRecord name payload ct).length ≤ s.arcLen.toNat) :
    (parseRecord s q).Gives
      { name := name, payload := payload, codes := ct, next := q + (containerRecord name payload ct).length } := by
  have hnn : name.length < 18446744073709551616 := Nat.lt_of_le_of_lt hn s.params.nameCap.isLt
  have hpp : payload.length < 18446744073709551616 := Nat.lt_of_le_of_lt hp s.params.payCap.isLt
  have hcc := tableLegal_length hct
  rw [containerRecord_length] at hq
  unfold containerRecord at h
  obtain ⟨h, h6⟩ := Cells.holds_append.1 h
  obtain ⟨h, h5⟩ := Cells.holds_append.1 h
  obtain ⟨h, h4⟩ := Cells.holds_append.1 h
  obtain ⟨h, h3⟩ := Cells.holds_append.1 h
  obtain ⟨h1, h2⟩ := Cells.holds_append.1 h
  simp only [List.length_append, toLE64_length, List.length_map] at h2 h3 h4 h5 h6
  rw [parseRecord]
  refine (lengthField_gives h1 hnn (by omega)).andThen ((need_gives (by omega)).andThen ((capacityIf_gives (by simpa using hn)).andThen ?_))
  refine Eng.Gives.andThen (memReads_gives h2) ?_
  refine (lengthField_gives (by rw [Nat.add_assoc]; exact h3) hpp (by omega)).andThen ((need_gives (by omega)).andThen
    ((capacityIf_gives (by simpa using hp)).andThen ?_))
  refine (parseBits_gives (by rw [show q + 8 + name.length + 8 = q + (8 + name.length + 8) by omega]; exact h4)).andThen ?_
  refine (lengthField_gives (n := ct.length)
    (by rw [show q + 8 + name.length + 8 + payload.length = q + (8 + name.length + 8 + payload.length) by omega]; exact h5)
    (by omega) (by omega)).andThen ?_
  refine (formatIf_gives (decide_eq_false (by omega))).andThen ?_
  have he := parseEntries_gives (acc := []) (g := q + 8 + name.length + 8 + payload.length + 8) hct.1 hct.2.1 hct.2.2
    (by rw [show q + 8 + name.length + 8 + payload.length + 8 = q + (8 + name.length + 8 + payload.length + 8) by omega]; exact h6)
    (by omega)
  refine he.andThen ?_
  rw [containerRecord_length, show q + (24 + name.length + payload.length + (ct.flatMap containerEntry).length) =
    q + 8 + name.length + 8 + payload.length + 8 + (ct.flatMap containerEntry).length by omega]
  exact Eng.gives_ret _

/-- A record cut anywhere before its end does not parse (R191, R202). -/
theorem parseRecord_cut {s : State} {q k : Nat} {name : List Byte} {payload : Code} {ct : List (Byte × Code)} (hct : TableLegal ct)
    (hn : name.length ≤ s.params.nameCap.toNat) (hp : payload.length ≤ s.params.payCap.toNat)
    (h : Cells.holds s.arcbuf q ((containerRecord name payload ct).take k)) (hk : k < (containerRecord name payload ct).length)
    (hq : s.arcLen.toNat = q + k) :
    ∃ off, off ≤ s.arcLen.toNat ∧ (parseRecord s q).Raises .archiveFormat off := by
  have hnn : name.length < 18446744073709551616 := Nat.lt_of_le_of_lt hn s.params.nameCap.isLt
  have hpp : payload.length < 18446744073709551616 := Nat.lt_of_le_of_lt hp s.params.payCap.isLt
  have hcc := tableLegal_length hct
  rw [containerRecord_length] at hk
  unfold containerRecord at h
  simp only [List.append_assoc] at h
  rw [parseRecord]
  by_cases hk1 : k < 8
  · exact ⟨q, by omega, (lengthField_raises (by omega)).andThen⟩
  obtain ⟨h1, h⟩ := Cells.holds_take_append h (by rw [toLE64_length]; omega)
  rw [toLE64_length] at h
  have g1 := lengthField_gives h1 hnn (show q + 8 ≤ s.arcLen.toNat by omega)
  by_cases hk2 : k < 8 + name.length
  · exact ⟨q, by omega, g1.andThen_raises (need_raises (by omega)).andThen⟩
  obtain ⟨h2, h⟩ := Cells.holds_take_append h (by omega)
  have g2 : (readBytes s.arcbuf (q + 8) name.length).Gives name := memReads_gives h2
  have gn : (need s (q + 8) name.length q).Gives () := need_gives (by omega)
  have gc : (capacityIf (s.params.nameCap.toNat < name.length) .namebuf).Gives () := capacityIf_gives (by simpa using hn)
  by_cases hk3 : k < 8 + name.length + 8
  · exact ⟨q + 8 + name.length, by omega, g1.andThen_raises (gn.andThen_raises (gc.andThen_raises (g2.andThen_raises
      (lengthField_raises (by omega)).andThen)))⟩
  obtain ⟨h3, h⟩ := Cells.holds_take_append h (by rw [toLE64_length]; omega)
  rw [toLE64_length] at h
  have g3 := lengthField_gives h3 hpp (show q + 8 + name.length + 8 ≤ s.arcLen.toNat by omega)
  by_cases hk4 : k < 8 + name.length + 8 + payload.length
  · exact ⟨q + 8 + name.length, by omega, g1.andThen_raises (gn.andThen_raises (gc.andThen_raises (g2.andThen_raises
      (g3.andThen_raises (need_raises (by omega)).andThen))))⟩
  obtain ⟨h4, h⟩ := Cells.holds_take_append h (by rw [List.length_map]; omega)
  rw [List.length_map] at h
  have g4 := parseBits_gives h4
  have gm : (need s (q + 8 + name.length + 8) payload.length (q + 8 + name.length)).Gives () := need_gives (by omega)
  have gd : (capacityIf (s.params.payCap.toNat < payload.length) .paybuf).Gives () := capacityIf_gives (by simpa using hp)
  by_cases hk5 : k < 8 + name.length + 8 + payload.length + 8
  · exact ⟨q + 8 + name.length + 8 + payload.length, by omega, g1.andThen_raises (gn.andThen_raises (gc.andThen_raises (g2.andThen_raises
      (g3.andThen_raises (gm.andThen_raises (gd.andThen_raises (g4.andThen_raises (lengthField_raises (by omega)).andThen)))))))⟩
  obtain ⟨h5, h⟩ := Cells.holds_take_append h (by rw [toLE64_length]; omega)
  rw [toLE64_length] at h
  have g5 := lengthField_gives (n := ct.length) h5 (by omega) (show q + 8 + name.length + 8 + payload.length + 8 ≤ s.arcLen.toNat by omega)
  obtain ⟨off, ho, hr⟩ := parseEntries_cut (acc := []) hct.1 hct.2.1 hct.2.2 h (by omega) (by omega)
  exact ⟨off, ho, g1.andThen_raises (gn.andThen_raises (gc.andThen_raises (g2.andThen_raises (g3.andThen_raises (gm.andThen_raises
    (gd.andThen_raises (g4.andThen_raises (g5.andThen_raises ((formatIf_gives (decide_eq_false (by omega))).andThen_raises
      hr.andThen)))))))))⟩

/-! ### Writing a record -/

theorem presentFrom_eq (f : Byte → Code) (hf : ∀ b, (f b).length ≤ 255) (n a : Nat) (hn : a + n ≤ 256) :
    presentFrom a ((List.range' a n).map fun sym => byte (f (byte sym)).length) =
      ((List.range' a n).filter fun sym => !(f (byte sym)).isEmpty).map fun sym => (sym, (f (byte sym)).length) := by
  induction n generalizing a with
  | zero => rfl
  | succ n ih =>
    rw [List.range'_succ, List.map_cons, presentFrom, ih (a + 1) (by omega), List.filter_cons, byte_toNat (hf _)]
    cases h : f (byte a) with
    | nil => simp
    | cons x xs => simp [h]

/-- The bytes of the entries of a table, in ascending symbol order (R181, R182). -/
theorem entriesBytes_gives {s : State} {f : Byte → Code} (hf : CtabIs s f) (l : List Nat) (hl : ∀ sym ∈ l, sym < 256) :
    (entriesBytes s (l.map fun sym => (sym, (f (byte sym)).length))).Gives
      ((l.map fun sym => (byte sym, f (byte sym))).flatMap containerEntry) := by
  induction l with
  | nil => exact Eng.gives_ret []
  | cons sym l ih =>
    have hsym : (byte sym).toNat = sym := byte_toNat (by have := hl sym (by simp); omega)
    have hr := readCode_gives hf (byte sym)
    rw [hsym] at hr
    rw [List.map_cons, entriesBytes, List.map_cons, List.flatMap_cons]
    exact hr.andThen ((ih fun x hx => hl x (by simp [hx])).andThen (Eng.gives_ret _))

/-- CLEN of a table as one run of bytes (R42). -/
theorem clen_holds {s : State} {f : Byte → Code} (hf : CtabIs s f) :
    Cells.holds s.clen 0 ((List.range' 0 256).map fun sym => byte (f (byte sym)).length) := by
  intro j hj
  have hj' : j < 256 := by simpa using hj
  have := (hf (byte j)).2.1
  rw [byte_toNat (by omega)] at this
  rw [Nat.zero_add, this, List.getElem_map, List.getElem_range']
  simp

end Sys2Proof.Machine
end

