-- ==== Sys2Proof/Laws/Raises.lean ====
section
/-! SUPPORT. Which errors each piece of pseudocode can raise (60_exceptions.md R251), whatever it reads. -/

namespace Sys2Proof.Machine

variable {P : Raise → Prop}

theorem sequenceIf_postErr {c : Bool} {k : SeqDetail} (h : ∀ n, P ⟨.sequenceError, n⟩) : (sequenceIf c k).PostErr P :=
    Eng.postErr_raiseIf fun _ => h _

theorem capacityIf_postErr {c : Bool} {k : CapDetail} (h : ∀ n, P ⟨.capacity, n⟩) : (capacityIf c k).PostErr P := Eng.postErr_raiseIf fun _ => h _

theorem formatIf_postErr {c : Bool} {k : Nat} (h : ∀ n, P ⟨.archiveFormat, n⟩) : (formatIf c k).PostErr P := Eng.postErr_raiseIf fun _ => h _

theorem freqBody_postErr (s : State) : (freqBody s).PostErr P := (memReads_postErr _ _ _ _ _).andThen fun _ => Eng.postErr_ret

theorem buildBody_postErr (s : State) (h : ∀ n, P ⟨.emptyInput, n⟩) : (buildBody s).PostErr P := (memReads_postErr _ _ _ _ _).andThen fun _ =>
    (Eng.postErr_raiseIf fun _ => h _).andThen fun _ => Eng.postErr_ret

theorem walk_postErr (nodes : Cells Node) (f i : Nat) (p : Code) : (walk nodes f i p).PostErr P := by
  induction f generalizing i p with
  | zero => exact Eng.postErr_ret
  | succ f ih =>
    refine (memRead_postErr _ _ _ _).andThen fun n => ?_
    cases n with
    | leaf => exact Eng.postErr_ret
    | inner w l r => exact (ih _ _).andThen fun _ => (ih _ _).andThen fun _ => Eng.postErr_ret

theorem codegenBody_postErr (s : State) : (codegenBody s).PostErr P := by
  refine Eng.PostErr.andThen ((memRead_postErr _ _ _ _).andThen fun n => ?_) fun _ => Eng.postErr_ret
  cases n with
  | leaf => exact Eng.postErr_ret
  | inner w l r => exact walk_postErr _ _ _ _

theorem encodeLoop_postErr (s : State) (m k p : Nat) (h1 : ∀ n, P ⟨.missingCode, n⟩) (h2 : ∀ n, P ⟨.capacity, n⟩) : (encodeLoop s m k p).PostErr P := by
  induction m generalizing k p with
  | zero => exact Eng.postErr_ret
  | succ m ih => exact (memRead_postErr _ _ _ _).andThen fun _ => (memRead_postErr _ _ _ _).andThen fun _ => (Eng.postErr_raiseIf fun _ =>
      h1 _).andThen fun _ => (capacityIf_postErr h2).andThen fun _ => (memReads_postErr _ _ _ _ _).andThen fun _ => (ih _ _).andThen fun _ =>
          Eng.postErr_ret

theorem encodeBody_postErr (s : State) (h1 : ∀ n, P ⟨.missingCode, n⟩) (h2 : ∀ n, P ⟨.capacity, n⟩) : (encodeBody s).PostErr P :=
    (encodeLoop_postErr _ _ _ _ h1 h2).andThen fun _ => Eng.postErr_ret

theorem invertBody_postErr (s : State) (h : ∀ n, P ⟨.archiveFormat, n⟩) : (invertBody s).PostErr P := by
  refine Eng.PostErr.andThen ?_ fun _ => Eng.postErr_ret
  generalize ([] : List (Code × Byte)) = d
  generalize symbols = l
  induction l generalizing d with
  | nil => exact Eng.postErr_ret
  | cons x l ih =>
    refine (memRead_postErr _ _ _ _).andThen fun len => ?_
    split
    · exact ih _
    · exact (memReads_postErr _ _ _ _ _).andThen fun _ => (formatIf_postErr h).andThen fun _ => ih _

theorem decodeLoop_postErr (s : State) (m i : Nat) (c : Code) (st o : Nat) (h1 : ∀ n, P ⟨.truncatedPayload, n⟩) (h2 : ∀ n, P ⟨.capacity, n⟩) : (decodeLoop s m i c st o).PostErr P := by
  induction m generalizing i c st o with
  | zero => exact (Eng.postErr_raiseIf fun _ => h1 _).andThen fun _ => Eng.postErr_ret
  | succ m ih =>
    refine (memRead_postErr _ _ _ _).andThen fun b => ?_
    split
    · exact (capacityIf_postErr h2).andThen fun _ => (ih _ _ _ _).andThen fun _ => Eng.postErr_ret
    · exact ih _ _ _ _

theorem decodeBody_postErr (s : State) (h0 : ∀ n, P ⟨.sequenceError, n⟩) (h1 : ∀ n, P ⟨.truncatedPayload, n⟩) (h2 : ∀ n, P ⟨.capacity, n⟩) : (decodeBody s).PostErr P :=
  (sequenceIf_postErr h0).andThen fun _ => (capacityIf_postErr h2).andThen fun _ => (decodeLoop_postErr _ _ _ _ _ _ h1 h2).andThen fun _ =>
      Eng.postErr_ret

theorem need_postErr {s : State} {q k o : Nat} (h : ∀ n, P ⟨.archiveFormat, n⟩) : (need s q k o).PostErr P := formatIf_postErr h

theorem readField_postErr {s : State} {q : Nat} : (readField s q).PostErr P := (memReads_postErr _ _ _ _ _).andThen fun _ => Eng.postErr_ret

theorem lengthField_postErr {s : State} {q : Nat} (h : ∀ n, P ⟨.archiveFormat, n⟩) : (lengthField s q).PostErr P :=
    (need_postErr h).andThen fun _ => readField_postErr

theorem parseBits_postErr (s : State) (n q : Nat) (h : ∀ n, P ⟨.archiveFormat, n⟩) : (parseBits s n q).PostErr P := by
  induction n generalizing q with
  | zero => exact Eng.postErr_ret
  | succ n ih =>
    refine (memRead_postErr _ _ _ _).andThen fun y => ?_
    cases charBit y with
    | none => exact Eng.postErr_fail (h _)
    | some b => exact (ih _).andThen fun _ => Eng.postErr_ret

theorem parseEntries_postErr (s : State) (m g : Nat) (ct : List (Byte × Code)) (h : ∀ n, P ⟨.archiveFormat, n⟩) : (parseEntries s m g ct).PostErr P := by
  induction m generalizing g ct with
  | zero => exact Eng.postErr_ret
  | succ m ih => exact (lengthField_postErr h).andThen fun _ => (formatIf_postErr h).andThen fun _ => (need_postErr h).andThen fun _ =>
      (parseBits_postErr _ _ _ h).andThen fun _ => (need_postErr h).andThen fun _ => (memRead_postErr _ _ _ _).andThen fun _ =>
          (formatIf_postErr h).andThen fun _ => (formatIf_postErr h).andThen fun _ => ih _ _

theorem parseRecord_postErr (s : State) (q : Nat) (h : ∀ n, P ⟨.archiveFormat, n⟩) (h2 : ∀ n, P ⟨.capacity, n⟩) : (parseRecord s q).PostErr P :=
  (lengthField_postErr h).andThen fun _ => (need_postErr h).andThen fun _ => (capacityIf_postErr h2).andThen fun _ =>
      (memReads_postErr _ _ _ _ _).andThen fun _ => (lengthField_postErr h).andThen fun _ => (need_postErr h).andThen fun _ =>
          (capacityIf_postErr h2).andThen fun _ => (parseBits_postErr _ _ _ h).andThen fun _ => (lengthField_postErr h).andThen fun _ =>
              (formatIf_postErr h).andThen fun _ => (parseEntries_postErr _ _ _ _ h).andThen fun _ => Eng.postErr_ret

theorem arrecBody_postErr (s : State) (h0 : ∀ n, P ⟨.sequenceError, n⟩) (h : ∀ n, P ⟨.archiveFormat, n⟩) (h2 : ∀ n, P ⟨.capacity, n⟩) : (arrecBody s).PostErr P :=
  (sequenceIf_postErr h0).andThen fun _ => (sequenceIf_postErr h0).andThen fun _ => (parseRecord_postErr _ _ h h2).andThen fun _ =>
      (invertBody_postErr _ h).andThen fun _ => Eng.postErr_ret

theorem entriesBytes_postErr (s : State) (l : List (Nat × Nat)) : (entriesBytes s l).PostErr P := by
  induction l with
  | nil => exact Eng.postErr_ret
  | cons e l ih => exact (memReads_postErr _ _ _ _ _).andThen fun _ => ih.andThen fun _ => Eng.postErr_ret

theorem appendRecord_postErr (s : State) (h2 : ∀ n, P ⟨.capacity, n⟩) : (appendRecord s).PostErr P :=
  (memReads_postErr _ _ _ _ _).andThen fun _ => (capacityIf_postErr h2).andThen fun _ =>
      Eng.PostErr.andThen ((memReads_postErr _ _ _ _ _).andThen fun _ => (memReads_postErr _ _ _ _ _).andThen fun _ =>
          (entriesBytes_postErr _ _).andThen fun _ => Eng.postErr_ret) fun _ => Eng.postErr_ret

end Sys2Proof.Machine
end

