-- ==== Sys2Proof/Laws/Effects.lean ====
section
/-! SUPPORT. What each command's pseudocode can answer, whatever it reads: one lemma per piece, cited instead of unfolding it. -/

namespace Sys2Proof.Machine

/-- The pseudocode of each command (30_encoding.md R82), from its first check on. -/
def bodyOf (i : Instr) (s : State) : Eng State :=
  match i with
  | .nop => Eng.ret s
  | .reset => Eng.ret (softReset s)
  | .abort => Eng.ret (abortSessions s)
  | .freq => (needInCap s).andThen fun _ => freqBody s
  | .build => (needFreq s).andThen fun _ => buildBody s
  | .codegen => (needTree s).andThen fun _ => codegenBody s
  | .encode => (needCtab s).andThen fun _ => (needInCap s).andThen fun _ => encodeBody s
  | .compress => (needInCap s).andThen fun _ => (freqBody s).andThen fun s1 =>
      if s1.distinct = 0 then Eng.ret (emptyBody s1) else chainBody s1
  | .dinv => (needCtab s).andThen fun _ => invertBody s
  | .decode => decodeBody s
  | .awbegin => (sequenceIf (s.status.aw == .opened) .writeOpen).andThen fun _ =>
      (sequenceIf (s.status.ar == .opened) .readOpen).andThen fun _ =>
        Eng.ret { s with arcbuf := cellsFrom 0 (toLE64 0), arcLen := 8, recCount := 0, status := { s.status with aw := .opened } }
  | .awrec => (sequenceIf (s.status.aw != .opened) .writeNotOpen).andThen fun _ =>
      (needCtab s).andThen fun _ => (needNameCap s).andThen fun _ => (needPayCap s).andThen fun _ => appendRecord s
  | .awend => (sequenceIf (s.status.aw != .opened) .writeNotOpen).andThen fun _ =>
      Eng.ret { s with arcbuf := Cells.writeRange s.arcbuf 0 (toLE64 s.recCount.toNat), status := { s.status with aw := .idle } }
  | .arbegin => (sequenceIf (s.status.ar == .opened) .readOpen).andThen fun _ =>
      (sequenceIf (s.status.aw == .opened) .writeOpen).andThen fun _ =>
        (needArcCap s).andThen fun _ =>
          (formatIf (s.arcLen.toNat < 8) 0).andThen fun _ =>
            (readField s 0).andThen fun c =>
              Eng.ret { s with recCount := word c, recRemain := word c, arcCur := 8, status := { s.status with ar := .opened } }
  | .arrec => arrecBody s
  | .arend => (sequenceIf (s.status.ar != .opened) .readNotOpen).andThen fun _ =>
      (sequenceIf (s.recRemain != 0) .someRemain).andThen fun _ =>
        (formatIf (s.arcCur != s.arcLen) s.arcCur.toNat).andThen fun _ =>
          Eng.ret { s with status := { s.status with ar := .idle } }
  | .extract => (arrecBody s).andThen fun t => decodeBody t

/-- Every command is the run of its pseudocode (R250). -/
theorem exec_eq_run (i : Instr) (s : State) : exec i s = runCommand (destinations i) (bodyOf i s) s := by cases i <;> rfl

/-- What a next state of a command can be (R253, R254). -/
theorem exec_next {i : Instr} {s t : State} (h : exec i s = .next t) :
    (∃ u d, bodyOf i s s.draws = (.ok u, d) ∧ t = (successCompletion u).noteReads d) ∨
    (∃ r d, bodyOf i s s.draws = (.error r, d) ∧ t = (errorCompletion (destinations i) r s).noteReads d) := by
  rw [exec_eq_run] at h
  exact runCommand_cases h

/-- A command completes with ERR = 1 only by error completion, and with ERR = 0 only by success (R253, R254). -/
theorem errorCompletion_err (ds : List Dest) (r : Raise) (s : State) : (errorCompletion ds r s).status.err = true := by
  obtain ⟨_, _, _, _, h⟩ := errorCompletion_status ds r s
  rw [h]

/-! ### What the pieces answer -/

/-- FREQ (R100). -/
def FreqEffect (s t : State) : Prop :=
  ∃ fs : List Nat, fs.length = 256 ∧ (∀ n ∈ fs, n < 2 ^ 64) ∧
    t = { s with freq := cellsFrom 0 (fs.map word), distinct := word (fs.countP fun n => 1 ≤ n), status := { s.status with freqV := true } }

theorem freqBody_post (s : State) : (freqBody s).Post (FreqEffect s) :=
  (memReads_length _ _ _ _).andThen fun bs hbs => Eng.post_ret ⟨_, by simp [countBytes, symbols_length], fun n hn => by
    obtain ⟨sym, _, rfl⟩ := List.mem_map.1 hn
    have h1 : bs.length = s.inLen.toNat := hbs
    exact Nat.lt_of_le_of_lt List.countP_le_length (h1 ▸ s.inLen.isLt), rfl⟩

/-- BUILD (R110, R112): a tree with distinct symbols. -/
def BuildEffect (s t : State) : Prop :=
  ∃ (ns : List Node) (root : Word) (tree : CodeTree), ns.length ≤ 511 ∧ Represents (cellsFrom 0 ns) root.toNat tree ∧ tree.syms.Nodup ∧
    t = { s with nodes := cellsFrom 0 ns, root := root, nodeCount := word ns.length, status := { s.status with treeV := true } }

theorem buildBody_post (s : State) : (buildBody s).Post (BuildEffect s) := by
  refine (memReads_length _ _ _ _).andThen fun ws hw => (Eng.post_raiseIf _ _ _).andThen fun _ he => Eng.post_ret ?_
  have hw : ws.length = 256 := hw
  have hl : (leavesFrom 0 ws).length ≤ 256 := (leavesFrom_length ws 0).trans (by rw [hw])
  have hne : leavesFrom 0 ws ≠ [] := by
    intro h
    simp [h] at he
  obtain ⟨T, w, h⟩ := buildTree_inv (pickOf_mem s.params.tieBreak) hl hne leavesFrom_leaf
  have hc := h.count
  rw [List.length_singleton] at hc
  have hids := h.ids
  simp only [List.map_cons, List.map_nil] at hids
  have hroot : (buildTree (pickOf s.params.tieBreak) (leavesFrom 0 ws)).2 < (buildTree (pickOf s.params.tieBreak) (leavesFrom 0 ws)).1.length := by
    have hm : (buildTree (pickOf s.params.tieBreak) (leavesFrom 0 ws)).2 ∈
        childIds (buildTree (pickOf s.params.tieBreak) (leavesFrom 0 ws)).1 ++ [(buildTree (pickOf s.params.tieBreak) (leavesFrom 0 ws)).2] := by
      simp
    exact List.mem_range.1 (hids.mem_iff.1 hm)
  have hleaf := h.leaf
  rw [List.flatMap_singleton] at hleaf
  refine ⟨_, _, T (buildTree (pickOf s.params.tieBreak) (leavesFrom 0 ws)).2, ?_, ?_, ?_, rfl⟩
  · omega
  · rw [word_toNat (Nat.lt_trans (show _ < 512 by omega) (by decide))]
    exact h.rep _ (List.mem_singleton_self _)
  · rw [syms_eq_leaves]
    exact (hleaf.map Prod.fst).nodup_iff.2 (leavesFrom_syms_nodup ws (by rw [hw]))

/-- CODEGEN (R120): codes of at most 255 bits; those of the tree, where NODES holds one. -/
def CodegenEffect (s t : State) : Prop :=
  ∃ ct : List (Byte × Code), (∀ e ∈ ct, e.2.length ≤ 255) ∧ t = s.withCodes ct (codeCountOf ct) ∧
    ∀ tree : CodeTree, Represents s.nodes s.root.toNat tree → tree.syms.Nodup → ct = tree.codes

theorem codegenBody_post (s : State) : (codegenBody s).Post (CodegenEffect s) := by
  intro d t d' h
  unfold codegenBody at h
  rcases Eng.andThen_cases (treeCodes s.nodes s.root.toNat) (fun ct => Eng.ret (s.withCodes ct (codeCountOf ct))) d with
    ⟨r, d1, h1, h2⟩ | ⟨ct, d1, h1, h2⟩
  · rw [h2] at h
    cases h
  · rw [h2] at h
    cases h
    refine ⟨ct, treeCodes_post _ _ _ _ _ h1, rfl, fun tree ht hn => ?_⟩
    have := treeCodes_gives ht hn d
    rw [h1] at this
    cases this
    rfl

/-- ENCODE (R140). -/
def EncodeEffect (s t : State) : Prop :=
  ∃ bits : Code, bits.length ≤ s.params.payCap.toNat ∧ t = { s with paybuf := cellsFrom 0 bits, payLen := word bits.length }

theorem encodeBody_post (s : State) : (encodeBody s).Post (EncodeEffect s) :=
  (encodeLoop_post s _ 0 0 (Nat.zero_le _)).andThen fun bits h => Eng.post_ret ⟨bits, by simpa using h, rfl⟩

/-- COMPRESS (R150, R151): the empty output where DISTINCT = 0 after the count, else the chain. -/
def CompressEffect (s t : State) : Prop :=
  ∃ s1, FreqEffect s s1 ∧
    (s1.distinct = 0 ∧ t = emptyBody s1 ∨ s1.distinct ≠ 0 ∧ ∃ s2 s3, BuildEffect s1 s2 ∧ CodegenEffect s2 s3 ∧ EncodeEffect s3 t)

theorem compressBody_post (s : State) : (bodyOf .compress s).Post (CompressEffect s) := by
  refine (Eng.post_true _).andThen fun _ _ => (freqBody_post s).andThen fun s1 h1 => ?_
  split
  · next h0 => exact Eng.post_ret ⟨s1, h1, .inl ⟨h0, rfl⟩⟩
  · next h0 => exact (buildBody_post s1).andThen fun s2 h2 => (codegenBody_post s2).andThen fun s3 h3 => (encodeBody_post s3).mono fun t h4 =>
      ⟨s1, h1, .inr ⟨h0, s2, s3, h2, h3, h4⟩⟩

/-- DINV (R160). -/
def InvertEffect (s t : State) : Prop := ∃ d, Dtab.wf d ∧ DtabLegal d ∧ t = { s with dtab := d, status := { s.status with dtabV := true } }

theorem invertBody_post (s : State) : (invertBody s).Post (InvertEffect s) :=
  (invertLoop_post s List.pairwise_lt_range (fun _ hx => mem_symbols.1 hx) (by simp) List.Pairwise.nil (by simp) (by simp)).andThen
    fun d h => Eng.post_ret ⟨d, h.1, ⟨dtab_length h.1, h.2⟩, rfl⟩

/-- DECODE (R170). -/
def DecodeEffect (s t : State) : Prop :=
  ∃ ys : List Byte, ys.length ≤ s.params.outCap.toNat ∧ t = { s with outbuf := cellsFrom 0 ys, outLen := word ys.length }

theorem decodeBody_post (s : State) : (decodeBody s).Post (DecodeEffect s) :=
  (Eng.post_true _).andThen fun _ _ => (Eng.post_true _).andThen fun _ _ =>
    (decodeLoop_post s _ 0 [] 0 0 (Nat.zero_le _)).andThen fun ys h => Eng.post_ret ⟨ys, by simpa using h, rfl⟩

theorem parseBits_length (s : State) (n q : Nat) : (parseBits s n q).Post fun c => c.length = n := by
  induction n generalizing q with
  | zero => exact Eng.post_ret rfl
  | succ n ih =>
    refine (Eng.post_true _).andThen fun y _ => ?_
    cases charBit y with
    | none => exact Eng.post_fail
    | some b => exact (ih (q + 1)).andThen fun c h => Eng.post_ret (by simp [h])

theorem post_need (s : State) (q k off : Nat) : (need s q k off).Post fun _ => q + k ≤ s.arcLen.toNat :=
  (Eng.post_raiseIf _ _ _).mono fun _ h => by simpa using h

theorem lengthField_post (s : State) (q : Nat) : (lengthField s q).Post fun _ => q + 8 ≤ s.arcLen.toNat :=
  (post_need s q 8 q).andThen fun _ h => (Eng.post_true _).mono fun _ _ => h

/-- The entries parsed are legal, and they end inside the container (R193, R197). -/
theorem parseEntries_post (s : State) (m g : Nat) (ct : List (Byte × Code)) (hct : TableLegal ct) (hg : g ≤ s.arcLen.toNat) :
    (parseEntries s m g ct).Post fun r => TableLegal r.1 ∧ r.1.length = ct.length + m ∧ g ≤ r.2 ∧ r.2 ≤ s.arcLen.toNat := by
  induction m generalizing g ct with
  | zero => exact Eng.post_ret ⟨hct, rfl, Nat.le_refl _, hg⟩
  | succ m ih =>
    refine (lengthField_post s g).andThen fun cl _ => (Eng.post_raiseIf _ _ _).andThen fun _ hcl => (Eng.post_true _).andThen fun _ _ =>
      (parseBits_length s cl _).andThen fun c hc => (post_need s _ 1 _).andThen fun _ hend => (Eng.post_true _).andThen fun sym _ =>
        (Eng.post_raiseIf _ _ _).andThen fun _ hsym => (Eng.post_raiseIf _ _ _).andThen fun _ hcode => ?_
    rw [Bool.or_eq_false_iff, beq_eq_false_iff_ne, decide_eq_false_iff_not] at hcl
    unfold Config.maxCodeLen at hcl
    have hs : ∀ e ∈ ct, e.1 ≠ sym := by
      intro e he hes
      have := List.any_eq_false.1 hsym e he
      simp [hes] at this
    have hc' : ∀ e ∈ ct, e.2 ≠ c := by
      intro e he hec
      have := List.any_eq_false.1 hcode e he
      simp [hec] at this
    refine (ih (g + 8 + cl + 1) (ct ++ [(sym, c)]) ⟨?_, ?_, ?_⟩ hend).mono fun r hr => ⟨hr.1, ?_, ?_, hr.2.2.2⟩
    · intro e he
      rcases List.mem_append.1 he with he | he
      · exact hct.1 e he
      · rw [List.mem_singleton.1 he]
        simp only
        omega
    · rw [List.map_append, List.nodup_append]
      refine ⟨hct.2.1, by simp, fun a ha b hb => ?_⟩
      obtain ⟨e, he, rfl⟩ := List.mem_map.1 ha
      rw [List.map_singleton, List.mem_singleton] at hb
      rw [hb]
      exact hs e he
    · rw [List.map_append, List.nodup_append]
      refine ⟨hct.2.2, by simp, fun a ha b hb => ?_⟩
      obtain ⟨e, he, rfl⟩ := List.mem_map.1 ha
      rw [List.map_singleton, List.mem_singleton] at hb
      rw [hb]
      exact hc' e he
    · have := hr.2.1
      rw [List.length_append, List.length_singleton] at this
      omega
    · have := hr.2.2.1
      omega

/-- A record that parsed (R193). -/
def RecordParsed (s : State) (q : Nat) (r : Record) : Prop :=
  r.name.length ≤ s.params.nameCap.toNat ∧ r.payload.length ≤ s.params.payCap.toNat ∧ TableLegal r.codes ∧
    q ≤ r.next ∧ r.next ≤ s.arcLen.toNat

theorem parseRecord_post (s : State) (q : Nat) : (parseRecord s q).Post (RecordParsed s q) := by
  refine (Eng.post_true _).andThen fun nl _ => (Eng.post_true _).andThen fun _ _ => (Eng.post_raiseIf _ _ _).andThen fun _ hn =>
    (memReads_length _ _ _ _).andThen fun nm hnm => (Eng.post_true _).andThen fun pl _ => (Eng.post_true _).andThen fun _ _ =>
      (Eng.post_raiseIf _ _ _).andThen fun _ hp => (parseBits_length s pl _).andThen fun pb hpb => (lengthField_post s _).andThen fun cc hq2 =>
        (Eng.post_true _).andThen fun _ _ => (parseEntries_post s cc _ [] ⟨by simp, by simp, by simp⟩ hq2).andThen fun r hr =>
          Eng.post_ret ⟨?_, ?_, hr.1, ?_, hr.2.2.2⟩
  · rw [hnm]
    simpa using hn
  · rw [hpb]
    simpa using hp
  · have := hr.2.2.1
    simp only
    omega

/-- ARREC (R192). -/
def ArrecEffect (s t : State) : Prop :=
  ∃ (r : Record) (d : List (Code × Byte)), s.status.ar = .opened ∧ s.recRemain ≠ 0 ∧ RecordParsed s s.arcCur.toNat r ∧ Dtab.wf d ∧ DtabLegal d ∧
    t = { s with namebuf := cellsFrom 0 r.name, nameLen := word r.name.length, paybuf := cellsFrom 0 r.payload,
                 payLen := word r.payload.length, clen := clenOf r.codes, cbit := cbitOf r.codes, codeCount := word r.codes.length,
                 dtab := d, arcCur := word r.next, recRemain := s.recRemain - 1,
                 status := { s.status with ctabV := true, dtabV := true } }

theorem arrecBody_post (s : State) : (arrecBody s).Post (ArrecEffect s) := by
  refine (Eng.post_raiseIf _ _ _).andThen fun _ h1 => (Eng.post_raiseIf _ _ _).andThen fun _ h2 =>
    (parseRecord_post s _).andThen fun r hr => (invertBody_post _).andThen fun t ht => Eng.post_ret ?_
  obtain ⟨d, hd, hd', rfl⟩ := ht
  refine ⟨r, d, ?_, ?_, hr, hd, hd', rfl⟩
  · by_contra hne
    rw [bne_eq_false_iff_eq] at h1
    exact hne h1
  · rw [beq_eq_false_iff_ne] at h2
    exact h2

/-- EXTRACT (R201). -/
def ExtractEffect (s t : State) : Prop := ∃ u, ArrecEffect s u ∧ DecodeEffect u t

theorem extractBody_post (s : State) : (bodyOf .extract s).Post (ExtractEffect s) :=
  (arrecBody_post s).andThen fun u hu => (decodeBody_post u).mono fun _ ht => ⟨u, hu, ht⟩

theorem presentFrom_length (ls : List Byte) (a : Nat) : (presentFrom a ls).length ≤ ls.length := by
  induction ls generalizing a with
  | nil => simp [presentFrom]
  | cons l ls ih =>
    rw [presentFrom]
    split
    · have := ih (a + 1)
      simp only [List.length_cons]
      omega
    · have := ih (a + 1)
      simp only [List.length_cons]
      omega

theorem entriesBytes_length (s : State) (l : List (Nat × Nat)) :
    (entriesBytes s l).Post fun bs => bs.length = (l.map fun e => 9 + e.2).sum := by
  induction l with
  | nil => exact Eng.post_ret rfl
  | cons e l ih =>
    obtain ⟨sym, len⟩ := e
    refine (memReads_length _ _ _ _).andThen fun c hc => ih.andThen fun bs hb => Eng.post_ret ?_
    simp only [entryBytes, List.length_append, toLE64_length, List.length_map, List.length_singleton, hc, hb, List.map_cons, List.sum_cons]
    omega

/-- What AWREC writes is as long as RecSize says (R183). -/
theorem recordBytes_length (s : State) (l : List (Nat × Nat)) :
    (recordBytes s l).Post fun bs => bs.length = recSize s.nameLen.toNat s.payLen.toNat l := by
  refine (memReads_length _ _ _ _).andThen fun nm hn => (memReads_length _ _ _ _).andThen fun pb hp =>
    (entriesBytes_length s l).andThen fun es he => Eng.post_ret ?_
  simp only [List.length_append, toLE64_length, List.length_map, hn, hp, he, recSize]
  omega

/-- AWREC (R186). -/
def AwrecEffect (s t : State) : Prop :=
  ∃ bs : List Byte, s.status.aw = .opened ∧ s.arcLen.toNat + bs.length ≤ s.params.arcCap.toNat ∧
    t = { s with arcbuf := Cells.writeRange s.arcbuf s.arcLen.toNat bs, arcLen := word (s.arcLen.toNat + bs.length),
                 recCount := word (s.recCount.toNat + 1) }

theorem awrecBody_post (s : State) : (bodyOf .awrec s).Post (AwrecEffect s) := by
  refine (Eng.post_raiseIf _ _ _).andThen fun _ h1 => (Eng.post_true _).andThen fun _ _ => (Eng.post_true _).andThen fun _ _ =>
    (Eng.post_true _).andThen fun _ _ => (Eng.post_true _).andThen fun lens _ => (Eng.post_raiseIf _ _ _).andThen fun _ h2 =>
      (recordBytes_length s _).andThen fun bs hb => Eng.post_ret ⟨bs, ?_, ?_, ?_⟩
  · rw [bne_eq_false_iff_eq] at h1
    exact h1
  · rw [hb]
    simpa using h2
  · rw [hb]

/-- AWBEGIN (R185). -/
def AwbeginEffect (s t : State) : Prop :=
  s.status.aw = .idle ∧ s.status.ar = .idle ∧
    t = { s with arcbuf := cellsFrom 0 (toLE64 0), arcLen := 8, recCount := 0, status := { s.status with aw := .opened } }

theorem session_idle {x : Session} (h : (x == .opened) = false) : x = .idle := by
  cases x
  · rfl
  · simp at h

theorem session_opened {x : Session} (h : (x != .opened) = false) : x = .opened := by
  cases x
  · simp at h
  · rfl

theorem awbeginBody_post (s : State) : (bodyOf .awbegin s).Post (AwbeginEffect s) :=
  (Eng.post_raiseIf _ _ _).andThen fun _ h1 => (Eng.post_raiseIf _ _ _).andThen fun _ h2 =>
    Eng.post_ret ⟨session_idle h1, session_idle h2, rfl⟩

/-- AWEND (R188). -/
def AwendEffect (s t : State) : Prop :=
  s.status.aw = .opened ∧
    t = { s with arcbuf := Cells.writeRange s.arcbuf 0 (toLE64 s.recCount.toNat), status := { s.status with aw := .idle } }

theorem awendBody_post (s : State) : (bodyOf .awend s).Post (AwendEffect s) :=
  (Eng.post_raiseIf _ _ _).andThen fun _ h => Eng.post_ret ⟨session_opened h, rfl⟩

/-- ARBEGIN (R190). -/
def ArbeginEffect (s t : State) : Prop :=
  ∃ c : Nat, s.status.aw = .idle ∧ s.status.ar = .idle ∧ 8 ≤ s.arcLen.toNat ∧ s.arcLen.toNat ≤ s.params.arcCap.toNat ∧
    t = { s with recCount := word c, recRemain := word c, arcCur := 8, status := { s.status with ar := .opened } }

theorem arbeginBody_post (s : State) : (bodyOf .arbegin s).Post (ArbeginEffect s) :=
  (Eng.post_raiseIf _ _ _).andThen fun _ h1 => (Eng.post_raiseIf _ _ _).andThen fun _ h2 => (Eng.post_raiseIf _ _ _).andThen fun _ h3 =>
    (Eng.post_raiseIf _ _ _).andThen fun _ h4 => (Eng.post_true _).andThen fun c _ => Eng.post_ret
      ⟨c, session_idle h2, session_idle h1, by simpa using h4, by simpa using h3, rfl⟩

/-- AREND (R200). -/
def ArendEffect (s t : State) : Prop :=
  s.status.ar = .opened ∧ s.recRemain = 0 ∧ s.arcCur = s.arcLen ∧ t = { s with status := { s.status with ar := .idle } }

theorem arendBody_post (s : State) : (bodyOf .arend s).Post (ArendEffect s) :=
  (Eng.post_raiseIf _ _ _).andThen fun _ h1 => (Eng.post_raiseIf _ _ _).andThen fun _ h2 => (Eng.post_raiseIf _ _ _).andThen fun _ h3 =>
    Eng.post_ret ⟨session_opened h1, bne_eq_false_iff_eq.1 h2, bne_eq_false_iff_eq.1 h3, rfl⟩

/-- What each command's pseudocode can answer. -/
def Effect : Instr → State → State → Prop
  | .nop, s, t => t = s
  | .reset, s, t => t = softReset s
  | .abort, s, t => t = sessionsClosed s
  | .freq, s, t => FreqEffect s t
  | .build, s, t => BuildEffect s t
  | .codegen, s, t => s.status.treeV = true ∧ CodegenEffect s t
  | .encode, s, t => EncodeEffect s t
  | .compress, s, t => CompressEffect s t
  | .dinv, s, t => InvertEffect s t
  | .decode, s, t => DecodeEffect s t
  | .awbegin, s, t => AwbeginEffect s t
  | .awrec, s, t => AwrecEffect s t
  | .awend, s, t => AwendEffect s t
  | .arbegin, s, t => ArbeginEffect s t
  | .arrec, s, t => ArrecEffect s t
  | .arend, s, t => ArendEffect s t
  | .extract, s, t => ExtractEffect s t

theorem bodyOf_post (i : Instr) (s : State) : (bodyOf i s).Post (Effect i s) := by
  cases i
  case nop => exact Eng.post_ret rfl
  case reset => exact Eng.post_ret rfl
  case abort => exact Eng.post_ret (abortSessions_eq s)
  case freq => exact (Eng.post_true _).andThen fun _ _ => freqBody_post s
  case build => exact (Eng.post_true _).andThen fun _ _ => buildBody_post s
  case codegen =>
    exact (Eng.post_raiseIf _ _ _).andThen fun _ h => (codegenBody_post s).mono fun t ht => ⟨by simpa using h, ht⟩
  case encode => exact (Eng.post_true _).andThen fun _ _ => (Eng.post_true _).andThen fun _ _ => encodeBody_post s
  case compress => exact compressBody_post s
  case dinv => exact (Eng.post_true _).andThen fun _ _ => invertBody_post s
  case decode => exact decodeBody_post s
  case awbegin => exact awbeginBody_post s
  case awrec => exact awrecBody_post s
  case awend => exact awendBody_post s
  case arbegin => exact arbeginBody_post s
  case arrec => exact arrecBody_post s
  case arend => exact arendBody_post s
  case extract => exact extractBody_post s

/-- No command raises "no error". -/
theorem bodyOf_raise (i : Instr) (s : State) : (bodyOf i s).PostErr fun r => r.code ≠ .noError := by
  have e1 : ∀ n, (fun r : Raise => r.code ≠ .noError) ⟨.sequenceError, n⟩ := fun n => by simp
  have e2 : ∀ n, (fun r : Raise => r.code ≠ .noError) ⟨.capacity, n⟩ := fun n => by simp
  have e3 : ∀ n, (fun r : Raise => r.code ≠ .noError) ⟨.archiveFormat, n⟩ := fun n => by simp
  have e4 : ∀ n, (fun r : Raise => r.code ≠ .noError) ⟨.missingCode, n⟩ := fun n => by simp
  have e5 : ∀ n, (fun r : Raise => r.code ≠ .noError) ⟨.truncatedPayload, n⟩ := fun n => by simp
  have e6 : ∀ n, (fun r : Raise => r.code ≠ .noError) ⟨.emptyInput, n⟩ := fun n => by simp
  cases i
  case nop => exact Eng.postErr_ret
  case reset => exact Eng.postErr_ret
  case abort => exact Eng.postErr_ret
  case freq => exact (capacityIf_postErr e2).andThen fun _ => freqBody_postErr s
  case build => exact (sequenceIf_postErr e1).andThen fun _ => buildBody_postErr s e6
  case codegen => exact (sequenceIf_postErr e1).andThen fun _ => codegenBody_postErr s
  case encode => exact (sequenceIf_postErr e1).andThen fun _ => (capacityIf_postErr e2).andThen fun _ => encodeBody_postErr s e4 e2
  case compress =>
    refine (capacityIf_postErr e2).andThen fun _ => (freqBody_postErr s).andThen fun s1 => ?_
    split
    · exact Eng.postErr_ret
    · exact (buildBody_postErr s1 e6).andThen fun s2 => (codegenBody_postErr s2).andThen fun s3 => encodeBody_postErr s3 e4 e2
  case dinv => exact (sequenceIf_postErr e1).andThen fun _ => invertBody_postErr s e3
  case decode => exact decodeBody_postErr s e1 e5 e2
  case awbegin => exact (sequenceIf_postErr e1).andThen fun _ => (sequenceIf_postErr e1).andThen fun _ => Eng.postErr_ret
  case awrec =>
    exact (sequenceIf_postErr e1).andThen fun _ => (sequenceIf_postErr e1).andThen fun _ => (capacityIf_postErr e2).andThen fun _ =>
      (capacityIf_postErr e2).andThen fun _ => appendRecord_postErr s e2
  case awend => exact (sequenceIf_postErr e1).andThen fun _ => Eng.postErr_ret
  case arbegin =>
    exact (sequenceIf_postErr e1).andThen fun _ => (sequenceIf_postErr e1).andThen fun _ => (capacityIf_postErr e2).andThen fun _ =>
      (formatIf_postErr e3).andThen fun _ => readField_postErr.andThen fun _ => Eng.postErr_ret
  case arrec => exact arrecBody_postErr s e1 e3 e2
  case arend =>
    exact (sequenceIf_postErr e1).andThen fun _ => (sequenceIf_postErr e1).andThen fun _ => (formatIf_postErr e3).andThen fun _ =>
      Eng.postErr_ret
  case extract => exact (arrecBody_postErr s e1 e3 e2).andThen fun t => decodeBody_postErr t e1 e5 e2

/-- What a next state of a command can be: its effect, completed in success, or error completion; and the reads of unwritten cells on
record (R253, R254, R260). -/
theorem exec_cases {i : Instr} {s t : State} (h : exec i s = .next t) :
    (∃ u d, Effect i s u ∧ t = (successCompletion u).noteReads d) ∨
    (∃ r d, r.code ≠ .noError ∧ t = (errorCompletion (destinations i) r s).noteReads d) := by
  rcases exec_next h with ⟨u, d, h1, h2⟩ | ⟨r, d, h1, h2⟩
  · exact .inl ⟨u, d, bodyOf_post i s _ _ _ h1, h2⟩
  · exact .inr ⟨r, d, bodyOf_raise i s _ _ _ h1, h2⟩

/-- A claim that neither the free values' counter nor the record of unwritten reads can change. -/
theorem noteReads_elim {P : State → Prop} (d : Nat) (u : State)
    (h : P u → P { u with draws := d, faults := { u.faults with unwrittenRead := true } }) (hu : P u) : P (u.noteReads d) := by
  unfold State.noteReads
  split
  · exact hu
  · exact h hu

end Sys2Proof.Machine
end

