-- ==== Sys2Proof/Laws/Bodies.lean ====
section
/-! SUPPORT. What the commands' bodies give over operands that are written: FREQ's counts and their sum, BUILD's leaves and tree, CODEGEN,
and ARREC's record; and STATUS and single cells as the HOST reads them. One lemma per body, cited instead of unfolding it. -/

namespace Sys2Proof.Machine

/-! ### Single cells and STATUS -/

theorem Cells.get_writeOne {α : Type} (c : Cells α) (i : Nat) (v : α) : Cells.get (Cells.writeRange c i [v]) i = some v := by
  rw [Cells.get_writeRange, if_pos] <;> simp

theorem Cells.get_writeOne_other {α : Type} (c : Cells α) {i j : Nat} (v : α) (h : j ≠ i) :
    Cells.get (Cells.writeRange c i [v]) j = Cells.get c j := by
  rw [Cells.get_writeRange, if_neg]
  simp
  omega

theorem sessionOpen_false {t : Status} (h1 : t.aw = .idle) (h2 : t.ar = .idle) : t.sessionOpen = false := by
  simp [Status.sessionOpen, h1, h2]

theorem sessionOpen_true {t : Status} (h : t.aw = .opened ∨ t.ar = .opened) : t.sessionOpen = true := by
  rcases h with h | h <;> simp [Status.sessionOpen, h]

theorem flagAt_eq (p : Nat) (b : Bool) : flagAt p b = 2 ^ p * b.toNat := by cases b <;> simp [flagAt]

theorem word_getLsbD {n k : Nat} {b : Bool} (hk : k < 64) (h : n / 2 ^ k % 2 = b.toNat) : (word n).getLsbD k = b := by
  unfold word
  rw [BitVec.getLsbD_ofNat, Nat.testBit_eq_decide_div_mod_eq, h]
  simp [hk]

theorem word_extract {n a w : Nat} (hk : a + w ≤ 64) : ((word n).extractLsb' a w).toNat = n / 2 ^ a % 2 ^ w := by
  unfold word
  rw [BitVec.extractLsb'_toNat, BitVec.toNat_ofNat, Nat.shiftRight_eq_div_pow]
  have : 2 ^ 64 = 2 ^ a * 2 ^ (64 - a) := by
    rw [← pow_add]
    congr 1
    omega
  rw [this, Nat.mod_mul_right_div_self, Nat.mod_mod_of_dvd]
  exact Nat.pow_dvd_pow 2 (by omega)

/-! ### Checks that pass -/

theorem needInCap_gives {s : State} {bs : List Byte} (h : InputIs s bs) : (needInCap s).Gives () :=
  capacityIf_gives (by have := h.2.1; have := h.2.2; simp; omega)

theorem needPayCap_gives {s : State} {c : Code} (h : PayloadIs s c) : (needPayCap s).Gives () :=
  capacityIf_gives (by have := h.2.1; have := h.2.2; simp; omega)

/-! ### Reads of unwritten cells -/

/-- A read of a range always answers, and takes a free value where a cell of it is unwritten (R13). -/
theorem memReads_draws {α : Type} (free : Nat → α) (c : Cells α) (n i d : Nat) :
    ∃ vs d', memReads free c i n d = (.ok vs, d') ∧ d ≤ d' ∧ ((∃ j, i ≤ j ∧ j < i + n ∧ Cells.get c j = none) → d < d') := by
  induction n generalizing i d with
  | zero => exact ⟨[], d, rfl, Nat.le_refl _, fun ⟨j, h1, h2, _⟩ => by omega⟩
  | succ n ih =>
    cases hg : Cells.get c i with
    | some v =>
      obtain ⟨vs, d', h1, h2, h3⟩ := ih (i + 1) d
      refine ⟨v :: vs, d', by simp [memReads, Eng.andThen, memRead, hg, h1, Eng.ret], h2, fun ⟨j, h4, h5, h6⟩ => h3 ⟨j, ?_, by omega, h6⟩⟩
      rcases Nat.eq_or_lt_of_le h4 with h7 | h7
      · subst h7
        rw [hg] at h6
        cases h6
      · exact h7
    | none =>
      obtain ⟨vs, d', h1, h2, _⟩ := ih (i + 1) (d + 1)
      exact ⟨free d :: vs, d', by simp [memReads, Eng.andThen, memRead, hg, h1, Eng.ret], by omega, fun _ => by omega⟩

/-! ### FREQ -/

theorem sum_indicator (b n a : Nat) :
    ((List.range' a n).map fun sym => if b = sym then 1 else 0).sum = if a ≤ b ∧ b < a + n then 1 else 0 := by
  induction n generalizing a with
  | zero => simp
  | succ n ih =>
    rw [List.range'_succ, List.map_cons, List.sum_cons, ih]
    by_cases h : b = a
    · subst h
      simp
    · rw [if_neg h]
      by_cases h2 : a + 1 ≤ b ∧ b < a + 1 + n
      · rw [if_pos h2, if_pos (by omega)]
      · rw [if_neg h2, if_neg (by omega)]

/-- The counts of all byte values sum to the number of bytes (R101). -/
theorem sum_occurrences (bs : List Byte) : (symbols.map fun sym => occurrences sym bs).sum = bs.length := by
  induction bs with
  | nil => simp [occurrences]
  | cons b bs ih =>
    have : (fun sym => occurrences sym (b :: bs)) = fun sym => occurrences sym bs + (if b.toNat = sym then 1 else 0) := by
      funext sym
      unfold occurrences
      rw [List.countP_cons]
      simp
    rw [this, List.sum_map_add, ih, List.length_cons]
    unfold symbols
    rw [List.range_eq_range', sum_indicator, if_pos ⟨Nat.zero_le _, by have := b.isLt; simp [Config.nsym]; omega⟩]

theorem occurrences_le (sym : Nat) (bs : List Byte) : occurrences sym bs ≤ bs.length := List.countP_le_length

/-- FREQ's cells (R100). -/
theorem get_counts {bs : List Byte} {sym : Nat} (h : sym < 256) :
    Cells.get (cellsFrom 0 ((countBytes bs).map word)) sym = some (word (occurrences sym bs)) := by
  rw [Cells.get_cellsFrom, if_pos (Nat.zero_le _), Nat.sub_zero]
  unfold countBytes symbols Config.nsym
  rw [List.map_map, List.getElem?_map, List.getElem?_range h]
  rfl

/-- What FREQ leaves after the bytes `bs`, short of its completion (R100). -/
def freqResult (s : State) (bs : List Byte) : State :=
  { s with freq := cellsFrom 0 ((countBytes bs).map word), distinct := word (presentIn bs).length,
           status := { s.status with freqV := true } }

theorem freqBody_gives {s : State} {bs : List Byte} (h : InputIs s bs) : (freqBody s).Gives (freqResult s bs) := by
  have hr : (readBytes s.inbuf 0 s.inLen.toNat).Gives bs := by
    rw [h.2.1]
    exact memReads_gives h.1
  have hd : (countBytes bs).countP (fun n => 1 ≤ n) = (presentIn bs).length := by
    unfold countBytes presentIn
    rw [List.countP_map, List.countP_eq_length_filter]
    rfl
  refine hr.andThen ?_
  simp only [hd]
  exact Eng.gives_ret _

theorem mem_presentIn {bs : List Byte} {sym : Nat} : sym ∈ presentIn bs ↔ sym < 256 ∧ byte sym ∈ bs := by
  constructor
  · intro h
    obtain ⟨h1, h2⟩ := List.mem_filter.1 h
    have h1 := mem_symbols.1 h1
    have h2 : 0 < occurrences sym bs := of_decide_eq_true h2
    obtain ⟨b, hb, he⟩ := List.countP_pos_iff.1 h2
    have he : b.toNat = sym := by simpa using he
    subst he
    exact ⟨h1, by rwa [byte_of_toNat]⟩
  · rintro ⟨h1, h2⟩
    refine List.mem_filter.2 ⟨mem_symbols.2 h1, ?_⟩
    have : 0 < occurrences sym bs := List.countP_pos_iff.2 ⟨byte sym, h2, by simp [byte_toNat (show sym ≤ 255 by omega)]⟩
    exact decide_eq_true this

theorem presentIn_ne_nil {bs : List Byte} (h : bs ≠ []) : presentIn bs ≠ [] := by
  obtain ⟨b, l, rfl⟩ := List.exists_cons_of_ne_nil h
  exact List.ne_nil_of_mem (mem_presentIn.2 ⟨b.isLt, by rw [byte_of_toNat]; simp⟩)

theorem presentIn_length (bs : List Byte) : (presentIn bs).length ≤ 256 := (List.length_filter_le _ _).trans (by rw [symbols_length])

/-! ### BUILD -/

theorem readFreq_gives {s : State} {ws : List Word} (hw : ws.length = 256) (h : Cells.holds s.freq 0 ws) : (readFreq s).Gives ws := by
  have := memReads_gives (free := Config.unspecifiedWord) h
  rwa [hw] at this

theorem freqCount_lt (s : State) (sym : Nat) : freqCount s sym < 2 ^ 64 := by
  unfold freqCount
  split
  · exact BitVec.isLt _
  · decide

theorem presentSymbols_eq (s : State) : presentSymbols s = symbols.filter fun sym => 1 ≤ freqCount s sym := by
  unfold presentSymbols freqCount
  refine List.filter_congr fun sym _ => ?_
  cases Cells.get s.freq sym <;> simp

/-- The present symbols after FREQ are those that occur (R101). -/
theorem presentSymbols_freq {t : State} {bs : List Byte} (hlt : bs.length < 2 ^ 64) (h : t.freq = cellsFrom 0 ((countBytes bs).map word)) :
    presentSymbols t = presentIn bs := by
  rw [presentSymbols_eq]
  unfold presentIn
  refine List.filter_congr fun sym hs => ?_
  unfold freqCount
  rw [h, get_counts (mem_symbols.1 hs)]
  simp only [word_toNat (Nat.lt_of_le_of_lt (occurrences_le _ _) hlt)]

/-- A table whose cells are all written holds its counts. -/
theorem freq_holds {s : State} (h : ∀ sym, sym < 256 → (Cells.get s.freq sym).isSome = true) :
    Cells.holds s.freq 0 (symbols.map fun sym => word (freqCount s sym)) := by
  intro j hj
  have hj' : j < 256 := by simpa [symbols_length] using hj
  obtain ⟨w, hw⟩ := Option.isSome_iff_exists.1 (h j hj')
  have hs : symbols[j]'(by rw [symbols_length]; exact hj') = j := by simp [symbols]
  rw [Nat.zero_add, hw, List.getElem_map, hs, freqCount, hw, word_of_toNat]

/-- BUILD's leaves: one for each present symbol, ascending, with its count (R110). -/
theorem leavesFrom_counts (s : State) : leavesFrom 0 (symbols.map fun sym => word (freqCount s sym)) =
    (presentSymbols s).map fun sym => Node.leaf (word (freqCount s sym)) (byte sym) := by
  have hg : ∀ sym, sym < 256 → ((symbols.map fun sym => word (freqCount s sym))[sym]?.getD 0) = word (freqCount s sym) := by
    intro sym h
    unfold symbols Config.nsym
    rw [List.getElem?_map, List.getElem?_range h]
    rfl
  have he : ((List.range 256).filter fun sym => 1 ≤ ((symbols.map fun sym => word (freqCount s sym))[sym - 0]?.getD 0).toNat) =
      symbols.filter fun sym => 1 ≤ freqCount s sym := by
    refine List.filter_congr fun sym hs => ?_
    rw [Nat.sub_zero, hg sym (List.mem_range.1 hs), word_toNat (freqCount_lt s sym)]
  rw [leavesFrom_eq, List.length_map, symbols_length, presentSymbols_eq, ← List.range_eq_range', he]
  refine List.map_congr_left fun sym hs => ?_
  rw [Nat.sub_zero, hg sym (mem_symbols.1 (List.mem_filter.1 hs).1)]

theorem sum_filter_pos (l : List Nat) (f : Nat → Nat) : ((l.filter fun x => 1 ≤ f x).map f).sum = (l.map f).sum := by
  induction l with
  | nil => rfl
  | cons x l ih =>
    rw [List.filter_cons]
    by_cases h : 1 ≤ f x
    · simp [h, ih]
    · have : f x = 0 := by omega
      simp [this, ih]

theorem cellsFrom_values {α : Type} (vs : List α) (i : Nat) : (cellsFrom i vs).map Prod.snd = vs := by
  induction vs generalizing i with
  | nil => rfl
  | cons v vs ih => simp [cellsFrom, ih]

/-- A list of nodes and a root id that BUILD may make of the counts in `s` (R112). -/
structure Built (s : State) (tree : CodeTree) (r : List Node × Nat) : Prop where
  few : r.1.length < 512
  root : r.2 < 512
  rep : Represents (cellsFrom 0 r.1) r.2 tree
  syms : tree.syms.Perm ((presentSymbols s).map byte)
  nodup : tree.syms.Nodup

/-- BUILD's body over written counts that are not all 0, in every state that agrees on FREQ and the tie-break (R110). -/
theorem buildBody_gives {s : State} (h2 : ∀ sym, sym < 256 → (Cells.get s.freq sym).isSome = true) (h3 : presentSymbols s ≠ []) :
    ∃ tree r, Built s tree r ∧ ∀ u : State, u.freq = s.freq → u.params = s.params →
      (buildBody u).Gives { u with nodes := cellsFrom 0 r.1, root := word r.2, nodeCount := word r.1.length,
                                   status := { u.status with treeV := true } } := by
  have hr := readFreq_gives (ws := symbols.map fun sym => word (freqCount s sym)) (by simp [symbols_length]) (freq_holds h2)
  have hlv := leavesFrom_counts s
  have hnd := leavesFrom_syms_nodup (symbols.map fun sym => word (freqCount s sym)) (by simp [symbols_length])
  have hl := leavesFrom_length (symbols.map fun sym => word (freqCount s sym)) 0
  rw [List.length_map, symbols_length] at hl
  have hne : leavesFrom 0 (symbols.map fun sym => word (freqCount s sym)) ≠ [] := by
    rw [hlv]
    simpa using h3
  obtain ⟨T, w, h⟩ := buildTree_inv (pickOf_mem s.params.tieBreak) hl hne leavesFrom_leaf
  set leaves := leavesFrom 0 (symbols.map fun sym => word (freqCount s sym)) with hleaves
  set r := buildTree (pickOf s.params.tieBreak) leaves with hrdef
  have hc := h.count
  rw [List.length_singleton] at hc
  have hleaf := h.leaf
  rw [List.flatMap_singleton] at hleaf
  have hids := h.ids
  simp only [List.map_cons, List.map_nil] at hids
  have hroot : r.2 < r.1.length := List.mem_range.1 (hids.mem_iff.1 (by simp))
  refine ⟨T r.2, r, ⟨by omega, by omega, h.rep _ (List.mem_singleton_self _), ?_, ?_⟩, fun u hu hup => ?_⟩
  · rw [syms_eq_leaves]
    refine (hleaf.map Prod.fst).trans (List.Perm.of_eq ?_)
    rw [hlv, List.filterMap_map, ← List.filterMap_eq_map, List.filterMap_filterMap, ← List.filterMap_eq_map]
    rfl
  · rw [syms_eq_leaves]
    exact (hleaf.map Prod.fst).nodup_iff.2 hnd
  · have hr' : (readFreq u).Gives (symbols.map fun sym => word (freqCount s sym)) := by
      unfold readFreq
      rw [hu]
      exact hr
    unfold buildBody
    rw [hup]
    refine hr'.andThen ((Eng.raiseIf_gives (c := leaves.isEmpty) _ _ ?_).andThen (Eng.gives_ret _))
    simpa using hne

/-! ### CODEGEN, ARREC -/

theorem codegenBody_gives {s : State} {tree : CodeTree} (h : Represents s.nodes s.root.toNat tree) (hn : tree.syms.Nodup) :
    (codegenBody s).Gives (s.withCodes tree.codes (codeCountOf tree.codes)) := (treeCodes_gives h hn).andThen (Eng.gives_ret _)

/-- The codes of a tree over the present symbols of an input are the codes of its bytes (R123). -/
theorem codes_of_input {s : State} {tree : CodeTree} {bs : List Byte} (hp : presentSymbols s = presentIn bs)
    (hs : tree.syms.Perm ((presentSymbols s).map byte)) (hn : tree.syms.Nodup) (b : Byte) : tableOf tree.codes b ≠ [] ↔ b ∈ bs := by
  rw [codes_ne_nil hn, hs.mem_iff, hp, List.mem_map]
  constructor
  · rintro ⟨sym, h1, rfl⟩
    exact (mem_presentIn.1 h1).2
  · intro h
    exact ⟨b.toNat, mem_presentIn.2 ⟨b.isLt, by rwa [byte_of_toNat]⟩, byte_of_toNat b⟩

/-- Where the codes of an input do not fit, one byte is the first whose code does not. -/
theorem flatMap_overflow (f : Byte → Code) {cap : Nat} (bs : List Byte) (p : Nat) (h0 : p ≤ cap) (h : cap < p + (bs.flatMap f).length) :
    ∃ pre b post, bs = pre ++ b :: post ∧ p + (pre.flatMap f).length ≤ cap ∧ cap < p + (pre.flatMap f).length + (f b).length := by
  induction bs generalizing p with
  | nil =>
    simp at h
    omega
  | cons b bs ih =>
    rw [List.flatMap_cons, List.length_append] at h
    by_cases hb : p + (f b).length ≤ cap
    · obtain ⟨pre, c, post, h1, h2, h3⟩ := ih (p + (f b).length) hb (by omega)
      refine ⟨b :: pre, c, post, by rw [h1]; rfl, ?_, ?_⟩ <;> rw [List.flatMap_cons, List.length_append] <;> omega
    · exact ⟨[], b, bs, rfl, by simpa using h0, by simpa using hb⟩

/-- What ARREC leaves after a record, short of its completion (R192). -/
def arrecResult (s : State) (name : List Byte) (payload : Code) (ct : List (Byte × Code)) : State :=
  { s with namebuf := cellsFrom 0 name, nameLen := word name.length, paybuf := cellsFrom 0 payload, payLen := word payload.length,
           clen := clenOf ct, cbit := cbitOf ct, codeCount := word ct.length, dtab := inverseOf (tableOf ct) symbols,
           arcCur := word (s.arcCur.toNat + (containerRecord name payload ct).length), recRemain := s.recRemain - 1,
           status := { s.status with ctabV := true, dtabV := true } }

/-- ARREC after its two checks (R192). -/
theorem arrecBody_open {s : State} (h1 : s.status.ar = .opened) (h2 : s.recRemain ≠ 0) :
    arrecBody s = (parseRecord s s.arcCur.toNat).andThen fun r => (invertBody (s.withRecord r)).andThen fun t =>
      Eng.ret { t with arcCur := word r.next, recRemain := t.recRemain - 1 } := by
  funext d
  unfold arrecBody
  rw [Eng.andThen_ok (sequenceIf_gives (by rw [h1]; rfl) d), Eng.andThen_ok (sequenceIf_gives (beq_eq_false_iff_ne.2 h2) d)]

theorem arrecBody_gives {s : State} {name : List Byte} {payload : Code} {ct : List (Byte × Code)} (h1 : s.status.ar = .opened)
    (h2 : s.recRemain ≠ 0) (hct : TableLegal ct) (hn : name.length ≤ s.params.nameCap.toNat) (hp : payload.length ≤ s.params.payCap.toNat)
    (h : Cells.holds s.arcbuf s.arcCur.toNat (containerRecord name payload ct))
    (hq : s.arcCur.toNat + (containerRecord name payload ct).length ≤ s.arcLen.toNat) :
    (arrecBody s).Gives (arrecResult s name payload ct) := by
  rw [arrecBody_open h1 h2]
  refine (parseRecord_gives hct hn hp h hq).andThen ?_
  set x := s.withRecord ⟨name, payload, ct, s.arcCur.toNat + (containerRecord name payload ct).length⟩ with hx
  have hc : CtabIs x (tableOf ct) := ctabIs_of (fun e he => (hct.1 e he).2) rfl rfl
  have hi := invertLoop_gives hc (l := symbols) (fun x hx => mem_symbols.1 hx) (inverseOf_symbols_nodup (codesDiffer_tableOf hct.2.2))
  have hb : (invertBody x).Gives { x with dtab := inverseOf (tableOf ct) symbols, status := { x.status with dtabV := true } } :=
    hi.andThen (Eng.gives_ret _)
  exact hb.andThen (Eng.gives_ret _)

end Sys2Proof.Machine
end

