-- ==== Sys2Proof/Laws/HostPort.lean ====
section
/-! SUPPORT. The HOST's port (20_memory.md R60 to R67, R85): addresses, and what one access does at a written-out address. -/

namespace Sys2Proof.Machine

/-! ### Addresses -/

theorem hostAddr_toNat {sp i : Nat} (h1 : sp < 256) (h2 : i < 2 ^ 56) : (hostAddr sp i).toNat = sp * 2 ^ 56 + i := by
  unfold hostAddr word
  rw [BitVec.toNat_ofNat, Nat.mod_eq_of_lt h2, Nat.mod_eq_of_lt]
  calc sp * 2 ^ 56 + i < (sp + 1) * 2 ^ 56 := by rw [Nat.add_mul]; omega
    _ ≤ 256 * 2 ^ 56 := Nat.mul_le_mul_right _ h1
    _ = 2 ^ 64 := by norm_num

theorem addrSpace_hostAddr {sp i : Nat} (h1 : sp < 256) (h2 : i < 2 ^ 56) : addrSpace (hostAddr sp i) = sp := by
  unfold addrSpace
  rw [BitVec.extractLsb'_toNat, Nat.shiftRight_eq_div_pow, hostAddr_toNat h1 h2, Nat.add_comm,
    Nat.add_mul_div_right _ _ (by norm_num), Nat.div_eq_of_lt h2, Nat.zero_add, Nat.mod_eq_of_lt h1]

theorem addrIndex_hostAddr {sp i : Nat} (h1 : sp < 256) (h2 : i < 2 ^ 56) : addrIndex (hostAddr sp i) = i := by
  unfold addrIndex
  rw [BitVec.extractLsb'_toNat, Nat.shiftRight_zero, hostAddr_toNat h1 h2, Nat.add_comm, Nat.add_mul_mod_self_right,
    Nat.mod_eq_of_lt h2]

/-- An address is its space and its index (R60). -/
theorem hostAddr_eta (a : Word) : hostAddr (addrSpace a) (addrIndex a) = a := by
  have h1 : addrSpace a < 256 := by unfold addrSpace; exact (a.extractLsb' 56 8).isLt
  have h2 : addrIndex a < 2 ^ 56 := by unfold addrIndex; exact (a.extractLsb' 0 56).isLt
  apply BitVec.eq_of_toNat_eq
  rw [hostAddr_toNat h1 h2]
  unfold addrSpace addrIndex
  rw [BitVec.extractLsb'_toNat, BitVec.extractLsb'_toNat, Nat.shiftRight_zero, Nat.shiftRight_eq_div_pow,
    Nat.mod_eq_of_lt (Nat.div_lt_of_lt_mul (by have := a.isLt; rw [← pow_add]; exact this)), Nat.mul_comm]
  exact Nat.div_add_mod _ _

/-- A register number is an index (R61). -/
theorem reg_lt {r : Nat} (h : r < 32) : r < 2 ^ 56 := Nat.lt_trans h (by decide)

/-- A capacity that meets R6 bounds an index. -/
theorem capOk_lt {least : Nat} {c : Word} (h : capOk least c = true) : c.toNat < 2 ^ 56 := by
  unfold capOk at h
  rw [Bool.and_eq_true, decide_eq_true_eq, decide_eq_true_eq] at h
  exact h.2

/-! ### Accesses -/

theorem hostRead_hostAddr (s : State) {sp i : Nat} (h1 : sp < 256) (h2 : i < 2 ^ 56) :
    hostRead s (hostAddr sp i) = spaceRead s sp i := by
  unfold hostRead
  rw [addrSpace_hostAddr h1 h2, addrIndex_hostAddr h1 h2]

theorem hostWrite_hostAddr (s : State) {sp i : Nat} (d : Word) (h1 : sp < 256) (h2 : i < 2 ^ 56) :
    hostWrite (hostAddr sp i) d s = spaceWrite sp i d s := by
  unfold hostWrite
  rw [addrSpace_hostAddr h1 h2, addrIndex_hostAddr h1 h2]

theorem hostAccess_read {s : State} {a v : Word} (hb : s.status.busy = false) (h : hostRead s a = some v) :
    hostAccess (.read a) s = { s with observed := s.observed ++ [v] } := by
  unfold hostAccess readIdle
  simp only [hb, h, Bool.false_eq_true, if_false]
  rfl

theorem hostAccess_read_unwritten {s : State} {a : Word} (hb : s.status.busy = false) (h : hostRead s a = none) :
    hostAccess (.read a) s =
      { s with observed := s.observed ++ [Config.unspecifiedWord s.draws], draws := s.draws + 1,
               faults := { s.faults with unwrittenRead := true } } := by
  unfold hostAccess readIdle
  simp only [hb, h, Bool.false_eq_true, if_false]
  rfl

theorem hostAccess_write {s : State} {a d : Word} (hb : s.status.busy = false) :
    hostAccess (.write a d) s = hostWrite a d s := by
  unfold hostAccess
  simp only [hb, Bool.false_eq_true, if_false]

theorem hostAccess_busy {s : State} {op : HostOp} (hb : s.status.busy = true) : hostAccess op s = accessBusy op s := by
  unfold hostAccess
  simp only [hb, if_true]

/-- A write of anything but CMD leaves STATUS, PENDING and the fault record (R61, R62). -/
theorem hostWrite_keeps {a : Word} (d : Word) (s : State) (h : isCmd a = false) :
    (hostWrite a d s).status = s.status ∧ (hostWrite a d s).pending = s.pending ∧ (hostWrite a d s).faults = s.faults := by
  unfold hostWrite spaceWrite
  split
  · unfold regWrite
    split
    · simp_all [isCmd]
    all_goals (try split) <;> exact ⟨rfl, rfl, rfl⟩
  all_goals (repeat' split) <;> exact ⟨rfl, rfl, rfl⟩

/-- A write while BUSY = 1 is lost or reaches its element; either way a free value is taken and HostBusyAccess comes on record (R300). -/
theorem writeBusy_cases {a : Word} (d : Word) (s : State) (h : isCmd a = false) :
    writeBusy a d s = { s with draws := s.draws + 1, faults := { s.faults with hostBusyAccess := true } } ∨
    writeBusy a d s = { hostWrite a d s with draws := s.draws + 1, faults := { s.faults with hostBusyAccess := true } } := by
  unfold writeBusy
  cases Config.busyWriteReaches s.draws
  · exact .inl rfl
  · right
    rw [← (hostWrite_keeps d s h).2.2]
    rfl

/-- A register above r20 reads 0 (R21, R22). -/
theorem regRead_high (s : State) {r : Nat} (h : 21 ≤ r) : regRead s r = 0 := by
  match r, h with
  | n + 21, _ => rfl

/-- A space above 0x09 reads 0 (R66). -/
theorem spaceRead_high (s : State) {sp : Nat} (i : Nat) (h : 10 ≤ sp) : spaceRead s sp i = some 0 := by
  match sp, h with
  | n + 10, _ => rfl

/-- A space above 0x05 ignores writes (R61, R66). -/
theorem spaceWrite_high (s : State) {sp : Nat} (i : Nat) (d : Word) (h : 6 ≤ sp) : spaceWrite sp i d s = s := by
  match sp, h with
  | n + 6, _ => rfl

theorem windowRead_out {α : Type} (c : Cells α) (i : Nat) (f : α → Word) {p : Bool} (h : p = false) :
    windowRead p c i f = some 0 := by
  subst h
  rfl

theorem windowRead_in {α : Type} {c : Cells α} {i : Nat} {f : α → Word} {p : Bool} {v : α} (h : p = true)
    (hv : Cells.get c i = some v) : windowRead p c i f = some (f v) := by
  subst h
  unfold windowRead
  rw [if_pos rfl, hv]
  rfl

/-! ### Encoded transactions -/

/-- Every HOST operation has a well-formed transaction that decodes to it, and a well-formed transaction is the one its operation is written
as (R85, R88). -/
theorem decodeTxn_encodeTxn (op : HostOp) : decodeTxn (encodeTxn op) = op ∧ HostTxn.wf (encodeTxn op) = true := by
  cases op <;> exact ⟨rfl, rfl⟩

theorem encodeTxn_decodeTxn (t : HostTxn) (h : HostTxn.wf t = true) : encodeTxn (decodeTxn t) = t := by
  obtain ⟨k, a, d⟩ := t
  unfold decodeTxn
  by_cases hk : k = 1
  · subst hk
    rfl
  · have e : ∀ k : BitVec 1, ¬ k = 1 → k = 0 := by decide
    have h0 := e k hk
    subst h0
    have hd : d = 0 := by simpa [HostTxn.wf] using h
    subst hd
    rfl

end Sys2Proof.Machine
end

