-- ==== Sys2Proof/Laws/PerInstr.lean ====
section
/-! SUPPORT. Facts about every command as syntax, one lemma per constructor. -/

namespace Sys2Proof.Laws.Opcode

/-- The command is well formed, its word has the fields of a legal command value with its OPC, and the opcode map gives that OPC back to
it (30_encoding.md R80, R82). -/
def Statement (i : Instr) : Prop :=
  Instr.wf i = true ∧ CmdFields.wf (cmdFields (encode i)) = true ∧ (cmdFields (encode i)).opc = opcodeOf i ∧
  lookupOpcode (opcodeOf i) opcodeMap = .ok i

theorem nop : Statement Instr.nop := by unfold Statement; decide
theorem reset : Statement Instr.reset := by unfold Statement; decide
theorem abort : Statement Instr.abort := by unfold Statement; decide
theorem freq : Statement Instr.freq := by unfold Statement; decide
theorem build : Statement Instr.build := by unfold Statement; decide
theorem codegen : Statement Instr.codegen := by unfold Statement; decide
theorem encode : Statement Instr.encode := by unfold Statement; decide
theorem compress : Statement Instr.compress := by unfold Statement; decide
theorem dinv : Statement Instr.dinv := by unfold Statement; decide
theorem decode : Statement Instr.decode := by unfold Statement; decide
theorem awbegin : Statement Instr.awbegin := by unfold Statement; decide
theorem awrec : Statement Instr.awrec := by unfold Statement; decide
theorem awend : Statement Instr.awend := by unfold Statement; decide
theorem arbegin : Statement Instr.arbegin := by unfold Statement; decide
theorem arrec : Statement Instr.arrec := by unfold Statement; decide
theorem arend : Statement Instr.arend := by unfold Statement; decide
theorem extract : Statement Instr.extract := by unfold Statement; decide

end Sys2Proof.Laws.Opcode
end

