-- ==== Sys2Proof/Laws/Step.lean ====
section
/-! SUPPORT. What one step can do (00_scope.md R5): the cases of a host access and of a step, cited instead of unfolding either. -/

namespace Sys2Proof.Machine

/-! ### Host accesses -/

/-- What a host access can do (20_memory.md R61 to R67; 70_reset_and_hazards.md R300, R301). -/
inductive HostEffect (s : State) : State → Prop where
  /-- a read, or a write of CMD while BUSY = 1: nothing of the block changes, but the fault record may grow; `wait` and `expect` are such reads,
  and change the moves to come or the HOST's record of its checks besides -/
  | seen (o : List Word) (d : Nat) (u h c : Bool) (ms : List Move) (ks : List Bool) :
      HostEffect s { s with observed := o, draws := d, inputs := ms, checks := ks,
                            faults := { unwrittenRead := s.faults.unwrittenRead || u, hostBusyAccess := s.faults.hostBusyAccess || h,
                                        cmdWhileBusy := s.faults.cmdWhileBusy || c } }
  /-- a write while BUSY = 1: what a write can do, with a free value taken and HostBusyAccess on record -/
  | busyWrite (t : State) (h : HostEffect s t) (hb : s.status.busy = true) :
      HostEffect s { t with draws := s.draws + 1, faults := { t.faults with hostBusyAccess := true } }
  | issued (v : Word) (h : s.status.busy = false) : HostEffect s (issue v s)
  | inLen (d : Word) : HostEffect s { s with inLen := d }
  | nameLen (d : Word) : HostEffect s { s with nameLen := d }
  | payLen (d : Word) : HostEffect s { s with payLen := d }
  | arcLen (d : Word) (h : s.status.sessionOpen = false) : HostEffect s { s with arcLen := d }
  | inbuf (i : Nat) (y : Byte) (h : i < s.params.inCap.toNat) : HostEffect s { s with inbuf := Cells.writeRange s.inbuf i [y] }
  | namebuf (i : Nat) (y : Byte) (h : i < s.params.nameCap.toNat) : HostEffect s { s with namebuf := Cells.writeRange s.namebuf i [y] }
  | paybuf (i : Nat) (b : Bool) (h : i < s.params.payCap.toNat) : HostEffect s { s with paybuf := Cells.writeRange s.paybuf i [b] }
  | arcbuf (i : Nat) (y : Byte) (h : i < s.params.arcCap.toNat) (ho : s.status.sessionOpen = false) :
      HostEffect s { s with arcbuf := Cells.writeRange s.arcbuf i [y] }

theorem hostEffect_same (s : State) : HostEffect s s := by
  have := HostEffect.seen (s := s) s.observed s.draws false false false s.inputs s.checks
  simpa using this

theorem regWrite_effect (r : Nat) (d : Word) (s : State) (h : r = 1 → s.status.busy = false) : HostEffect s (regWrite r d s) := by
  unfold regWrite
  split
  · exact .issued d (h rfl)
  · exact .inLen d
  · exact .nameLen d
  · exact .payLen d
  · cases ho : s.status.sessionOpen
    · exact .arcLen d ho
    · exact hostEffect_same s
  · exact hostEffect_same s

theorem spaceWrite_effect (sp i : Nat) (d : Word) (s : State) (h : sp = 0 → i = 1 → s.status.busy = false) :
    HostEffect s (spaceWrite sp i d s) := by
  unfold spaceWrite
  split
  · exact regWrite_effect i d s (h rfl)
  · split
    · exact .inbuf i _ ‹_›
    · exact hostEffect_same s
  · split
    · exact .namebuf i _ ‹_›
    · exact hostEffect_same s
  · split
    · exact .paybuf i _ ‹_›
    · exact hostEffect_same s
  · cases ho : s.status.sessionOpen
    · simp only [Bool.false_eq_true, if_false]
      split
      · exact .arcbuf i _ ‹_› ho
      · exact hostEffect_same s
    · exact hostEffect_same s
  · exact hostEffect_same s

/-- What a host read can do: the HOST has one more value, a free value may be taken, and a fault may come on record. -/
theorem hostAccess_read_effect (a : Word) (s : State) : ∃ o d u h c, hostAccess (.read a) s =
    { s with observed := o, draws := d,
             faults := { unwrittenRead := s.faults.unwrittenRead || u, hostBusyAccess := s.faults.hostBusyAccess || h,
                         cmdWhileBusy := s.faults.cmdWhileBusy || c } } := by
  unfold hostAccess
  cases hb : s.status.busy
  · simp only [Bool.false_eq_true, if_false, readIdle]
    split
    · exact ⟨s.observed ++ [‹Word›], s.draws, false, false, false, by simp [observe]⟩
    · exact ⟨s.observed ++ [Config.unspecifiedWord s.draws], s.draws + 1, true, false, false, by simp [observeFree, recordUnwrittenRead]⟩
  · simp only [if_true, accessBusy]
    split
    · exact ⟨s.observed ++ [regRead s (addrIndex a)], s.draws, false, false, false, by simp [observe]⟩
    · exact ⟨s.observed ++ [Config.unspecifiedWord s.draws], s.draws + 1, false, true, false, by simp [observeFree, recordBusyAccess]⟩

/-- A host access does one of these things. -/
theorem hostAccess_effect (op : HostOp) (s : State) : HostEffect s (hostAccess op s) := by
  cases op with
  | read a =>
    obtain ⟨o, d, u, h, c, he⟩ := hostAccess_read_effect a s
    rw [he]
    exact .seen o d u h c s.inputs s.checks
  | write a d =>
    unfold hostAccess
    cases hb : s.status.busy
    · exact spaceWrite_effect _ _ d s fun _ _ => hb
    · simp only [if_true, accessBusy]
      split
      · have := HostEffect.seen (s := s) s.observed s.draws false false true s.inputs s.checks
        simpa [recordCmdWhileBusy] using this
      · rename_i hc
        refine .busyWrite (if Config.busyWriteReaches s.draws then hostWrite a d s else s) ?_ hb
        split
        · refine spaceWrite_effect _ _ d s fun h1 h2 => absurd ?_ hc
          simp [isCmd, h1, h2]
        · exact hostEffect_same s

/-- A pass of `wait` is a read of STATUS (30_encoding.md R87). -/
theorem waitAccess_effect (n : Nat) (s : State) : HostEffect s (waitAccess n s) := by
  have h := hostAccess_read_effect (hostAddr 0 2) s
  obtain ⟨o, d, u, h, c, he⟩ := h
  unfold waitAccess
  rw [he]
  exact .seen _ _ _ _ _ _ _

/-- `expect` is a read (30_encoding.md R87). -/
theorem expectAccess_effect (a v : Word) (s : State) : HostEffect s (expectAccess a v s) := by
  obtain ⟨o, d, u, h, c, he⟩ := hostAccess_read_effect a s
  unfold expectAccess
  rw [he]
  exact .seen _ _ _ _ _ _ _

/-! ### Steps -/

/-- What a step can do. -/
inductive StepEffect (s : State) : State → Prop where
  | host (t : State) (h : HostEffect (dropMove s) t) : StepEffect s t
  | reset : StepEffect s (resetAction (dropMove s))
  | pass : StepEffect s (dropMove s)
  | illegal (v : Word) (hb : s.status.busy = true) (hp : s.pending = some v) : StepEffect s (illegalCommand v (dropMove s))
  | command (i : Instr) (t : State) (hb : s.status.busy = true) (h : exec i (dropMove s) = .next t) : StepEffect s t

theorem engineStep_effect {s t : State} (h : engineStep (dropMove s) = .next t) : StepEffect s t := by
  unfold engineStep at h
  split at h
  · cases h
    exact .pass
  · cases h
  · rename_i v hf
    cases h
    unfold fetch at hf
    split at hf
    · split at hf
      · cases hf
      · split at hf
        · cases hf
        · cases hf
          exact .illegal v ‹_› ‹_›
    · cases hf
  · rename_i i hf
    refine .command i t ?_ h
    unfold fetch at hf
    split at hf
    · assumption
    · cases hf

theorem dropMove_nil {s : State} (h : s.inputs = []) : dropMove s = s := by
  obtain ⟨⟩ := s
  simp only at h
  subst h
  rfl

/-- A step that gives a next state does one of these things. -/
theorem step_effect {s t : State} (h : step s = .next t) : StepEffect s t := by
  unfold step at h
  split at h
  · cases h
    exact .host _ (hostAccess_effect _ _)
  · cases h
    exact .host _ (waitAccess_effect _ _)
  · cases h
    exact .host _ (expectAccess_effect _ _ _)
  · cases h
    exact .reset
  · exact engineStep_effect h
  · rename_i hi
    rw [← dropMove_nil hi] at h
    exact engineStep_effect h

/-- The ENGINE's turn. -/
theorem step_engineTurn {s : State} (ht : engineTurn s) : step s = engineStep (dropMove s) := by
  rcases ht with ht | ht
  · rw [dropMove_nil ht]
    unfold step
    simp only [ht]
  · unfold step
    cases hi : s.inputs with
    | nil => simp [hi] at ht
    | cons m ms =>
      simp only [hi, List.head?_cons, Option.some.injEq] at ht
      subst ht
      rfl

/-- A HOST move. -/
theorem step_hostMove {s : State} {op : HostOp} {rest : List Move} (hi : s.inputs = .host op :: rest) :
    step s = .next (hostAccess op (dropMove s)) := by
  unfold step
  simp only [hi]

/-- A pass of `wait` with BUSY = 0 reads STATUS once and leaves the loop; with BUSY = 1 it goes round again (30_encoding.md R87). -/
theorem waitAccess_eq (n : Nat) (s : State) (hw : (Status.toWord s.status).getLsbD 0 = s.status.busy) : waitAccess n s =
    { s with observed := s.observed ++ [Status.toWord s.status],
             inputs := if s.status.busy then (match n with | 0 => .engine :: .wait 0 :: s.inputs | m + 1 => .wait m :: s.inputs)
                       else s.inputs } := by
  have ha : hostAccess (.read (hostAddr 0 2)) s = { s with observed := s.observed ++ [Status.toWord s.status] } := by
    have hs : addrSpace (hostAddr 0 2) = 0 := addrSpace_hostAddr (by decide) (by decide)
    have hi : addrIndex (hostAddr 0 2) = 2 := addrIndex_hostAddr (by decide) (by decide)
    cases hb : s.status.busy
    · exact hostAccess_read hb (by rw [hostRead_hostAddr s (by decide) (by decide)]; rfl)
    · rw [hostAccess_busy hb, accessBusy, busyReadable, hs, hi]
      rfl
  unfold waitAccess waitRest lastRead
  rw [ha]
  cases n <;> simp only [List.getLastD_concat, hw]

/-- A pass of `wait`. -/
theorem step_waitMove {s : State} {n : Nat} {rest : List Move} (hi : s.inputs = .wait n :: rest) :
    step s = .next (waitAccess n (dropMove s)) := by
  unfold step
  simp only [hi]

/-- An `expect`. -/
theorem step_expectMove {s : State} {a v : Word} {rest : List Move} (hi : s.inputs = .expect a v :: rest) :
    step s = .next (expectAccess a v (dropMove s)) := by
  unfold step
  simp only [hi]

/-- The pending command, decoded. -/
theorem engineStep_command {s : State} {v : Word} {i : Instr} (hb : s.status.busy = true) (hp : s.pending = some v)
    (hd : decode v = .ok i) : engineStep s = exec i s := by
  unfold engineStep fetch
  simp only [hb, hp, hd, if_true]

theorem engineStep_illegal {s : State} {v : Word} {e : DecodeError} (hb : s.status.busy = true) (hp : s.pending = some v)
    (hd : decode v = .error e) : engineStep s = .next (illegalCommand v s) := by
  unfold engineStep fetch
  simp only [hb, hp, hd, if_true]

end Sys2Proof.Machine
end

