-- ==== Sys2Proof/Tests/Slice0.lean ====
section
/-! SUPPORT. Tests: the checks of WellFormed on ill-formed terms, decoding of words written out from 30_encoding.md R80 and R82, one step of
each command against 95_test_vectors.md, and a witness for the hypotheses of each statement. -/

namespace Sys2Proof.Tests

open Sys2Proof Sys2Proof.Machine

-- one theorem at a time: the kernel's evaluations below would otherwise wait in many threads at once
set_option Elab.async false

/-! ### Helpers -/

/-- The state after one command, or none where it stops. -/
def after (i : Instr) (s : State) : Option State :=
  match exec i s with
  | .next t => some t
  | .fault _ => none
  | .refused _ => none

/-- STATUS and ERR_INFO after the HOST runs a command, as the vectors give them. -/
def outcome (i : Instr) (s : State) : Option (Nat × Nat) :=
  (after i (issue (encode i) s)).map fun t => (t.status.toWord.toNat, t.errInfo.toNat)

def reset : State := State.reset

def withInput (bs : List Byte) (s : State) : State := { s with inbuf := cellsFrom 0 bs, inLen := word bs.length }
def withName (bs : List Byte) (s : State) : State := { s with namebuf := cellsFrom 0 bs, nameLen := word bs.length }
def withPayload (c : Code) (s : State) : State := { s with paybuf := cellsFrom 0 c, payLen := word c.length }
def withArchive (bs : List Byte) (s : State) : State := { s with arcbuf := cellsFrom 0 bs, arcLen := word bs.length }
def withCounts (bs : List Byte) (s : State) : State :=
  { s with freq := cellsFrom 0 ((countBytes bs).map word), status := { s.status with freqV := true } }
def withNodes (ns : List Node) (s : State) : State :=
  { s with nodes := cellsFrom 0 ns, root := word (ns.length - 1), status := { s.status with treeV := true } }
def withTable (ct : List (Byte × Code)) (s : State) : State := State.withCodes ct ct.length s
def withDecode (d : List (Code × Byte)) (s : State) : State :=
  { s with dtab := d, status := { s.status with dtabV := true } }
def writing (s : State) : State := { s with status := { s.status with aw := .opened } }
def reading (cur rem : Nat) (s : State) : State :=
  { s with arcCur := word cur, recRemain := word rem, recCount := word rem, status := { s.status with ar := .opened } }

/-- "ABRACADABRA" -/
def abra : List Byte := [0x41, 0x42, 0x52, 0x41, 0x43, 0x41, 0x44, 0x41, 0x42, 0x52, 0x41]

/-- "aabbbcccc" -/
def aabbbcccc : List Byte := [0x61, 0x61, 0x62, 0x62, 0x62, 0x63, 0x63, 0x63, 0x63]

/-- V-BLD-8 -/
def abcNodes : List Node :=
  [.leaf 2 0x61, .leaf 3 0x62, .leaf 4 0x63, .inner 5 0 1, .inner 9 2 3]

/-- V-CG-5 -/
def abcCodes : List (Byte × Code) := [(0x61, [true, false]), (0x62, [true, true]), (0x63, [false])]

/-- V-CG-3 -/
def abCodes : List (Byte × Code) := [(0x61, [false]), (0x62, [true])]

/-- A u64 field below 256, written out (00_scope.md R11). -/
def u64 (n : Byte) : List Byte := [n, 0, 0, 0, 0, 0, 0, 0]

/-- The container of V-AW-4: one record with an empty name, payload "01" and the codes of "ab". -/
def abArchive : List Byte :=
  u64 1 ++ u64 0 ++ (u64 2 ++ [0x30, 0x31]) ++ u64 2 ++ (u64 1 ++ [0x30, 0x61]) ++ (u64 1 ++ [0x31, 0x62])

/-- A parse that stands at the record of V-AW-4. -/
def abReading : State := reading 8 1 (withArchive abArchive reset)

/-- A block as small as R6 allows. -/
def tiny : State := State.resetWith { inCap := 1, nameCap := 1, payCap := 1, outCap := 1, arcCap := 8, tieBreak := .idOrder }
def busy (s : State) : State := { s with pending := some 0, status := { s.status with busy := true } }
def withMoves (ms : List Move) (s : State) : State := { s with inputs := ms }

/-- A parse that stands at `bs`, after the count of a container. -/
def parsing (bs : List Byte) (s : State) : State := reading 8 1 (withArchive (u64 1 ++ bs) s)

/-! ### WellFormed refuses -/

theorem test_wf_cmd_reserved_bits : CmdFields.wf { opc := 0x10, rsv := 1 } = false := by decide
theorem test_wf_cmd_unassigned : CmdFields.wf { opc := 0x15, rsv := 0 } = false := by decide
theorem test_wf_txn_read_data : HostTxn.wf { k := 0, a := 0, d := 1 } = false := by decide
theorem test_wf_asm_read_index : AsmLine.wf (.rdb .inbuf (2 ^ 56)) = false := by decide +kernel
theorem test_wf_asm_write_index : AsmLine.wf (.wrb .inbuf (2 ^ 56) 0) = false := by decide +kernel
theorem test_wf_asm_expect_index : AsmLine.wf (.expectElem .node (2 ^ 56) 0) = false := by decide +kernel
theorem test_wf_in_cap : Params.wf { Config.referenceParams with inCap := 0 } = false := by decide
theorem test_wf_name_cap : Params.wf { Config.referenceParams with nameCap := 0 } = false := by decide
theorem test_wf_pay_cap : Params.wf { Config.referenceParams with payCap := 0x0100000000000000 } = false := by decide
theorem test_wf_out_cap : Params.wf { Config.referenceParams with outCap := 0 } = false := by decide
theorem test_wf_arc_cap : Params.wf { Config.referenceParams with arcCap := 7 } = false := by decide
theorem test_wf_reference : Params.wf Config.referenceParams = true := by decide

/-! ### Decoding: each command's word, bit by bit from R80 and R82, and illegal values (V-CTL-1, V-CTL-2) -/

theorem test_decode_nop : decodeTableWord 64 0b00000000 = some .nop := by decide +kernel
theorem test_decode_reset : decodeTableWord 64 0b00000001 = some .reset := by decide +kernel
theorem test_decode_abort : decodeTableWord 64 0b00000010 = some .abort := by decide +kernel
theorem test_decode_freq : decodeTableWord 64 0b00010000 = some .freq := by decide +kernel
theorem test_decode_build : decodeTableWord 64 0b00010001 = some .build := by decide +kernel
theorem test_decode_codegen : decodeTableWord 64 0b00010010 = some .codegen := by decide +kernel
theorem test_decode_encode : decodeTableWord 64 0b00010011 = some .encode := by decide +kernel
theorem test_decode_compress : decodeTableWord 64 0b00010100 = some .compress := by decide +kernel
theorem test_decode_dinv : decodeTableWord 64 0b00100000 = some .dinv := by decide +kernel
theorem test_decode_decode : decodeTableWord 64 0b00100001 = some .decode := by decide +kernel
theorem test_decode_awbegin : decodeTableWord 64 0b00110000 = some .awbegin := by decide +kernel
theorem test_decode_awrec : decodeTableWord 64 0b00110001 = some .awrec := by decide +kernel
theorem test_decode_awend : decodeTableWord 64 0b00110010 = some .awend := by decide +kernel
theorem test_decode_arbegin : decodeTableWord 64 0b00111000 = some .arbegin := by decide +kernel
theorem test_decode_arrec : decodeTableWord 64 0b00111001 = some .arrec := by decide +kernel
theorem test_decode_arend : decodeTableWord 64 0b00111010 = some .arend := by decide +kernel
theorem test_decode_extract : decodeTableWord 64 0b00111011 = some .extract := by decide +kernel
theorem test_decode_unassigned : decodeTableWord 64 0x05 = none := by decide +kernel
theorem test_decode_reserved : decodeTableWord 64 0x110 = none := by decide +kernel
theorem test_decode_top_bit : decodeTableWord 64 0x8000000000000010 = none := by decide +kernel
theorem test_fetch_word : ∀ s : State, (s.withFetchWord 64 0x14).pending = some 0x14 := fun _ => rfl

/-! ### One step of each command (the vector's number in 95_test_vectors.md stands before each) -/

/-- V-CTL-4 -/
theorem test_nop : outcome .nop { reset with errInfo := 5, status := { reset.status with lastOpc := 5, err := true } } = some (2, 0) := by
  decide +kernel
/-- V-CTL-5 -/
theorem test_reset : (after .reset (writing (withInput abra reset))).map (fun t => (t.status.toWord, t.inbuf, t.inLen))
    = some (0x0000000100000002, [], 0) := by decide +kernel
/-- V-CTL-6 -/
theorem test_abort_write : (after .abort (writing (withArchive (u64 0) reset))).map (fun t => (t.arcbuf, t.arcLen, t.status.aw))
    = some ([], 0, .idle) := by decide +kernel
/-- V-CTL-7 -/
theorem test_abort_read : (after .abort abReading).map (fun t => (t.recCount, t.recRemain, t.arcCur, t.arcLen, t.arcbuf.length))
    = some (0, 0, 0, 54, 54) := by decide +kernel
/-- V-FRQ-1 -/
theorem test_freq : (after .freq (withInput abra reset)).map (fun t =>
    ([0x41, 0x42, 0x43, 0x44, 0x52, 0x45].map (Cells.get t.freq), t.distinct))
    = some ([some 5, some 2, some 1, some 1, some 2, some 0], 5) := by decide +kernel
/-- V-FRQ-5 -/
theorem test_freq_capacity : outcome .freq (withInput [1, 2, 3, 4, 5] { reset with params := { Config.referenceParams with inCap := 4 } })
    = some (0x0000001000000506, 3) := by decide +kernel
/-- V-BLD-8 -/
theorem test_build : (after .build (withCounts aabbbcccc reset)).map (fun t =>
    (t.nodes.map Prod.snd, t.nodeCount, t.root, t.status.err)) = some (abcNodes, 5, 4, false) := by decide +kernel
/-- V-BLD-2 -/
theorem test_build_empty : outcome .build (withCounts [] reset) = some (0x0000001101000106, 0) := by decide +kernel
/-- V-CG-5 -/
theorem test_codegen : (after .codegen (withNodes abcNodes reset)).map (fun t => (t.codeCount,
    [0x60, 0x61, 0x62, 0x63].map (Cells.get t.clen), [0x6100, 0x6101, 0x6200, 0x6201, 0x6300].map (Cells.get t.cbit), t.cbit.length))
    = some (3, [some 0, some 2, some 2, some 1], [some true, some false, some true, some true, some false], 5) := by decide +kernel
/-- V-CG-1 -/
theorem test_codegen_single : (after .codegen (withNodes [.leaf 1 0x71] reset)).map (fun t => (t.codeCount, Cells.get t.clen 0x71, t.cbit))
    = some (1, some 1, [(0x7100, false)]) := by decide +kernel
/-- V-CMP-4 -/
theorem test_encode : (after .encode (withTable abcCodes (withInput aabbbcccc reset))).map (fun t => (t.paybuf.map Prod.snd, t.payLen))
    = some ([true, false, true, false, true, true, true, true, true, true, false, false, false, false], 14) := by decide +kernel
/-- V-ENC-2 -/
theorem test_encode_missing : outcome .encode (withTable abCodes (withInput [0x61, 0x62, 0x63] reset)) = some (0x0000001304000206, 2) := by
  decide +kernel
/-- V-CMP-3 -/
theorem test_compress : (after .compress (withInput [0x7A, 0x7A, 0x7A, 0x7A] reset)).map (fun t =>
    (t.nodeCount, t.codeCount, t.paybuf.map Prod.snd, t.status.err))
    = some (1, 1, [false, false, false, false], false) := by decide +kernel
/-- V-CMP-2 -/
theorem test_compress_empty : outcome .compress reset = some (0x0000001405000002, 0) := by decide +kernel
/-- V-DEC-8, the table of V-CG-5 -/
theorem test_dinv : (after .dinv (withTable abcCodes reset)).map (fun t => (t.dtab, t.status.err))
    = some ([([true, false], 0x61), ([true, true], 0x62), ([false], 0x63)], false) := by decide +kernel
/-- V-DEC-0 -/
theorem test_dinv_sequence : outcome .dinv reset = some (0x0000002000000706, 3) := by decide +kernel
/-- V-AR-23 -/
theorem test_decode : (after .decode (withDecode [([false], 0x41), ([true], 0x42)] (withPayload [false, true] reset))).map (fun t =>
    (t.outbuf, t.outLen)) = some ([(0, 0x41), (1, 0x42)], 2) := by decide +kernel
/-- V-DEC-12 -/
theorem test_decode_truncated :
    (outcome .decode (withDecode [([false], 0x61), ([false, true], 0x62)] (withPayload [false, true] reset))).map Prod.snd = some 1 := by
  decide +kernel
/-- V-AW-1 -/
theorem test_awbegin : (after .awbegin reset).map (fun t => (t.arcbuf.map Prod.snd, t.arcLen, t.recCount, t.status.aw))
    = some ([0, 0, 0, 0, 0, 0, 0, 0], 8, 0, .opened) := by decide +kernel
/-- V-AW-8 -/
theorem test_awbegin_open : outcome .awbegin (writing (withArchive (u64 0) reset)) = some (0x0000003000000706, 6) := by decide +kernel
/-- V-AW-4 -/
theorem test_awrec : (after .awrec (withTable abCodes (withPayload [false, true] (writing (withArchive (u64 0) reset))))).map (fun t =>
    (t.arcbuf.map Prod.snd, t.arcLen, t.recCount, t.status.err)) = some (u64 0 ++ abArchive.drop 8, 54, 1, false) := by decide +kernel
/-- V-AW-7 -/
theorem test_awrec_no_table : outcome .awrec (writing (withArchive (u64 0) reset)) = some (0x0000003100000706, 3) := by decide +kernel
/-- V-AW-4, its first eight bytes -/
theorem test_awend : (after .awend (writing { withArchive (u64 0) reset with recCount := 1 })).map (fun t =>
    (t.arcbuf.map Prod.snd, t.arcLen, t.status.aw)) = some (u64 1, 8, .idle) := by decide +kernel
/-- V-AW-9 -/
theorem test_awend_sequence : outcome .awend reset = some (0x0000003200000706, 5) := by decide +kernel
/-- V-AR-18 -/
theorem test_arbegin : (after .arbegin (withArchive [0xFF, 0xFF, 0xFF, 0xFF, 0xFF, 0xFF, 0xFF, 0xFF] reset)).map (fun t =>
    (t.recCount.toNat, t.recRemain.toNat, t.arcCur)) = some (18446744073709551615, 18446744073709551615, 8) := by decide +kernel
/-- V-AR-2 -/
theorem test_arbegin_short : outcome .arbegin (withArchive [0, 0, 0, 0, 0] reset) = some (0x0000003800000406, 0) := by decide +kernel
/-- V-AW-4 read back -/
theorem test_arrec : (after .arrec abReading).map (fun t => (t.paybuf.map Prod.snd, t.dtab, t.arcCur, t.status.err))
    = some ([false, true], [([false], 0x61), ([true], 0x62)], 54, false) := by decide +kernel
/-- V-AR-17 -/
theorem test_arrec_duplicate : (outcome .arrec (reading 8 1 (withArchive
    (u64 1 ++ u64 0 ++ u64 0 ++ u64 2 ++ (u64 1 ++ [0x30, 0x41]) ++ (u64 1 ++ [0x30, 0x42])) reset))).map Prod.snd = some 42 := by
  decide +kernel
/-- V-AR-1 -/
theorem test_arend : (after .arend (reading 8 0 (withArchive (u64 0) reset))).map (fun t => (t.status.ar, t.status.err)) = some (.idle, false) := by
  decide +kernel
/-- V-AR-10 -/
theorem test_arend_remain : outcome .arend abReading = some (0x0000003A00000706, 10) := by decide +kernel
/-- V-AW-4 extracted: "ab" -/
theorem test_extract : (after .extract abReading).map (fun t => (t.outbuf.map Prod.snd, t.outLen, t.status.err)) = some ([0x61, 0x62], 2, false) := by
  decide +kernel
/-- V-AR-3, on the container of V-AW-4 cut before its last byte -/
theorem test_extract_cut : outcome .extract (reading 8 1 (withArchive (abArchive.take 53) reset)) = some (0x0000003B00000406, 53) := by
  decide +kernel
/-- V-CTL-2: the illegal command value takes its error completion -/
theorem test_illegal_command : (match step (reset.withFetchWord 64 0x110) with
    | .next t => some (t.status.toWord.toNat, t.errInfo.toNat)
    | .fault _ => none
    | .refused _ => none) = some (0x0000001000000606, 0x110) := by decide +kernel
/-- V-BLD-11 -/
theorem test_node_window : [12, 13, 14, 15, 16, 17, 18, 19, 1].map (fun i => hostRead (withNodes abcNodes reset) (hostAddr 0x09 i))
    = [some 5, some 0, some 0, some 1, some 9, some 0, some 2, some 3, some 0x161] := by decide +kernel

/-! ### The HOST's `wait` and `expect` (30_encoding.md R87) -/

/-- What a step leaves of the moves, of the HOST's reads and of its checks. -/
def hostSees (s : State) : Option (List Move × List Nat × List Bool) :=
  match step s with
  | .next t => some (t.inputs, t.observed.map BitVec.toNat, t.checks)
  | .fault _ => none
  | .refused _ => none

theorem test_wait_idle : hostSees (withMoves [.wait 3] reset) = some ([], [0], []) := by decide +kernel
theorem test_wait_busy : hostSees (withMoves [.wait 0] (busy reset)) = some ([.engine, .wait 0], [1], []) := by decide +kernel
theorem test_expect_equal : hostSees (withMoves [.expect (hostAddr 0 0) 0x0000000741434648] reset) = some ([], [0x741434648], [true]) := by
  decide +kernel
theorem test_expect_differs : hostSees (withMoves [.expect (hostAddr 0 5) 1] reset) = some ([], [0], [false]) := by decide +kernel
/-- 95_test_vectors.md V-CTL-11: the read of INBUF while BUSY = 1 records HostBusyAccess; the command in flight completes after it, and the
record stays. -/
theorem test_read_while_busy :
    (match step (withMoves [.host (.read 0x0100000000000000)] (busy reset)) with
      | .next t => (t.faults == ⟨false, true, false⟩ && t.status.busy, match step t with
        | .next u => u.faults == ⟨false, true, false⟩ && !u.status.busy && u.status.done
        | _ => false)
      | _ => (false, false)) = (true, true) := by decide +kernel
/-- 70_reset_and_hazards.md R301: a write of CMD while BUSY = 1 leaves PENDING. -/
theorem test_cmd_while_busy :
    (match step (withMoves [.host (.write 1 0x10)] (busy reset)) with
      | .next t => t.faults == ⟨false, false, true⟩ && t.pending == some 0 && t.status.busy
      | _ => false) = true := by decide +kernel
theorem test_asm_run : assemble [.run .freq 0, .expectReg .distinct 5]
    = [.host (.write 1 0x10), .engine, .wait 0, .expect 8 5] := by decide +kernel
theorem test_asm_loadbits : assemble [.loadbits [false, true]]
    = [.host (.write 0x0300000000000000 0), .host (.write 0x0300000000000001 1), .host (.write 5 2)] := by decide +kernel

/-! ### Witnesses: for each statement with hypotheses, states and operands that meet them -/

/-- The code table of "ab". -/
def abF : Byte → Code := tableOf abCodes

theorem abF_apart : abCodes.Pairwise Apart := by unfold Apart; decide
theorem abF_prefixFree : PrefixFree abF := prefixFree_tableOf abF_apart
theorem abF_differ : CodesDiffer abF := prefixFree_codesDiffer abF_prefixFree
theorem abCodes_legal : TableLegal abCodes := by decide
theorem table_is {ct : List (Byte × Code)} (h : ∀ e ∈ ct, e.2.length ≤ 255) (s : State) : CtabIs (withTable ct s) (tableOf ct) := ctabIs_of h rfl rfl
theorem abF_table (s : State) : CtabIs (withTable abCodes s) abF := table_is (by decide) s
theorem abF_inverse (s : State) : DtabIs (withDecode (inverseOf abF symbols) s) abF := dtabIs_inverseOf abF_differ rfl
theorem input_is (bs : List Byte) (s : State) (h1 : bs.length < 2 ^ 64) (h2 : bs.length ≤ s.params.inCap.toNat) : InputIs (withInput bs s) bs :=
  ⟨Cells.holds_cellsFrom _ _, word_toNat h1, h2⟩
theorem name_is (bs : List Byte) (s : State) (h1 : bs.length < 2 ^ 64) (h2 : bs.length ≤ s.params.nameCap.toNat) : NameIs (withName bs s) bs :=
  ⟨Cells.holds_cellsFrom _ _, word_toNat h1, h2⟩
theorem payload_is (c : Code) (s : State) (h1 : c.length < 2 ^ 64) (h2 : c.length ≤ s.params.payCap.toNat) : PayloadIs (withPayload c s) c :=
  ⟨Cells.holds_cellsFrom _ _, word_toNat h1, h2⟩


/-- For each command, a state in which it succeeds. -/
def succeeding : Instr → State
  | .nop | .reset | .abort | .awbegin | .freq => withInput abra reset
  | .compress => withInput [0x7A, 0x7A, 0x7A, 0x7A] reset
  | .build => withCounts aabbbcccc reset
  | .codegen => withNodes abcNodes reset
  | .encode => withTable abcCodes (withInput aabbbcccc reset)
  | .dinv => withTable abcCodes reset
  | .decode => withDecode [([false], 0x41)] (withPayload [false] reset)
  | .awrec => withTable abCodes (withPayload [false, true] (writing (withArchive (u64 0) reset)))
  | .awend => writing (withArchive (u64 0) reset)
  | .arbegin => withArchive (u64 1) reset
  | .arend => reading 8 0 (withArchive (u64 0) reset)
  | .arrec | .extract => abReading

/-- A test that shows ERR shows a success. -/
theorem succeeds_of {α : Type} {i : Instr} {s : State} {f : State → α} (p : α → Bool) {v : α} (h : (after i s).map f = some v)
    (hp : ∀ t, p (f t) = t.status.err) (hv : p v = false) : (after i s).map (fun t => t.status.err) = some false := by
  cases ha : after i s with
  | none => rw [ha] at h; cases h
  | some t =>
    rw [ha] at h
    have : f t = v := by injection h
    rw [Option.map_some, ← hp t, this, hv]

theorem witness_IllegalCommandValues : ∃ s v, engineTurn s ∧ s.status.busy = true ∧ s.pending = some v ∧
    ∃ e, decode v = .error e := ⟨reset.withFetchWord 64 0xFFFFFFFFFFFFFFFF, 0xFFFFFFFFFFFFFFFF, .inr rfl, rfl, rfl, .reservedBitsSet, by decide⟩
theorem witness_StepRunsDecodedCommand : ∃ s v, engineTurn s ∧ s.status.busy = true ∧ s.pending = some v ∧
    decode v = .ok .extract ∧ Instr.wf .extract = true := ⟨reset.withFetchWord 64 0x3B, 0x3B, .inr rfl, rfl, rfl, by decide, by decide⟩
theorem witness_StepRunsDecodedCommand_other_moves : (engineTurn reset ∧ reset.status.busy = false) ∧
    (withMoves [.host (.read 0)] reset).inputs = .host (.read 0) :: [] := ⟨⟨.inl rfl, rfl⟩, rfl⟩
theorem witness_CmdWriteIssuesTheCommand : reset.status.busy = false := rfl
theorem witness_FailedCommandOnlyFails : ∃ t, reset.status.err = false ∧ exec .build reset = .next t ∧ t.status.err = true :=
  ⟨_, rfl, rfl, rfl⟩
theorem witness_SuccessChangesOnlyWhatTheTableLists : ∀ i, (after i (succeeding i)).map (fun t => t.status.err) = some false := by
  intro i
  cases i
  case build => exact succeeds_of (fun x => x.2.2.2) test_build (fun _ => rfl) rfl
  case compress => exact succeeds_of (fun x => x.2.2.2) test_compress (fun _ => rfl) rfl
  case dinv => exact succeeds_of (fun x => x.2) test_dinv (fun _ => rfl) rfl
  case awrec => exact succeeds_of (fun x => x.2.2.2) test_awrec (fun _ => rfl) rfl
  case arrec => exact succeeds_of (fun x => x.2.2.2) test_arrec (fun _ => rfl) rfl
  case extract => exact succeeds_of (fun x => x.2.2) test_extract (fun _ => rfl) rfl
  all_goals decide +kernel
theorem witness_SequenceErrors : (reset.status.freqV = false ∧ reset.status.treeV = false ∧ reset.status.ctabV = false ∧ reset.status.dtabV = false) ∧
    (reset.status.aw = .idle ∧ reset.status.ar = .idle) ∧
    ((writing reset).status.aw = .opened ∧ (writing reset).status.ctabV = false ∧ (writing reset).status.ar = .idle) ∧
    ((reading 8 0 reset).status.ar = .opened ∧ (reading 8 0 reset).status.aw = .idle ∧ (reading 8 0 reset).recRemain = 0) ∧
    ((reading 8 1 reset).status.ar = .opened ∧ (reading 8 1 reset).recRemain ≠ 0) := by decide +kernel
theorem witness_CapacityAndEmptyInputErrors_lengths : let s := { withTable abCodes tiny with inLen := 2, payLen := 2, nameLen := 2, arcLen := 9 }
    (s.params.inCap.toNat < s.inLen.toNat ∧ s.status.ctabV = true) ∧
    (s.params.payCap.toNat < s.payLen.toNat ∧ (withDecode [] s).status.dtabV = true) ∧
    ((writing s).status.aw = .opened ∧ s.params.nameCap.toNat < s.nameLen.toNat) ∧
    (s.status.ar = .idle ∧ s.status.aw = .idle ∧ s.params.arcCap.toNat < s.arcLen.toNat) := by decide +kernel
theorem witness_CapacityAndEmptyInputErrors_payload : let s := writing { withTable abCodes tiny with nameLen := 1, payLen := 2 }
    s.status.aw = .opened ∧ s.status.ctabV = true ∧ s.nameLen.toNat ≤ s.params.nameCap.toNat ∧ s.params.payCap.toNat < s.payLen.toNat := by
  decide +kernel
theorem witness_CapacityAndEmptyInputErrors_record : let s := parsing (u64 2 ++ [1, 2]) tiny
    let u := parsing (u64 1 ++ [7] ++ u64 2 ++ [0x30, 0x31]) tiny
    (s.status.ar = .opened ∧ s.recRemain ≠ 0 ∧ s.params.nameCap.toNat < 2 ∧ Cells.holds s.arcbuf s.arcCur.toNat (toLE64 2) ∧
      s.arcCur.toNat + 8 + 2 ≤ s.arcLen.toNat) ∧
    (u.status.ar = .opened ∧ u.recRemain ≠ 0 ∧ 1 ≤ u.params.nameCap.toNat ∧ u.params.payCap.toNat < 2) ∧
    Cells.holds u.arcbuf u.arcCur.toNat (toLE64 1 ++ [7] ++ toLE64 2) ∧ u.arcCur.toNat + 16 + 1 + 2 ≤ u.arcLen.toNat := by
  decide +kernel
theorem witness_CapacityAndEmptyInputErrors_empty : ∀ sym, sym < 256 → Cells.get (cellsFrom 0 (List.replicate 256 (0 : Word))) sym = some 0 := by
  intro sym h
  rw [Cells.get_cellsFrom, if_pos (Nat.zero_le _), Nat.sub_zero, List.getElem?_replicate, if_pos h]
theorem witness_RegisterReads : reset.status.busy = false ∧ (21 ≤ 21 ∧ 21 < 2 ^ 56) ∧ 21 ≤ 2 ^ 56 - 1 ∧ 2 ^ 56 - 1 < 2 ^ 56 := by decide
theorem witness_RegisterWrites : (reset.status.busy = false ∧ reset.status.aw = .idle ∧ reset.status.ar = .idle) ∧
    ((writing reset).status.busy = false ∧ (writing reset).status.aw = .opened) ∧
    (0 < 2 ^ 56 ∧ 0 ≠ 1 ∧ 0 ≠ 3 ∧ 0 ≠ 4 ∧ 0 ≠ 5 ∧ 0 ≠ 7) := by decide
theorem witness_BufferWriteThenRead : (reset.status.busy = false ∧ Params.wf reset.params = true) ∧
    (4095 < reset.params.inCap.toNat ∧ 255 < reset.params.nameCap.toNat ∧ 1048575 < reset.params.payCap.toNat) ∧
    (2097151 < reset.params.arcCap.toNat ∧ reset.status.aw = .idle ∧ reset.status.ar = .idle) := by decide
theorem witness_OutOfRangeAccessesAreDefined : reset.status.busy = false ∧
    ∀ e ∈ [(0, 32), (1, 4096), (2, 256), (3, 1048576), (4, 4096), (5, 2097152), (6, 256), (7, 256), (8, 255), (8, 65536), (9, 2044), (10, 0),
      (255, 2 ^ 56 - 1)], let sp := e.1; let i := e.2; sp < 256 ∧ i < 2 ^ 56 ∧
    (sp = 0x00 ∧ 32 ≤ i ∨ sp = 0x01 ∧ reset.params.inCap.toNat ≤ i ∨ sp = 0x02 ∧ reset.params.nameCap.toNat ≤ i ∨
      sp = 0x03 ∧ reset.params.payCap.toNat ≤ i ∨ sp = 0x04 ∧ reset.params.outCap.toNat ≤ i ∨ sp = 0x05 ∧ reset.params.arcCap.toNat ≤ i ∨
      sp = 0x06 ∧ 256 ≤ i ∨ sp = 0x07 ∧ 256 ≤ i ∨ sp = 0x08 ∧ (65536 ≤ i ∨ i % 256 = 255) ∨ sp = 0x09 ∧ 511 * 4 ≤ i ∨ 0x0A ≤ sp) := by
  decide +kernel
theorem witness_ContainerLockedDuringSession : (writing reset).status.busy = false ∧ (writing reset).status.aw = .opened ∧
    (reading 8 0 reset).status.ar = .opened ∧ 2 ^ 56 - 1 < 2 ^ 56 := by decide
theorem witness_NodeWindowFields : (510 < 511 ∧ Cells.get [(510, Node.leaf 1 2)] 510 = some (.leaf 1 2)) ∧
    Cells.get (withNodes abcNodes reset).nodes 4 = some (.inner 9 2 3) := by decide
theorem witness_ReadOnlyWindows : let s : State := { reset with outbuf := [(4095, 7)], freq := [(255, 9)], clen := [(255, 1)], cbit := [(65534, true)] }
    (s.status.busy = false ∧ 4095 < s.params.outCap.toNat ∧ Cells.get s.outbuf 4095 = some 7) ∧
    (Cells.get s.freq 255 = some 9 ∧ Cells.get s.clen 255 = some 1 ∧ 65534 = 255 * 256 + 254 ∧ Cells.get s.cbit 65534 = some true) := by decide
/-- A block in which the last cell of each window is written, and no other. -/
def lastCells : State :=
  { reset with inbuf := [(4095, 7)], namebuf := [(255, 7)], paybuf := [(1048575, true)], outbuf := [(4095, 7)], arcbuf := [(2097151, 7)],
               freq := [(255, 9)], clen := [(255, 1)], cbit := [(65534, true)], nodes := [(510, .leaf 1 2)] }

theorem witness_HostReadsChangeNoState : lastCells.status.busy = false ∧ 2097151 < 2 ^ 56 ∧
    (4095 < lastCells.params.inCap.toNat ∧ 255 < lastCells.params.nameCap.toNat ∧ 4095 < lastCells.params.outCap.toNat ∧
      2097151 < lastCells.params.arcCap.toNat ∧ 1048575 < lastCells.params.payCap.toNat) ∧
    (Cells.get lastCells.inbuf 4095 = some 7 ∧ Cells.get lastCells.inbuf 0 = none) ∧
    (Cells.get lastCells.namebuf 255 = some 7 ∧ Cells.get lastCells.namebuf 0 = none) ∧
    (Cells.get lastCells.outbuf 4095 = some 7 ∧ Cells.get lastCells.outbuf 0 = none) ∧
    (Cells.get lastCells.arcbuf 2097151 = some 7 ∧ Cells.get lastCells.arcbuf 0 = none) ∧
    (Cells.get lastCells.clen 255 = some 1 ∧ Cells.get lastCells.clen 0 = none) ∧
    (Cells.get lastCells.paybuf 1048575 = some true ∧ Cells.get lastCells.paybuf 0 = none) ∧
    (Cells.get lastCells.freq 255 = some 9 ∧ Cells.get lastCells.freq 0 = none) ∧
    (Cells.get lastCells.cbit (255 * 256 + 254) = some true ∧ Cells.get lastCells.cbit (0 * 256 + 0) = none) ∧
    (hostRead lastCells (hostAddr 0x09 (510 * 4 + 3)) = some 0 ∧ Cells.get lastCells.nodes 0 = none) := by decide +kernel
theorem witness_HostReadsChangeNoState_expect : let s := withMoves [.expect (hostAddr 1 0) 9] reset
    (s.status.busy = false ∧ s.inputs = .expect (hostAddr 1 0) 9 :: [] ∧ hostRead s (hostAddr 1 0) = none) ∧
    hostRead s (hostAddr 0 31) = some 0 := by decide +kernel
theorem witness_AccessesWhileBusy : let s := withMoves [.host (.write (hostAddr 0 1) 0)] (busy reset)
    (s.status.busy = true ∧ s.inputs = .host (.write (hostAddr 0 1) 0) :: []) ∧
    (hostAddr 0 3 ≠ hostAddr 0 1) ∧ (16 ≤ 16 ∧ 16 ≤ 20) := by decide +kernel
theorem witness_AccessesWhileBusy_read : ∀ r, (r = 0 ∨ r = 2 ∨ 16 ≤ r ∧ r ≤ 20) → hostAddr 0 21 ≠ hostAddr 0 r := by
  rintro r (rfl | rfl | ⟨h1, h2⟩)
  · decide
  · decide
  · obtain rfl | rfl | rfl | rfl | rfl : r = 16 ∨ r = 17 ∨ r = 18 ∨ r = 19 ∨ r = 20 := by omega
    all_goals decide
theorem witness_AccessesWhileBusy_expect : ∀ r ∈ [0, 2, 16, 20, 21], let s := withMoves [.expect (hostAddr 0 r) 0] (busy reset)
    s.status.busy = true ∧ s.inputs = .expect (hostAddr 0 r) 0 :: [] := by decide +kernel
theorem witness_AccessesWhileBusy_goesOn : let s : State := { busy reset with faults := { reset.faults with hostBusyAccess := true } }
    (s.status.busy = true → s.pending.isSome = true) ∧ ¬ s.clean := ⟨fun _ => rfl, by unfold State.clean; decide⟩
theorem witness_HardResetInAnyState : (withMoves [.hardReset] (busy reset)).inputs = .hardReset :: [] := rfl
theorem witness_ResetState : 1 ≤ 1 ∧ 1 ≤ 15 ∧ 15 ≤ 15 := by decide
theorem witness_FreqCountsEveryByte : InputIs (withInput abra reset) abra ∧ 255 < 256 ∧ 256 ≤ 256 := ⟨input_is _ _ (by decide) (by decide), by decide, by decide⟩
theorem witness_FreqRecordsUnwrittenRead : let s : State := { reset with inLen := 4096 }
    s.inLen.toNat ≤ s.params.inCap.toNat ∧ 4095 < s.inLen.toNat ∧ Cells.get s.inbuf 4095 = none := by decide
theorem witness_BuildMakesTheCodeTree : (withCounts aabbbcccc reset).status.freqV = true ∧
    (∀ sym, sym < 256 → (Cells.get (withCounts aabbbcccc reset).freq sym).isSome = true) ∧
    presentSymbols (withCounts aabbbcccc reset) = [0x61, 0x62, 0x63] ∧
    (symbols.map (freqCount (withCounts aabbbcccc reset))).sum < 2 ^ 64 ∧ 3 ≤ 4 ∧ 4 < 2 * 3 - 1 := by decide +kernel

/-- A tie-break that is not ID_ORDER: the last member of least weight. -/
def lastLeast : Pick
  | k, [] => k
  | k, x :: xs => if (lastLeast x xs).1 ≤ k.1 then lastLeast x xs else k

theorem lastLeast_admissible : AdmissiblePick lastLeast := by
  intro k ks
  induction ks generalizing k with
  | nil => simp [lastLeast]
  | cons x xs ih =>
    obtain ⟨h1, h2⟩ := ih x
    rw [lastLeast]
    split
    · rename_i h
      refine ⟨List.mem_cons_of_mem _ h1, fun y hy => ?_⟩
      rcases List.mem_cons.1 hy with rfl | hy
      · exact h
      · exact h2 y hy
    · rename_i h
      refine ⟨List.mem_cons_self, fun y hy => ?_⟩
      rcases List.mem_cons.1 hy with rfl | hy
      · exact Nat.le_refl _
      · have := h2 y hy
        omega

theorem witness_AnyTieBreakMakesATree : AdmissiblePick lastLeast ∧ ((countBytes aabbbcccc).map word).length ≤ 256 ∧
    leavesFrom 0 ((countBytes aabbbcccc).map word) ≠ [] := ⟨lastLeast_admissible, by decide +kernel, by decide +kernel⟩

/-- The tree of V-BLD-8. -/
def abcTree : CodeTree := .fork 9 (.leaf 4 0x63) (.fork 5 (.leaf 2 0x61) (.leaf 3 0x62))

theorem witness_TreeCodesArePrefixFree : abcTree.syms.Nodup ∧ (CodeTree.leaf 1 0x71).syms.Nodup := by decide
theorem witness_CodegenWritesThePaths : (withNodes abcNodes reset).status.treeV = true ∧
    Represents (withNodes abcNodes reset).nodes (withNodes abcNodes reset).root.toNat abcTree ∧ abcTree.syms.Nodup :=
  ⟨rfl, ⟨2, 3, rfl, rfl, 0, 1, rfl, rfl, rfl⟩, by decide⟩
theorem witness_CodegenWritesThePaths_single : let s := withNodes [.leaf 1 0x71] reset
    Represents s.nodes s.root.toNat (.leaf 1 0x71) := rfl
theorem witness_EncodeConcatenatesCodes : let s := withTable abCodes (withInput [0x61, 0x62] reset)
    s.status.ctabV = true ∧ CtabIs s abF ∧ InputIs s [0x61, 0x62] ∧ (∀ b ∈ ([0x61, 0x62] : List Byte), abF b ≠ []) ∧
    (([0x61, 0x62] : List Byte).flatMap abF).length ≤ s.params.payCap.toNat :=
  ⟨rfl, abF_table _, input_is _ reset (by decide) (by decide), by decide, by decide⟩
theorem witness_EncodeErrors : let s := withTable abCodes (withInput ([0x61] ++ 0x63 :: []) reset)
    s.status.ctabV = true ∧ CtabIs s abF ∧ InputIs s ([0x61] ++ 0x63 :: []) ∧ (∀ x ∈ ([0x61] : List Byte), abF x ≠ []) ∧
    (([0x61] : List Byte).flatMap abF).length ≤ s.params.payCap.toNat ∧ abF 0x63 = [] :=
  ⟨rfl, abF_table _, input_is _ reset (by decide) (by decide), by decide, by decide, by decide⟩
theorem witness_EncodeErrors_capacity : let s := withTable abCodes (withInput ([0x61] ++ 0x62 :: []) { tiny with params := { tiny.params with inCap := 2 } })
    s.status.ctabV = true ∧ CtabIs s abF ∧ InputIs s ([0x61] ++ 0x62 :: []) ∧ (∀ x ∈ ([0x61] : List Byte), abF x ≠ []) ∧ (([0x61] : List Byte).flatMap abF).length ≤ s.params.payCap.toNat ∧ abF 0x62 ≠ [] ∧
    s.params.payCap.toNat < (([0x61] : List Byte).flatMap abF).length + (abF 0x62).length :=
  ⟨rfl, abF_table _, input_is _ _ (by decide) (by decide), by decide, by decide, by decide, by decide⟩
theorem witness_CompressIsTheChain : InputIs (withInput abra reset) abra ∧ abra ≠ [] := ⟨input_is _ _ (by decide) (by decide), by decide⟩
theorem witness_CompressOfEmptyInput : reset.inLen = 0 := rfl
theorem witness_DinvInvertsTheCodeTable : (withTable abCodes reset).status.ctabV = true ∧ CtabIs (withTable abCodes reset) abF ∧ CodesDiffer abF :=
  ⟨rfl, abF_table _, abF_differ⟩

/-- Two symbols with one code. -/
def dupCodes : List (Byte × Code) := [(0x61, [false]), (0x62, [false])]

theorem witness_DinvInvertsTheCodeTable_duplicate : let f := tableOf dupCodes
    (withTable dupCodes reset).status.ctabV = true ∧ CtabIs (withTable dupCodes reset) f ∧ f 0x62 ≠ [] ∧ (∃ x : Byte, x.toNat < (0x62 : Byte).toNat ∧ f x = f 0x62) ∧
    (∀ x z : Byte, x.toNat < z.toNat → z.toNat < (0x62 : Byte).toNat → f z ≠ [] → f x ≠ f z) := by
  refine ⟨rfl, table_is (by decide) _, by decide, ⟨0x61, by decide, by decide⟩, fun x z h1 h2 h3 h4 => ?_⟩
  have hz := tableOf_mem h3
  have hx := tableOf_mem (ct := dupCodes) (sym := x) (by rw [h4]; exact h3)
  rw [← h4] at hz
  have : ∀ e ∈ dupCodes, e.1 = 0x61 ∨ e.1 = 0x62 := by decide
  rcases this _ hz with h | h <;> rcases this _ hx with h' | h' <;> simp only at h h' <;> subst h <;> subst h' <;> revert h1 h2 <;> decide
/-- Two codes of which one is a prefix of the other (V-DEC-12). -/
def prefixCodes : List (Byte × Code) := [(0x61, [false]), (0x62, [false, true])]

theorem prefixCodes_legal : TableLegal prefixCodes := by decide
theorem prefixCodes_firstMatch : FirstMatch (tableOf prefixCodes) [0x61, 0x61] := by
  have h : ∀ y : Byte, tableOf prefixCodes y ≠ [] → tableOf prefixCodes y <+: [false] → y = 0x61 := fun y h1 h2 => by
    have hm := tableOf_mem h1
    have : ∀ e ∈ prefixCodes, e.2 <+: [false] → e.1 = 0x61 := by decide
    exact this _ hm h2
  intro b hb
  simp only [List.mem_cons, List.not_mem_nil, or_false, or_self] at hb
  subst hb
  exact ⟨by decide, h⟩

theorem witness_DecodeGivesTheBytes : let s := withDecode (inverseOf abF symbols) (withPayload [false, true] reset)
    (PrefixFree abF ∧ ∀ b ∈ ([0x61, 0x62] : List Byte), abF b ≠ []) ∧
    s.status.dtabV = true ∧ DtabIs s abF ∧ FirstMatch abF [0x61, 0x62] ∧
    PayloadIs s (([0x61, 0x62] : List Byte).flatMap abF) ∧ ([0x61, 0x62] : List Byte).length ≤ s.params.outCap.toNat :=
  ⟨⟨abF_prefixFree, by decide⟩, rfl, abF_inverse _, firstMatch_of_prefixFree abF_prefixFree (by decide), payload_is _ reset (by decide) (by decide),
    by decide⟩
theorem witness_DecodeGivesTheBytes_not_prefixFree : let f := tableOf prefixCodes
    let s := withDecode (inverseOf f symbols) (withPayload [false, false] reset)
    s.status.dtabV = true ∧ DtabIs s f ∧ FirstMatch f [0x61, 0x61] ∧ PayloadIs s (([0x61, 0x61] : List Byte).flatMap f) ∧
    ¬ PrefixFree f :=
  ⟨rfl, dtabIs_inverseOf (codesDiffer_tableOf prefixCodes_legal.2.2) rfl, prefixCodes_firstMatch, payload_is _ reset (by decide) (by decide),
    fun h => absurd (h 0x61 0x62 (by decide) (by decide)) (by decide)⟩

/-- A table with a code of one bit and one of two. -/
def unevenCodes : List (Byte × Code) := [(0x61, [false]), (0x62, [true, true])]

theorem unevenCodes_prefixFree : PrefixFree (tableOf unevenCodes) := prefixFree_tableOf (by unfold Apart; decide)
theorem witness_DecodeErrors : let f := tableOf unevenCodes
    let s := withDecode (inverseOf f symbols) (withPayload [false, true] reset)
    (s.status.dtabV = true ∧ DtabIs s f ∧ FirstMatch f [0x61]) ∧
    PayloadIs s (([0x61] : List Byte).flatMap f ++ [true]) ∧ ([0x61] : List Byte).length ≤ s.params.outCap.toNat ∧ [true] ≠ [] ∧
    (∀ b, f b ≠ [] → ¬ f b <+: [true]) := by
  refine ⟨⟨rfl, dtabIs_inverseOf (prefixFree_codesDiffer unevenCodes_prefixFree) rfl,
    firstMatch_of_prefixFree unevenCodes_prefixFree (by decide)⟩, payload_is _ reset (by decide) (by decide), by decide, by decide, fun b hb hp => ?_⟩
  have h := tableOf_mem hb
  have : ∀ e ∈ unevenCodes, ¬ e.2 <+: [true] := by decide
  exact this _ h hp
theorem witness_DecodeErrors_capacity : let s := withDecode (inverseOf abF symbols) (withPayload [false, true] { tiny with params := { tiny.params with payCap := 2 } })
    (s.status.dtabV = true ∧ DtabIs s abF ∧ FirstMatch abF [0x61, 0x62]) ∧
    PayloadIs s (([0x61, 0x62] : List Byte).flatMap abF ++ []) ∧ s.params.outCap.toNat < ([0x61, 0x62] : List Byte).length :=
  ⟨⟨rfl, abF_inverse _, firstMatch_of_prefixFree abF_prefixFree (by decide)⟩, payload_is _ _ (by decide) (by decide), by decide⟩
/-- V-AR-13: the payload "01" over the codes of V-DEC-12; greedy first match takes the "0" and is left with the "1". -/
def prefixRecord : State := parsing (containerRecord [0x78] [false, true] prefixCodes) reset

theorem witness_DecodeErrors_extract : let s := prefixRecord
    (s.status.ar = .opened ∧ s.recRemain ≠ 0 ∧ TableLegal prefixCodes ∧ FirstMatch (tableOf prefixCodes) [0x61]) ∧
    (([0x61] : List Byte).flatMap (tableOf prefixCodes) ++ [true] = [false, true] ∧ 1 ≤ s.params.nameCap.toNat ∧ 2 ≤ s.params.payCap.toNat) ∧
    (Cells.holds s.arcbuf s.arcCur.toNat (containerRecord [0x78] [false, true] prefixCodes) ∧
      s.arcCur.toNat + (containerRecord [0x78] [false, true] prefixCodes).length ≤ s.arcLen.toNat) ∧
    1 ≤ s.params.outCap.toNat ∧ [true] ≠ [] ∧ ∀ b, tableOf prefixCodes b ≠ [] → ¬ tableOf prefixCodes b <+: [true] := by
  refine ⟨⟨by decide, by decide, prefixCodes_legal, fun b hb => prefixCodes_firstMatch b (by simp at hb; simp [hb])⟩, by decide,
    by decide +kernel, by decide, by decide, fun b hb hp => ?_⟩
  have h := tableOf_mem hb
  have : ∀ e ∈ prefixCodes, ¬ e.2 <+: [true] := by decide
  exact this _ h hp

/-- The record of V-AW-4. -/
def abRecord : List Byte := containerRecord [] [false, true] abCodes

/-- "zzzz", of V-CMP-3. -/
def zzzz : List Byte := [0x7A, 0x7A, 0x7A, 0x7A]

theorem runs_compress (s : State) : ∃ t, runCmd .compress s = .next t := runCommand_total _ _ _
theorem witness_CompressDinvDecodeRoundTrip : InputIs (withInput zzzz reset) zzzz ∧ (∃ t, runCmd .compress (withInput zzzz reset) = .next t) ∧
    (after .compress (withInput zzzz reset)).map (fun t => t.status.err) = some false ∧ zzzz.length ≤ reset.params.outCap.toNat :=
  ⟨input_is _ _ (by decide) (by decide), runs_compress _, witness_SuccessChangesOnlyWhatTheTableLists .compress, by decide⟩

/-- A block whose INBUF holds two bytes and whose OUTBUF holds one. -/
def two (payCap : Word) : State := State.resetWith { inCap := 2, nameCap := 1, payCap := payCap, outCap := 1, arcCap := 8, tieBreak := .idOrder }

theorem witness_CompressDinvDecodeRoundTrip_errors : InputIs (withInput [0x61, 0x61] (two 1)) [0x61, 0x61] ∧
    (after .compress (issue (encode .compress) (withInput [0x61, 0x61] (two 1)))).map (fun t => t.status.err) = some true ∧
    (after .compress (issue (encode .compress) (withInput [0x61, 0x61] (two 2)))).map (fun t => t.status.err) = some false ∧
    (two 2).params.outCap.toNat < 2 :=
  ⟨input_is _ _ (by decide) (by decide), by decide +kernel, by decide +kernel, by decide⟩
theorem witness_DecodeErrors_extract_capacity : let s := parsing abRecord (two 2)
    (s.status.ar = .opened ∧ s.recRemain ≠ 0 ∧ TableLegal abCodes ∧ FirstMatch abF [0x61, 0x62]) ∧
    (([0x61, 0x62] : List Byte).flatMap abF ++ [] = [false, true] ∧ 2 ≤ s.params.payCap.toNat ∧ s.params.outCap.toNat < 2) ∧
    Cells.holds s.arcbuf s.arcCur.toNat abRecord ∧ s.arcCur.toNat + abRecord.length ≤ s.arcLen.toNat :=
  ⟨⟨rfl, by decide, abCodes_legal, firstMatch_of_prefixFree abF_prefixFree (by decide)⟩, by decide, by decide +kernel, by decide +kernel⟩
theorem witness_FieldBytesRoundTrip : 2 ^ 64 - 1 < 2 ^ 64 ∧ 7 < 8 := by decide
theorem witness_AwbeginOpensAContainer : reset.status.aw = .idle ∧ reset.status.ar = .idle := ⟨rfl, rfl⟩
theorem witness_AwrecAppendsTheRecord : let s := withTable abCodes (withName [0x65] (withPayload [false, true] (writing (withArchive (u64 0) reset))))
    (s.status.aw = .opened ∧ s.status.ctabV = true ∧ CtabIs s abF) ∧ NameIs s [0x65] ∧ PayloadIs s [false, true] ∧
    s.arcLen.toNat + (containerRecord [0x65] [false, true] (entriesOf abF)).length ≤ s.params.arcCap.toNat :=
  ⟨⟨rfl, rfl, abF_table _⟩, name_is _ reset (by decide) (by decide), payload_is _ reset (by decide) (by decide), by decide +kernel⟩
theorem witness_AwrecAppendsTheRecord_full : let s := withTable [] (withName [] (withPayload [] (writing (withArchive (u64 0) tiny))))
    (s.status.aw = .opened ∧ s.status.ctabV = true ∧ CtabIs s (tableOf [])) ∧ NameIs s [] ∧ PayloadIs s [] ∧
    s.params.arcCap.toNat < s.arcLen.toNat + (containerRecord [] [] (entriesOf (tableOf []))).length :=
  ⟨⟨rfl, rfl, table_is (by simp) _⟩, name_is [] tiny (by decide) (by decide), payload_is [] tiny (by decide) (by decide), by decide +kernel⟩
theorem witness_AwendWritesTheCount : (writing reset).status.aw = .opened ∧ 8 ≤ 8 := ⟨rfl, by decide⟩
theorem witness_ArbeginReadsTheCount : let s := withArchive (toLE64 (0xFFFFFFFFFFFFFFFF : Word).toNat) reset
    s.status.ar = .idle ∧ s.status.aw = .idle ∧ s.arcLen.toNat ≤ s.params.arcCap.toNat ∧ 8 ≤ s.arcLen.toNat ∧
    Cells.holds s.arcbuf 0 (toLE64 (0xFFFFFFFFFFFFFFFF : Word).toNat) := ⟨rfl, rfl, by decide +kernel, by decide +kernel, Cells.holds_cellsFrom _ _⟩
theorem witness_ArbeginReadsTheCount_short : let s := withArchive [0, 0, 0, 0, 0, 0, 0] reset
    s.arcLen.toNat < 8 ∧ s.arcLen.toNat ≤ s.params.arcCap.toNat ∧ s.status.ar = .idle ∧ s.status.aw = .idle := by decide

theorem abRecord_in_archive : Cells.holds abReading.arcbuf abReading.arcCur.toNat abRecord := by decide +kernel
theorem witness_ArrecParsesARecord : (abReading.status.ar = .opened ∧ abReading.recRemain ≠ 0) ∧ TableLegal abCodes ∧
    (([] : List Byte).length ≤ abReading.params.nameCap.toNat ∧ [false, true].length ≤ abReading.params.payCap.toNat) ∧
    Cells.holds abReading.arcbuf abReading.arcCur.toNat abRecord ∧ abReading.arcCur.toNat + abRecord.length ≤ abReading.arcLen.toNat :=
  ⟨by decide, abCodes_legal, by decide, abRecord_in_archive, by decide +kernel⟩
theorem witness_CutRecordIsRefused : ∀ k ∈ [0, 45], let s := reading 8 1 (withArchive (abArchive.take (8 + k)) reset)
    (s.status.ar = .opened ∧ TableLegal abCodes ∧ 0 ≤ s.params.nameCap.toNat ∧ [false, true].length ≤ s.params.payCap.toNat) ∧
    k < abRecord.length ∧ s.arcLen.toNat = s.arcCur.toNat + k ∧ s.recRemain ≠ 0 ∧ Cells.holds s.arcbuf s.arcCur.toNat (abRecord.take k) := by
  decide +kernel
theorem witness_BadBitCharacterIsRefused_lengths : let s := parsing (u64 5) reset
    let u := parsing (u64 0 ++ u64 3) reset
    (s.status.ar = .opened ∧ s.recRemain ≠ 0 ∧ 5 < 2 ^ 64 ∧ Cells.holds s.arcbuf s.arcCur.toNat (toLE64 5) ∧
      s.arcCur.toNat + 8 ≤ s.arcLen.toNat ∧ s.arcLen.toNat < s.arcCur.toNat + 8 + 5) ∧
    (0 ≤ u.params.nameCap.toNat ∧ Cells.holds u.arcbuf u.arcCur.toNat (toLE64 0 ++ [] ++ toLE64 3) ∧
      u.arcCur.toNat + 16 + 0 ≤ u.arcLen.toNat ∧ u.arcLen.toNat < u.arcCur.toNat + 16 + 0 + 3) := by decide +kernel
theorem witness_BadBitCharacterIsRefused_payload : let bytes := toLE64 0 ++ [] ++ toLE64 2 ++ [true].map bitChar ++ [0x32]
    let s := parsing bytes reset
    (s.status.ar = .opened ∧ s.recRemain ≠ 0 ∧ [true].length < 2 ∧ 2 ≤ s.params.payCap.toNat ∧ (0x32 : Byte) ≠ 0x30 ∧ (0x32 : Byte) ≠ 0x31) ∧
    Cells.holds s.arcbuf s.arcCur.toNat bytes ∧ s.arcCur.toNat + 16 + 0 + 2 ≤ s.arcLen.toNat := by decide +kernel

/-- The fields of a record up to its codeCount, with an empty name and an empty payload. -/
def noPayload : List Byte := toLE64 0 ++ [] ++ toLE64 0 ++ ([] : Code).map bitChar

theorem witness_BadBitCharacterIsRefused_cutFields : let s := parsing (u64 0 |>.take 7) reset
    let t := parsing (toLE64 0 ++ []) reset
    let u := parsing noPayload reset
    let v := parsing (noPayload ++ toLE64 1 ++ ([] : List (Byte × Code)).flatMap containerEntry) reset
    (s.status.ar = .opened ∧ s.recRemain ≠ 0 ∧ s.arcLen.toNat < s.arcCur.toNat + 8) ∧
    (t.status.ar = .opened ∧ t.recRemain ≠ 0 ∧ Cells.holds t.arcbuf t.arcCur.toNat (toLE64 0 ++ []) ∧
      t.arcCur.toNat + 8 + 0 ≤ t.arcLen.toNat ∧ t.arcLen.toNat < t.arcCur.toNat + 16 + 0) ∧
    (u.status.ar = .opened ∧ u.recRemain ≠ 0 ∧ Cells.holds u.arcbuf u.arcCur.toNat noPayload ∧
      u.arcCur.toNat + noPayload.length ≤ u.arcLen.toNat ∧ u.arcLen.toNat < u.arcCur.toNat + noPayload.length + 8) ∧
    (v.status.ar = .opened ∧ v.recRemain ≠ 0 ∧ TableLegal [] ∧ Cells.holds v.arcbuf v.arcCur.toNat (noPayload ++ toLE64 1) ∧
      v.arcCur.toNat + (noPayload ++ toLE64 1).length ≤ v.arcLen.toNat ∧
      v.arcLen.toNat < v.arcCur.toNat + (noPayload ++ toLE64 1).length + 8) := by decide +kernel
theorem witness_BadBitCharacterIsRefused_cutEntry : let body := noPayload ++ toLE64 1 ++ ([] : List (Byte × Code)).flatMap containerEntry
    let s := parsing (body ++ toLE64 255) reset
    let u := parsing (body ++ toLE64 1 ++ [false].map bitChar) reset
    (s.status.ar = .opened ∧ s.recRemain ≠ 0 ∧ 255 ≤ 255 ∧ Cells.holds s.arcbuf s.arcCur.toNat (body ++ toLE64 255) ∧
      s.arcCur.toNat + body.length + 8 ≤ s.arcLen.toNat ∧ s.arcLen.toNat < s.arcCur.toNat + body.length + 8 + 255) ∧
    (u.status.ar = .opened ∧ u.recRemain ≠ 0 ∧ Cells.holds u.arcbuf u.arcCur.toNat (body ++ toLE64 1 ++ [false].map bitChar) ∧
      u.arcLen.toNat = u.arcCur.toNat + body.length + 8 + 1) := by decide +kernel
theorem witness_BadBitCharacterIsRefused_codeCount : let s := parsing (noPayload ++ toLE64 257) reset
    (s.status.ar = .opened ∧ s.recRemain ≠ 0 ∧ 0 ≤ s.params.payCap.toNat ∧ 256 < 257) ∧
    Cells.holds s.arcbuf s.arcCur.toNat (noPayload ++ toLE64 257) ∧ s.arcCur.toNat + noPayload.length + 8 ≤ s.arcLen.toNat := by decide +kernel
theorem witness_BadBitCharacterIsRefused_codeLen : ∀ cl ∈ [0, 256], let body := noPayload ++ toLE64 256 ++ ([] : List (Byte × Code)).flatMap containerEntry
    let s := parsing (body ++ toLE64 cl) reset
    (s.status.ar = .opened ∧ s.recRemain ≠ 0 ∧ TableLegal [] ∧ 0 < 256 ∧ (cl = 0 ∨ 255 < cl)) ∧
    Cells.holds s.arcbuf s.arcCur.toNat (body ++ toLE64 cl) ∧ s.arcCur.toNat + body.length + 8 ≤ s.arcLen.toNat := by decide +kernel
theorem witness_BadBitCharacterIsRefused_codeBits : let body := noPayload ++ toLE64 1 ++ ([] : List (Byte × Code)).flatMap containerEntry
    let s := parsing (body ++ toLE64 2 ++ [false].map bitChar ++ [0x32]) reset
    (s.status.ar = .opened ∧ s.recRemain ≠ 0 ∧ [false].length < 2 ∧ 2 ≤ 255 ∧ (0x32 : Byte) ≠ 0x30 ∧ (0x32 : Byte) ≠ 0x31) ∧
    Cells.holds s.arcbuf s.arcCur.toNat (body ++ toLE64 2 ++ [false].map bitChar ++ [0x32]) ∧
    s.arcCur.toNat + body.length + 8 + 2 ≤ s.arcLen.toNat := by decide +kernel
theorem witness_BadBitCharacterIsRefused_twice : ∀ e ∈ ([(0x61, [true]), (0x62, [false])] : List (Byte × Code)),
    let ct : List (Byte × Code) := [(0x61, [false])]
    let body := noPayload ++ toLE64 2 ++ ct.flatMap containerEntry
    let s := parsing (body ++ containerEntry e) reset
    (s.status.ar = .opened ∧ s.recRemain ≠ 0 ∧ TableLegal ct ∧ ct.length < 2 ∧ 2 ≤ 256 ∧ 1 ≤ e.2.length ∧ e.2.length ≤ 255) ∧
    (e.1 ∈ ct.map Prod.fst ∨ e.1 ∉ ct.map Prod.fst ∧ e.2 ∈ ct.map Prod.snd) ∧
    Cells.holds s.arcbuf s.arcCur.toNat (body ++ containerEntry e) ∧ s.arcCur.toNat + body.length + 9 + e.2.length ≤ s.arcLen.toNat := by
  decide +kernel
theorem witness_ArendClosesTheSession : let s := reading 8 0 (withArchive (u64 0) reset)
    let u := reading 8 0 (withArchive (u64 0 ++ [0]) reset)
    (s.status.ar = .opened ∧ s.recRemain = 0 ∧ s.arcCur = s.arcLen) ∧ (u.status.ar = .opened ∧ u.recRemain = 0 ∧ u.arcCur ≠ u.arcLen) := by
  decide +kernel
theorem witness_ExtractGivesTheFile : FirstMatch (tableOf abCodes) [0x61, 0x62] ∧
    (([0x61, 0x62] : List Byte).flatMap (tableOf abCodes) = [false, true] ∧ ([0x61, 0x62] : List Byte).length ≤ abReading.params.outCap.toNat) ∧
    (abReading.status.ar = .opened ∧ abReading.recRemain ≠ 0 ∧ TableLegal abCodes) ∧
    Cells.holds abReading.arcbuf abReading.arcCur.toNat abRecord ∧ abReading.arcCur.toNat + abRecord.length ≤ abReading.arcLen.toNat :=
  ⟨firstMatch_of_prefixFree abF_prefixFree (by decide), by decide, ⟨rfl, by decide, abCodes_legal⟩, abRecord_in_archive, by decide +kernel⟩

theorem step_reset : step reset = .next reset := rfl
theorem witness_StepKeepsMemoryCanonical : Memory.wf reset ∧ ∃ t, step reset = .next t := ⟨Memory.wf_reset _, _, step_reset⟩
theorem witness_StepKeepsCellsInBounds : reset.inBounds ∧ ∃ t, step reset = .next t := ⟨by decide, _, step_reset⟩
theorem witness_StepKeepsStatusLegal : abReading.statusLegal ∧ ∃ t, step abReading = .next t := ⟨by decide, _, rfl⟩
theorem witness_StepKeepsSessionsLegal : (abReading.statusLegal ∧ abReading.sessionLegal) ∧
    (writing (withArchive (u64 0) reset)).sessionLegal ∧ ∃ t, step abReading = .next t := ⟨by decide +kernel, by decide +kernel, _, rfl⟩

/-- Every table of "aabbbcccc", each valid, and the counts of them. -/
def allTables : State :=
  withDecode (inverseOf (tableOf abcCodes) symbols)
    (withTable abcCodes { withNodes abcNodes (withCounts aabbbcccc reset) with distinct := 3, nodeCount := 5 })

theorem abcCodes_legal : TableLegal abcCodes := by decide
theorem allTables_legal : allTables.tablesLegal := by
  refine ⟨fun _ sym h => ?_, fun _ => ⟨abcTree, ⟨2, 3, rfl, rfl, 0, 1, rfl, rfl, rfl⟩, by decide⟩,
    fun _ => ⟨_, ctabExactly_of (fun e he => (abcCodes_legal.1 e he).2) rfl rfl, codesDiffer_tableOf abcCodes_legal.2.2⟩,
    fun _ => by decide +kernel, fun h => absurd h (by decide), by decide +kernel, fun i => ?_, ?_⟩
  · show (Cells.get (cellsFrom 0 ((countBytes aabbbcccc).map word)) sym).isSome = true
    rw [get_counts h]
    rfl
  · show (Cells.get (cellsFrom 0 abcNodes) i).isSome = true ↔ i < 5
    rw [Cells.get_cellsFrom, if_pos (Nat.zero_le _), Nat.sub_zero, Option.isSome_iff_ne_none, ne_eq, List.getElem?_eq_none_iff, Nat.not_le]
    rfl
  · rw [codedSymbols_of (ct := abcCodes) (fun e he => (abcCodes_legal.1 e he).2) rfl,
      codeCountOf_eq abcCodes_legal.2.1 fun e he => (abcCodes_legal.1 e he).1]
    rfl
theorem witness_StepKeepsTablesLegal : allTables.tablesLegal ∧ ∃ t, step allTables = .next t := ⟨allTables_legal, _, rfl⟩
theorem witness_ConstantsStayAndFaultsAreKept : let s : State := { reset with faults := { reset.faults with unwrittenRead := true } }
    (∃ t, step s = .next t) ∧ s.faults.unwrittenRead = true := ⟨⟨_, rfl⟩, rfl⟩
theorem witness_ConstantsStayAndFaultsAreKept_hazards : let s : State := { withMoves [.hardReset] reset with faults := ⟨false, true, true⟩ }
    (∃ t, step s = .next t) ∧ s.faults.hostBusyAccess = true ∧ s.faults.cmdWhileBusy = true := ⟨⟨_, rfl⟩, rfl, rfl⟩
theorem witness_CellsBeyondTheLengthAreNeverRead : let s : State := { withInput [1, 2, 3] reset with inLen := 2 }
    ∀ j, j < s.inLen.toNat → Cells.get [(0, 1), (1, 2), (2, 9)] j = Cells.get s.inbuf j := by decide
theorem witness_CellsBeyondTheLengthAreNeverRead_others : let s : State := { withArchive [1, 2, 3] (withPayload [true, false]
      (withName [4, 5] reset)) with nameLen := 1, payLen := 1, arcLen := 2 }
    (∀ j, j < s.nameLen.toNat → Cells.get [(0, 4)] j = Cells.get s.namebuf j) ∧
    (∀ j, j < s.payLen.toNat → Cells.get [(0, true), (1, true)] j = Cells.get s.paybuf j) ∧
    (s.status.aw = .idle ∧ ∀ j, j < s.arcLen.toNat → Cells.get [(0, 1), (1, 2), (2, 9)] j = Cells.get s.arcbuf j) := by decide
theorem witness_PendingCommandCompletes : let s := withMoves ([0, 2, 16, 20].map fun r => Move.host (.read (hostAddr 0 r))) (busy reset)
    (s.status.busy = true ∧ s.pending.isSome = true) ∧
    ∀ r ∈ [0, 2, 16, 20], r = 0 ∨ r = 2 ∨ 16 ≤ r ∧ r ≤ 20 := by decide +kernel
theorem witness_PendingCommandCompletes_wait : let s := withMoves [.wait 2] reset
    let u := withMoves [.wait 0] (busy reset)
    (s.inputs = .wait 2 :: [] ∧ s.status.busy = false) ∧
    (u.inputs = .wait 0 :: [] ∧ u.status.busy = true ∧ u.pending.isSome = true) := by decide

end Sys2Proof.Tests
end

section
/-! SUPPORT. The canonical form of buffers and tables (00_scope.md R13, 10_state.md R36, R43): every piece of a step keeps it. -/

namespace Sys2Proof.Machine

/-! ### One rule per buffer or table: replacing it by one in canonical form -/

section
variable {s : State} (h : Memory.wf s)
include h

theorem Memory.wf.set_inbuf {c : Cells Byte} (hc : Cells.wf c) : Memory.wf { s with inbuf := c } := by
  obtain ⟨_, hname, hpay, hout, harc, hfreq, hnodes, hclen, hcbit, hdtab⟩ := h
  exact ⟨hc, hname, hpay, hout, harc, hfreq, hnodes, hclen, hcbit, hdtab⟩

theorem Memory.wf.set_namebuf {c : Cells Byte} (hc : Cells.wf c) : Memory.wf { s with namebuf := c } := by
  obtain ⟨hin, _, hpay, hout, harc, hfreq, hnodes, hclen, hcbit, hdtab⟩ := h
  exact ⟨hin, hc, hpay, hout, harc, hfreq, hnodes, hclen, hcbit, hdtab⟩

theorem Memory.wf.set_paybuf {c : Cells Bool} (hc : Cells.wf c) : Memory.wf { s with paybuf := c } := by
  obtain ⟨hin, hname, _, hout, harc, hfreq, hnodes, hclen, hcbit, hdtab⟩ := h
  exact ⟨hin, hname, hc, hout, harc, hfreq, hnodes, hclen, hcbit, hdtab⟩

theorem Memory.wf.set_outbuf {c : Cells Byte} (hc : Cells.wf c) : Memory.wf { s with outbuf := c } := by
  obtain ⟨hin, hname, hpay, _, harc, hfreq, hnodes, hclen, hcbit, hdtab⟩ := h
  exact ⟨hin, hname, hpay, hc, harc, hfreq, hnodes, hclen, hcbit, hdtab⟩

theorem Memory.wf.set_arcbuf {c : Cells Byte} (hc : Cells.wf c) : Memory.wf { s with arcbuf := c } := by
  obtain ⟨hin, hname, hpay, hout, _, hfreq, hnodes, hclen, hcbit, hdtab⟩ := h
  exact ⟨hin, hname, hpay, hout, hc, hfreq, hnodes, hclen, hcbit, hdtab⟩

theorem Memory.wf.set_freq {c : Cells Word} (hc : Cells.wf c) : Memory.wf { s with freq := c } := by
  obtain ⟨hin, hname, hpay, hout, harc, _, hnodes, hclen, hcbit, hdtab⟩ := h
  exact ⟨hin, hname, hpay, hout, harc, hc, hnodes, hclen, hcbit, hdtab⟩

theorem Memory.wf.set_nodes {c : Cells Node} (hc : Cells.wf c) : Memory.wf { s with nodes := c } := by
  obtain ⟨hin, hname, hpay, hout, harc, hfreq, _, hclen, hcbit, hdtab⟩ := h
  exact ⟨hin, hname, hpay, hout, harc, hfreq, hc, hclen, hcbit, hdtab⟩

theorem Memory.wf.set_ctab {l : Cells Byte} {b : Cells Bool} (hl : Cells.wf l) (hb : Cells.wf b) :
    Memory.wf { s with clen := l, cbit := b } := by
  obtain ⟨hin, hname, hpay, hout, harc, hfreq, hnodes, _, _, hdtab⟩ := h
  exact ⟨hin, hname, hpay, hout, harc, hfreq, hnodes, hl, hb, hdtab⟩

theorem Memory.wf.set_dtab {d : List (Code × Byte)} (hd : Dtab.wf d) : Memory.wf { s with dtab := d } := by
  obtain ⟨hin, hname, hpay, hout, harc, hfreq, hnodes, hclen, hcbit, _⟩ := h
  exact ⟨hin, hname, hpay, hout, harc, hfreq, hnodes, hclen, hcbit, hd⟩

end

/-! ### Completions and the reset -/

section
variable {s : State} (h : Memory.wf s)
include h

theorem Memory.wf.clearDest (e : Dest) : Memory.wf (clearDest s e) := by
  cases e
  case inbuf => exact h.set_inbuf .nil
  case namebuf => exact h.set_namebuf .nil
  case paybuf => exact h.set_paybuf .nil
  case outbuf => exact h.set_outbuf .nil
  case arcbuf => exact h.set_arcbuf .nil
  case freq => exact h.set_freq .nil
  case nodes => exact h.set_nodes .nil
  case ctab => exact h.set_ctab .nil .nil
  case dtab => exact h.set_dtab .nil
  all_goals exact h

theorem Memory.wf.clearedBy (ds : List Dest) (r : Raise) : Memory.wf (clearedBy ds r s) := by
  unfold Machine.clearedBy
  split
  · exact h
  · exact List.foldlRecOn ds Machine.clearDest h fun _ hu e _ => hu.clearDest e

/-- Closing the sessions keeps the container or leaves it empty (43_control.md R233). -/
theorem Memory.wf.sessionsClosed : Memory.wf (sessionsClosed s) := by
  have ⟨_, _, _, _, harc, _⟩ := h
  refine h.set_arcbuf (c := if s.status.aw = .opened then [] else s.arcbuf) ?_
  split
  · exact .nil
  · exact harc

theorem Memory.wf.errorCompletion (ds : List Dest) (r : Raise) : Memory.wf (errorCompletion ds r s) := by
  rw [errorCompletion_eq]
  exact (h.clearedBy ds r).sessionsClosed

theorem Memory.wf.noteReads (d : Nat) : Memory.wf (s.noteReads d) :=
  noteReads_elim (P := Memory.wf) d s id h

end

theorem Memory.wf_resetAction (s : State) : Memory.wf (resetAction s) := Memory.wf_reset s.params

/-! ### Commands -/

section
variable {s t : State} (h : Memory.wf s)
include h

theorem FreqEffect.wf (he : FreqEffect s t) : Memory.wf t := by
  obtain ⟨fs, _, _, rfl⟩ := he
  exact h.set_freq (cellsFrom_wf _ _)

theorem BuildEffect.wf (he : BuildEffect s t) : Memory.wf t := by
  obtain ⟨ns, root, tree, _, _, _, rfl⟩ := he
  exact h.set_nodes (cellsFrom_wf _ _)

theorem CodegenEffect.wf (he : CodegenEffect s t) : Memory.wf t := by
  obtain ⟨ct, hct, rfl, _⟩ := he
  exact h.set_ctab (clenOf_wf ct) (cbitOf_wf hct)

theorem EncodeEffect.wf (he : EncodeEffect s t) : Memory.wf t := by
  obtain ⟨bits, _, rfl⟩ := he
  exact h.set_paybuf (cellsFrom_wf _ _)

theorem Memory.wf.emptyBody : Memory.wf (emptyBody s) :=
  ((h.set_nodes .nil).set_ctab (clenOf_wf []) .nil).set_paybuf .nil

theorem CompressEffect.wf (he : CompressEffect s t) : Memory.wf t := by
  obtain ⟨s1, hf, ⟨_, rfl⟩ | ⟨_, s2, s3, hb, hc, hp⟩⟩ := he
  · exact (hf.wf h).emptyBody
  · exact hp.wf (hc.wf (hb.wf (hf.wf h)))

theorem InvertEffect.wf (he : InvertEffect s t) : Memory.wf t := by
  obtain ⟨d, hd, _, rfl⟩ := he
  exact h.set_dtab hd

theorem DecodeEffect.wf (he : DecodeEffect s t) : Memory.wf t := by
  obtain ⟨ys, _, rfl⟩ := he
  exact h.set_outbuf (cellsFrom_wf _ _)

theorem AwbeginEffect.wf (he : AwbeginEffect s t) : Memory.wf t := by
  obtain ⟨_, _, rfl⟩ := he
  exact h.set_arcbuf (cellsFrom_wf _ _)

/-- A write into the container (42_archive.md R186, R188). -/
theorem Memory.wf.writeArcbuf (i : Nat) (bs : List Byte) : Memory.wf { s with arcbuf := Cells.writeRange s.arcbuf i bs } := by
  have ⟨_, _, _, _, harc, _⟩ := h
  exact h.set_arcbuf (Cells.writeRange_wf harc i bs)

theorem AwrecEffect.wf (he : AwrecEffect s t) : Memory.wf t := by
  obtain ⟨bs, _, _, rfl⟩ := he
  exact h.writeArcbuf _ bs

theorem AwendEffect.wf (he : AwendEffect s t) : Memory.wf t := by
  obtain ⟨_, rfl⟩ := he
  exact h.writeArcbuf 0 _

theorem ArbeginEffect.wf (he : ArbeginEffect s t) : Memory.wf t := by
  obtain ⟨c, _, _, _, _, rfl⟩ := he
  exact h

theorem ArrecEffect.wf (he : ArrecEffect s t) : Memory.wf t := by
  obtain ⟨r, d, _, _, ⟨_, _, ⟨hcodes, _⟩, _⟩, hd, _, rfl⟩ := he
  have hcbit : Cells.wf (cbitOf r.codes) := cbitOf_wf fun e he => (hcodes e he).2
  exact (((h.set_namebuf (cellsFrom_wf _ _)).set_paybuf (cellsFrom_wf _ _)).set_ctab (clenOf_wf _) hcbit).set_dtab hd

theorem ArendEffect.wf (he : ArendEffect s t) : Memory.wf t := by
  obtain ⟨_, _, _, rfl⟩ := he
  exact h

theorem ExtractEffect.wf (he : ExtractEffect s t) : Memory.wf t := by
  obtain ⟨u, hu, ht⟩ := he
  exact ht.wf (hu.wf h)

/-- Whatever a command's pseudocode answers is in canonical form. -/
theorem Effect.wf {i : Instr} (he : Effect i s t) : Memory.wf t := by
  cases i
  case nop => exact he ▸ h
  case reset => exact he ▸ Memory.wf_resetAction s
  case abort => exact he ▸ h.sessionsClosed
  case freq => exact FreqEffect.wf h he
  case build => exact BuildEffect.wf h he
  case codegen => exact CodegenEffect.wf h he.2
  case encode => exact EncodeEffect.wf h he
  case compress => exact CompressEffect.wf h he
  case dinv => exact InvertEffect.wf h he
  case decode => exact DecodeEffect.wf h he
  case awbegin => exact AwbeginEffect.wf h he
  case awrec => exact AwrecEffect.wf h he
  case awend => exact AwendEffect.wf h he
  case arbegin => exact ArbeginEffect.wf h he
  case arrec => exact ArrecEffect.wf h he
  case arend => exact ArendEffect.wf h he
  case extract => exact ExtractEffect.wf h he

theorem exec_wf {i : Instr} (he : exec i s = .next t) : Memory.wf t := by
  obtain ⟨u, d, hu, rfl⟩ | ⟨r, d, _, rfl⟩ := exec_cases he
  · have hwf : Memory.wf u := hu.wf h
    exact Memory.wf.noteReads (s := successCompletion u) hwf d
  · exact (h.errorCompletion _ r).noteReads d

/-! ### Host accesses and steps -/

theorem HostEffect.wf (he : HostEffect s t) : Memory.wf t := by
  induction he with
  | seen => exact h
  | busyWrite _ _ _ ih => exact ih
  | issued => exact h
  | inLen => exact h
  | nameLen => exact h
  | payLen => exact h
  | arcLen => exact h
  | inbuf i y =>
    have ⟨hin, _⟩ := h
    exact h.set_inbuf (Cells.writeRange_wf hin i [y])
  | namebuf i y =>
    have ⟨_, hname, _⟩ := h
    exact h.set_namebuf (Cells.writeRange_wf hname i [y])
  | paybuf i b =>
    have ⟨_, _, hpay, _⟩ := h
    exact h.set_paybuf (Cells.writeRange_wf hpay i [b])
  | arcbuf i y => exact h.writeArcbuf i [y]

theorem StepEffect.wf (he : StepEffect s t) : Memory.wf t := by
  have hdrop : Memory.wf (dropMove s) := h
  cases he with
  | host _ hh => exact hh.wf hdrop
  | reset => exact Memory.wf_resetAction _
  | pass => exact hdrop
  | illegal v => exact hdrop.errorCompletion [] _
  | command i _ _ hx => exact exec_wf hdrop hx

end

/-- Settles O52: a step is one of the cases of `StepEffect`, and each keeps the canonical form. -/
theorem stepKeepsMemoryCanonical : Obligations.StepKeepsMemoryCanonical := by
  unfold Obligations.StepKeepsMemoryCanonical
  exact fun _ _ h hs => (step_effect hs).wf h

end Sys2Proof.Machine
end

section
/-! SUPPORT. A command that reads an unwritten cell (00_scope.md R13, 60_exceptions.md R260). -/

namespace Sys2Proof.Machine

/-- A command whose pseudocode answers `u` after taking at least one free value completes in success with UnwrittenRead on record. -/
theorem runCommand_unwritten {ds : List Dest} {m : Eng State} {s u : State} {d : Nat} (hm : m s.draws = (.ok u, d))
    (hd : d ≠ u.draws) :
    runCommand ds m s =
      .next { successCompletion u with draws := d, faults := { u.faults with unwrittenRead := true } } := by
  have hd' : d ≠ (successCompletion u).draws := hd
  unfold runCommand State.noteReads
  rw [hm]
  simp only [if_neg hd', successCompletion_faults]

/-- A fault on record keeps a state from being final (70_reset_and_hazards.md R308). -/
theorem not_final_of_unwrittenRead {s : State} (h : s.faults.unwrittenRead = true) : ¬ s.final := by
  rintro ⟨_, _, hclean⟩
  simp [State.clean, FaultRecord.isEmpty, h] at hclean

/-- FREQ's pseudocode over an unwritten cell below IN_LEN answers all the same, and takes a free value (R100, R13). -/
theorem freqBody_unwritten {s : State} {j : Nat} (hj : j < s.inLen.toNat) (hc : Cells.get s.inbuf j = none) (d : Nat) :
    ∃ u d', freqBody s d = (.ok u, d') ∧ d < d' ∧ u.draws = s.draws ∧ u.status.freqV = true := by
  obtain ⟨bs, d', hread, _, hlt⟩ := memReads_draws Config.unspecifiedByte s.inbuf s.inLen.toNat 0 d
  exact ⟨_, d', Eng.andThen_ok hread, hlt ⟨j, Nat.zero_le j, by omega, hc⟩, rfl, rfl⟩

/-- Settles O28: the read of the unwritten cell takes a free value, which completion puts on record. -/
theorem freqRecordsUnwrittenRead : Obligations.FreqRecordsUnwrittenRead := by
  unfold Obligations.FreqRecordsUnwrittenRead
  intro s j hcap hj hc
  obtain ⟨u, d, hbody, hlt, hdraws, hvalid⟩ := freqBody_unwritten hj hc s.draws
  have hneed : (needInCap s).Gives () := capacityIf_gives (by simpa using hcap)
  have hrun : bodyOf .freq s s.draws = (.ok u, d) := (Eng.andThen_ok (hneed s.draws)).trans hbody
  rw [exec_eq_run, runCommand_unwritten hrun (by omega)]
  exact ⟨_, rfl, rfl, hvalid, not_final_of_unwrittenRead rfl⟩

end Sys2Proof.Machine
end

section
/-! SUPPORT. Fields of eight bytes and bit characters (00_scope.md R11, R12). -/

namespace Sys2Proof.Machine

/-- A byte takes the low eight bits of a number, so that the mask of R11 is in it already. -/
theorem byte_and_255 (n : Nat) : byte (n &&& 0xFF) = byte n := by
  apply BitVec.eq_of_toNat_eq
  rw [BitVec.toNat_ofNat, BitVec.toNat_ofNat, Nat.and_two_pow_sub_one_eq_mod n 8, Nat.mod_mod]

theorem toLE64_getElem? (v : Nat) {k : Nat} (hk : k < 8) : (toLE64 v)[k]? = some (byte (v >>> (8 * k))) := by
  unfold toLE64
  rw [List.getElem?_map, List.getElem?_range hk, Option.map_some]

/-- Settles O42: the bytes of a field one by one, and the laws of fields and bit characters for the rest. -/
theorem fieldBytesRoundTrip : Obligations.FieldBytesRoundTrip := by
  unfold Obligations.FieldBytesRoundTrip
  refine ⟨fun v hv => ⟨toLE64_length v, fun k hk => ?_, fromLE_toLE64 hv⟩, ⟨rfl, rfl⟩,
    charBit_bitChar false, charBit_bitChar true, fun _ => charBit_none⟩
  rw [toLE64_getElem? v hk, byte_and_255]

end Sys2Proof.Machine
end

section
/-! SUPPORT. What every step keeps, packaged once (00_scope.md R5, 60_exceptions.md R250), and what the effect of a command leaves alone. -/

namespace Sys2Proof.Machine

/-- A property that each piece of a step keeps: a HOST access, the reset input, a command that completes in success or in error, and the
bookkeeping of moves and of unwritten reads. -/
structure Invariant (P : State → Prop) : Prop where
  drop : ∀ s, P s → P (dropMove s)
  unwritten : ∀ s d, P s → P { s with draws := d, faults := { s.faults with unwrittenRead := true } }
  host : ∀ s t, P s → HostEffect s t → P t
  reset : ∀ s, P s → P (resetAction s)
  success : ∀ i s u, P s → Effect i s u → P (successCompletion u)
  error : ∀ i r s, r.code ≠ .noError → P s → P (errorCompletion (destinations i) r s)

/-- An invariant is kept by every step. An illegal command value fails as a command without destinations does, which NOP is. -/
theorem Invariant.step {P : State → Prop} (hP : Invariant P) {s t : State} (h : P s) (hs : step s = .next t) : P t := by
  have hdrop := hP.drop s h
  cases step_effect hs with
  | host _ hh => exact hP.host _ _ hdrop hh
  | reset => exact hP.reset _ hdrop
  | pass => exact hdrop
  | illegal v => exact hP.error .nop { code := .illegalCommand, info := v.toNat } _ (by simp) hdrop
  | command i _ _ hx =>
    obtain ⟨u, d, hu, rfl⟩ | ⟨r, d, hr, rfl⟩ := exec_cases hx
    · exact noteReads_elim d _ (hP.unwritten _ d) (hP.success i _ u hdrop hu)
    · exact noteReads_elim d _ (hP.unwritten _ d) (hP.error i r _ hr hdrop)

/-! ### What the table and stream commands leave alone (30_encoding.md R81) -/

/-- The commands that touch no archive session and no error field. -/
def coderCommands : List Instr := [.nop, .freq, .build, .codegen, .encode, .compress, .dinv, .decode]

/-- The parameters, the fault record, the error fields, the sessions and the container stay. -/
structure KeepsSession (s t : State) : Prop where
  params : t.params = s.params
  faults : t.faults = s.faults
  err : t.status.err = s.status.err
  errcode : t.status.errcode = s.status.errcode
  errInfo : t.errInfo = s.errInfo
  aw : t.status.aw = s.status.aw
  ar : t.status.ar = s.status.ar
  arcLen : t.arcLen = s.arcLen
  arcbuf : t.arcbuf = s.arcbuf
  arcCur : t.arcCur = s.arcCur
  recCount : t.recCount = s.recCount
  recRemain : t.recRemain = s.recRemain

theorem KeepsSession.refl (s : State) : KeepsSession s s := by constructor <;> rfl

theorem KeepsSession.trans {s t u : State} (h : KeepsSession s t) (k : KeepsSession t u) : KeepsSession s u where
  params := k.params.trans h.params
  faults := k.faults.trans h.faults
  err := k.err.trans h.err
  errcode := k.errcode.trans h.errcode
  errInfo := k.errInfo.trans h.errInfo
  aw := k.aw.trans h.aw
  ar := k.ar.trans h.ar
  arcLen := k.arcLen.trans h.arcLen
  arcbuf := k.arcbuf.trans h.arcbuf
  arcCur := k.arcCur.trans h.arcCur
  recCount := k.recCount.trans h.recCount
  recRemain := k.recRemain.trans h.recRemain

section
variable {s t : State}

theorem FreqEffect.keepsSession (h : FreqEffect s t) : KeepsSession s t := by
  obtain ⟨_, _, _, rfl⟩ := h
  constructor <;> rfl

theorem BuildEffect.keepsSession (h : BuildEffect s t) : KeepsSession s t := by
  obtain ⟨_, _, _, _, _, _, rfl⟩ := h
  constructor <;> rfl

theorem CodegenEffect.keepsSession (h : CodegenEffect s t) : KeepsSession s t := by
  obtain ⟨_, _, rfl, _⟩ := h
  constructor <;> rfl

theorem EncodeEffect.keepsSession (h : EncodeEffect s t) : KeepsSession s t := by
  obtain ⟨_, _, rfl⟩ := h
  constructor <;> rfl

theorem emptyBody_keepsSession (s : State) : KeepsSession s (emptyBody s) := by constructor <;> rfl

theorem CompressEffect.keepsSession (h : CompressEffect s t) : KeepsSession s t := by
  obtain ⟨s1, hf, ⟨_, rfl⟩ | ⟨_, s2, s3, hb, hc, he⟩⟩ := h
  · exact hf.keepsSession.trans (emptyBody_keepsSession s1)
  · exact hf.keepsSession.trans (hb.keepsSession.trans (hc.keepsSession.trans he.keepsSession))

theorem InvertEffect.keepsSession (h : InvertEffect s t) : KeepsSession s t := by
  obtain ⟨_, _, _, rfl⟩ := h
  constructor <;> rfl

theorem DecodeEffect.keepsSession (h : DecodeEffect s t) : KeepsSession s t := by
  obtain ⟨_, _, rfl⟩ := h
  constructor <;> rfl

theorem Effect.keepsSession {i : Instr} (h : Effect i s t) (hi : i ∈ coderCommands) : KeepsSession s t := by
  cases i
  case nop => exact h ▸ KeepsSession.refl s
  case freq => exact FreqEffect.keepsSession h
  case build => exact BuildEffect.keepsSession h
  case codegen => exact CodegenEffect.keepsSession h.2
  case encode => exact EncodeEffect.keepsSession h
  case compress => exact CompressEffect.keepsSession h
  case dinv => exact InvertEffect.keepsSession h
  case decode => exact DecodeEffect.keepsSession h
  all_goals exact absurd hi (by decide)

end

end Sys2Proof.Machine
end

section
/-! SUPPORT. STATUS (10_state.md R26 to R29, R34): every step keeps it legal. -/

namespace Sys2Proof.Machine

/-- What `State.statusLegal` asks of the error fields and of the sessions, BUSY and DONE apart. -/
def State.errorLegal (s : State) : Prop :=
  (s.status.err = true ↔ s.status.errcode ≠ .noError) ∧ (s.status.err = false → s.errInfo = 0) ∧
  (s.status.aw = .idle ∨ s.status.ar = .idle)

theorem State.statusLegal.errorLegal {s : State} (h : s.statusLegal) : s.errorLegal := by
  obtain ⟨_, herr, _, hinfo, hsessions⟩ := h
  exact ⟨herr, hinfo, hsessions⟩

/-- Success completion sets DONE and clears BUSY, which makes STATUS legal as a whole (60_exceptions.md R254). -/
theorem State.errorLegal.successCompletion {s : State} (h : s.errorLegal) : (successCompletion s).statusLegal := by
  obtain ⟨herr, hinfo, hsessions⟩ := h
  exact ⟨nofun, herr, fun _ => rfl, hinfo, hsessions⟩

/-- Error completion sets ERR with a code, and closes both sessions (60_exceptions.md R253). -/
theorem errorCompletion_statusLegal (ds : List Dest) {r : Raise} (hr : r.code ≠ .noError) (s : State) :
    (errorCompletion ds r s).statusLegal := by
  obtain ⟨_, _, _, _, h⟩ := errorCompletion_status ds r s
  simp [State.statusLegal, h, hr]

section
variable {s t : State} (h : s.errorLegal)
include h

theorem KeepsSession.errorLegal (k : KeepsSession s t) : t.errorLegal := by
  unfold State.errorLegal at h ⊢
  rwa [k.err, k.errcode, k.errInfo, k.aw, k.ar]

theorem ArrecEffect.errorLegal (he : ArrecEffect s t) : t.errorLegal := by
  obtain ⟨_, _, _, _, _, _, _, rfl⟩ := he
  exact h

theorem Effect.errorLegal {i : Instr} (he : Effect i s t) : t.errorLegal := by
  obtain ⟨herr, hinfo, hsessions⟩ := h
  cases i
  case nop | freq | build | codegen | encode | compress | dinv | decode =>
    exact (he.keepsSession (by decide)).errorLegal ⟨herr, hinfo, hsessions⟩
  case reset =>
    subst he
    exact ⟨by simp [softReset, State.resetWith, Status.reset], fun _ => rfl, .inl rfl⟩
  case abort =>
    subst he
    exact ⟨herr, hinfo, .inl rfl⟩
  case awbegin =>
    obtain ⟨_, har, rfl⟩ := he
    exact ⟨herr, hinfo, .inr har⟩
  case awrec =>
    obtain ⟨_, _, _, rfl⟩ := he
    exact ⟨herr, hinfo, hsessions⟩
  case awend =>
    obtain ⟨_, rfl⟩ := he
    exact ⟨herr, hinfo, .inl rfl⟩
  case arbegin =>
    obtain ⟨_, haw, _, _, _, rfl⟩ := he
    exact ⟨herr, hinfo, .inl haw⟩
  case arrec => exact ArrecEffect.errorLegal ⟨herr, hinfo, hsessions⟩ he
  case arend =>
    obtain ⟨_, _, _, rfl⟩ := he
    exact ⟨herr, hinfo, .inr rfl⟩
  case extract =>
    obtain ⟨u, hu, hd⟩ := he
    exact hd.keepsSession.errorLegal (hu.errorLegal ⟨herr, hinfo, hsessions⟩)

end

theorem HostEffect.statusLegal {s t : State} (h : s.statusLegal) (he : HostEffect s t) : t.statusLegal := by
  induction he with
  | busyWrite _ _ _ ih => exact ih
  | issued v =>
    obtain ⟨_, _, _, _, hsessions⟩ := h
    exact ⟨fun _ => ⟨rfl, rfl⟩, by simp [Status.issued], nofun, fun _ => rfl, hsessions⟩
  | seen | inLen | nameLen | payLen | arcLen | inbuf | namebuf | paybuf | arcbuf => exact h

theorem statusLegal_invariant : Invariant State.statusLegal where
  drop _ h := h
  unwritten _ _ h := h
  host _ _ h he := he.statusLegal h
  reset _ _ := by simp [State.statusLegal, State.resetWith, Status.reset]
  success _ _ _ h he := (he.errorLegal h.errorLegal).successCompletion
  error i _ s hr _ := errorCompletion_statusLegal (destinations i) hr s

/-- Settles O54: STATUS is an invariant of every piece of a step. -/
theorem stepKeepsStatusLegal : Obligations.StepKeepsStatusLegal := by
  unfold Obligations.StepKeepsStatusLegal
  exact fun _ _ h hs => statusLegal_invariant.step h hs

end Sys2Proof.Machine
end

section
/-! SUPPORT. The parameters and the fault record (10_state.md R35, R45): no step changes the one or takes from the other. -/

namespace Sys2Proof.Machine

/-- A state of the same block, with every fault of `s` still on record. -/
structure ConstantsKept (s t : State) : Prop where
  params : t.params = s.params
  unwrittenRead : s.faults.unwrittenRead = true → t.faults.unwrittenRead = true
  hostBusyAccess : s.faults.hostBusyAccess = true → t.faults.hostBusyAccess = true
  cmdWhileBusy : s.faults.cmdWhileBusy = true → t.faults.cmdWhileBusy = true

theorem ConstantsKept.of_eq {s t : State} (hp : t.params = s.params) (hf : t.faults = s.faults) : ConstantsKept s t :=
  ⟨hp, fun h => by rw [hf, h], fun h => by rw [hf, h], fun h => by rw [hf, h]⟩

theorem ConstantsKept.trans {s t u : State} (h : ConstantsKept s t) (k : ConstantsKept t u) : ConstantsKept s u where
  params := k.params.trans h.params
  unwrittenRead hf := k.unwrittenRead (h.unwrittenRead hf)
  hostBusyAccess hf := k.hostBusyAccess (h.hostBusyAccess hf)
  cmdWhileBusy hf := k.cmdWhileBusy (h.cmdWhileBusy hf)

theorem ArrecEffect.constants {s t : State} (h : ArrecEffect s t) : t.params = s.params ∧ t.faults = s.faults := by
  obtain ⟨_, _, _, _, _, _, _, rfl⟩ := h
  exact ⟨rfl, rfl⟩

/-- No command's pseudocode writes the parameters or the fault record (30_encoding.md R81). -/
theorem Effect.constants {i : Instr} {s t : State} (h : Effect i s t) : t.params = s.params ∧ t.faults = s.faults := by
  cases i
  case nop | freq | build | codegen | encode | compress | dinv | decode =>
    have k := h.keepsSession (by decide)
    exact ⟨k.params, k.faults⟩
  case reset =>
    subst h
    exact ⟨rfl, rfl⟩
  case abort =>
    subst h
    exact ⟨rfl, rfl⟩
  case awbegin =>
    obtain ⟨_, _, rfl⟩ := h
    exact ⟨rfl, rfl⟩
  case awrec =>
    obtain ⟨_, _, _, rfl⟩ := h
    exact ⟨rfl, rfl⟩
  case awend =>
    obtain ⟨_, rfl⟩ := h
    exact ⟨rfl, rfl⟩
  case arbegin =>
    obtain ⟨_, _, _, _, _, rfl⟩ := h
    exact ⟨rfl, rfl⟩
  case arrec => exact ArrecEffect.constants h
  case arend =>
    obtain ⟨_, _, _, rfl⟩ := h
    exact ⟨rfl, rfl⟩
  case extract =>
    obtain ⟨u, hu, hd⟩ := h
    have k := hd.keepsSession
    exact ⟨k.params.trans hu.constants.1, k.faults.trans hu.constants.2⟩

theorem HostEffect.constantsKept {s t : State} (h : HostEffect s t) : ConstantsKept s t := by
  induction h with
  | seen _ _ u h c => exact ⟨rfl, fun hf => by simp [hf], fun hf => by simp [hf], fun hf => by simp [hf]⟩
  | busyWrite _ _ _ ih => exact ⟨ih.params, ih.unwrittenRead, fun _ => rfl, ih.cmdWhileBusy⟩
  | issued | inLen | nameLen | payLen | arcLen | inbuf | namebuf | paybuf | arcbuf => exact .of_eq rfl rfl

/-- For a step from `s` on: to have its parameters and its faults is an invariant. -/
theorem constantsKept_invariant (s : State) : Invariant (ConstantsKept s) where
  drop _ h := h.trans (.of_eq rfl rfl)
  unwritten _ _ h := ⟨h.params, fun _ => rfl, h.hostBusyAccess, h.cmdWhileBusy⟩
  host _ _ h he := h.trans he.constantsKept
  reset _ h := h.trans (.of_eq rfl rfl)
  success _ _ _ h he := h.trans (.of_eq he.constants.1 he.constants.2)
  error _ _ _ _ h := by
    obtain ⟨hparams, hfaults, _⟩ := errorCompletion_frame _ _ _
    exact h.trans (.of_eq hparams hfaults)

/-- Settles O58: what the first state of the step has is kept by every piece of it. -/
theorem constantsStayAndFaultsAreKept : Obligations.ConstantsStayAndFaultsAreKept := by
  unfold Obligations.ConstantsStayAndFaultsAreKept
  intro s t hs
  have k := (constantsKept_invariant s).step (.of_eq rfl rfl) hs
  exact ⟨k.params, k.unwrittenRead, k.hostBusyAccess, k.cmdWhileBusy⟩

end Sys2Proof.Machine
end

section
/-! SUPPORT. An open session's container and cursor (10_state.md R29, R33, 20_memory.md R67, 42_archive.md R191): every step keeps them legal. -/

namespace Sys2Proof.Machine

theorem Params.eight_le_arcCap {p : Params} (h : Params.wf p = true) : 8 ≤ p.arcCap.toNat := by
  simp only [Params.wf, Bool.and_eq_true, capOk, decide_eq_true_eq] at h
  obtain ⟨_, h8, _⟩ := h
  exact h8

theorem sessions_idle_of_closed {t : Status} (h : t.sessionOpen = false) : t.aw = .idle ∧ t.ar = .idle := by
  obtain ⟨haw, har⟩ := Bool.or_eq_false_iff.1 h
  exact ⟨session_idle haw, session_idle har⟩

/-- With both sessions closed only the parameters count. -/
theorem sessionLegal_of_closed {s : State} (hp : Params.wf s.params = true) (haw : s.status.aw = .idle) (har : s.status.ar = .idle) :
    s.sessionLegal := ⟨hp, by simp [haw], by simp [har]⟩

/-- A write leaves no cell unwritten (00_scope.md R10). -/
theorem Cells.isSome_writeRange {α : Type} {c : Cells α} {i j : Nat} {vs : List α}
    (h : (Cells.get c j).isSome = true ∨ i ≤ j ∧ j < i + vs.length) : (Cells.get (Cells.writeRange c i vs) j).isSome = true := by
  rw [Cells.get_writeRange]
  split
  · rw [List.getElem?_eq_getElem (by omega)]
    rfl
  · exact h.resolve_right ‹_›

section
variable {s t : State} (h : s.sessionLegal)
include h

theorem KeepsSession.sessionLegal (k : KeepsSession s t) : t.sessionLegal := by
  unfold State.sessionLegal at h ⊢
  rwa [k.params, k.aw, k.ar, k.arcLen, k.arcbuf, k.arcCur, k.recCount, k.recRemain]

theorem AwbeginEffect.sessionLegal (he : AwbeginEffect s t) : t.sessionLegal := by
  obtain ⟨hp, _, _⟩ := h
  obtain ⟨_, har, rfl⟩ := he
  refine ⟨hp, fun _ => ⟨Nat.le_refl 8, Params.eight_le_arcCap hp, fun j hj => ?_⟩, by simp [har]⟩
  have hj : j < (toLE64 0).length := by
    rw [toLE64_length]
    exact hj
  rw [Cells.get_cellsFrom, if_pos (Nat.zero_le j), Nat.sub_zero, List.getElem?_eq_getElem hj]
  rfl

theorem AwrecEffect.sessionLegal (har : s.status.ar = .idle) (he : AwrecEffect s t) : t.sessionLegal := by
  obtain ⟨hp, hwrite, _⟩ := h
  obtain ⟨bs, haw, hfit, rfl⟩ := he
  obtain ⟨hheader, _, hcells⟩ := hwrite haw
  have hlen : (word (s.arcLen.toNat + bs.length)).toNat = s.arcLen.toNat + bs.length :=
    word_toNat (Nat.lt_of_le_of_lt hfit s.params.arcCap.isLt)
  refine ⟨hp, fun _ => ⟨?_, ?_, fun j hj => Cells.isSome_writeRange ?_⟩, by simp [har]⟩
  · rw [hlen]
    omega
  · rw [hlen]
    exact hfit
  · rw [hlen] at hj
    by_cases hold : j < s.arcLen.toNat
    · exact .inl (hcells j hold)
    · exact .inr (by omega)

theorem ArbeginEffect.sessionLegal (he : ArbeginEffect s t) : t.sessionLegal := by
  obtain ⟨hp, _, _⟩ := h
  obtain ⟨c, haw, _, hheader, hfit, rfl⟩ := he
  exact ⟨hp, by simp [haw], fun _ => ⟨Nat.le_refl 8, hheader, hfit, Nat.le_refl _⟩⟩

/-- ARREC moves the cursor forward inside the container, and counts one record off (42_archive.md R192). -/
theorem ArrecEffect.sessionLegal (he : ArrecEffect s t) : t.sessionLegal := by
  obtain ⟨hp, hwrite, hread⟩ := h
  obtain ⟨r, _, har, hremain, ⟨_, _, _, hq, hnext⟩, _, _, rfl⟩ := he
  obtain ⟨hheader, _, hfit, hcount⟩ := hread har
  have hcur : (word r.next).toNat = r.next := word_toNat (Nat.lt_of_le_of_lt hnext s.arcLen.isLt)
  refine ⟨hp, hwrite, fun _ => ⟨?_, ?_, hfit, ?_⟩⟩
  · rw [hcur]
    omega
  · rw [hcur]
    exact hnext
  · have hpos : 1 ≤ s.recRemain := by bv_omega
    rw [BitVec.toNat_sub_of_le hpos]
    exact (Nat.sub_le _ _).trans hcount

theorem Effect.sessionLegal (hsessions : s.status.aw = .idle ∨ s.status.ar = .idle) {i : Instr} (he : Effect i s t) :
    t.sessionLegal := by
  have ⟨hp, hwrite, hread⟩ := h
  cases i
  case nop | freq | build | codegen | encode | compress | dinv | decode => exact (he.keepsSession (by decide)).sessionLegal h
  case reset => exact he ▸ sessionLegal_of_closed hp rfl rfl
  case abort => exact he ▸ sessionLegal_of_closed hp rfl rfl
  case awbegin => exact AwbeginEffect.sessionLegal h he
  case awrec =>
    have ⟨_, haw, _⟩ := he
    exact AwrecEffect.sessionLegal h (hsessions.resolve_left (by simp [haw])) he
  case awend =>
    obtain ⟨_, rfl⟩ := he
    exact ⟨hp, nofun, hread⟩
  case arbegin => exact ArbeginEffect.sessionLegal h he
  case arrec => exact ArrecEffect.sessionLegal h he
  case arend =>
    obtain ⟨_, _, _, rfl⟩ := he
    exact ⟨hp, hwrite, nofun⟩
  case extract =>
    obtain ⟨u, hu, hd⟩ := he
    exact hd.keepsSession.sessionLegal (hu.sessionLegal h)

theorem HostEffect.sessionLegal (he : HostEffect s t) : t.sessionLegal := by
  have ⟨hp, _, _⟩ := h
  induction he with
  | busyWrite _ _ _ ih => exact ih
  | arcLen _ ho | arcbuf _ _ _ ho =>
    obtain ⟨haw, har⟩ := sessions_idle_of_closed ho
    exact sessionLegal_of_closed hp haw har
  | seen | issued | inLen | nameLen | payLen | inbuf | namebuf | paybuf => exact h

end

theorem errorCompletion_sessionLegal {s : State} (hp : Params.wf s.params = true) (ds : List Dest) (r : Raise) :
    (errorCompletion ds r s).sessionLegal := by
  obtain ⟨hparams, _⟩ := errorCompletion_frame ds r s
  obtain ⟨_, _, _, _, hstatus⟩ := errorCompletion_status ds r s
  exact sessionLegal_of_closed (hparams ▸ hp) (by rw [hstatus]) (by rw [hstatus])

/-- The two sessions exclude each other by `State.statusLegal`, which the invariant takes along. -/
theorem sessionLegal_invariant : Invariant fun s => s.statusLegal ∧ s.sessionLegal where
  drop _ h := h
  unwritten _ _ h := h
  host _ _ h he := ⟨he.statusLegal h.1, he.sessionLegal h.2⟩
  reset s h := by
    obtain ⟨hstatus, hp, _⟩ := h
    exact ⟨statusLegal_invariant.reset s hstatus, sessionLegal_of_closed hp rfl rfl⟩
  success i s u h he := by
    have ⟨_, _, hsessions⟩ := h.1.errorLegal
    have hu : u.sessionLegal := he.sessionLegal h.2 hsessions
    exact ⟨statusLegal_invariant.success i s u h.1 he, hu⟩
  error i r s hr h := by
    obtain ⟨hstatus, hp, _⟩ := h
    exact ⟨statusLegal_invariant.error i r s hr hstatus, errorCompletion_sessionLegal hp _ r⟩

/-- Settles O55: STATUS and the sessions together are an invariant of every piece of a step. -/
theorem stepKeepsSessionsLegal : Obligations.StepKeepsSessionsLegal := by
  unfold Obligations.StepKeepsSessionsLegal
  exact fun _ _ hstatus hsession hs => (sessionLegal_invariant.step ⟨hstatus, hsession⟩ hs).2

end Sys2Proof.Machine
end

section
/-! SUPPORT. The bounds of every buffer and table (10_state.md R36, R40 to R42): no piece of a step writes a cell outside. -/

namespace Sys2Proof.Machine

/-! ### Cells below a bound -/

section
variable {α : Type} {n : Nat}

theorem cellsFrom_below {vs : List α} (h : vs.length ≤ n) : ∀ e ∈ cellsFrom 0 vs, e.1 < n := by
  intro e he
  have := (mem_cellsFrom_bounds he).2
  omega

theorem writeRange_below {c : Cells α} {i : Nat} {vs : List α} (hc : ∀ e ∈ c, e.1 < n) (h : i + vs.length ≤ n) :
    ∀ e ∈ Cells.writeRange c i vs, e.1 < n := by
  intro e he
  rcases mem_writeRange he with hold | ⟨_, hnew⟩
  · exact hc e hold
  · omega

theorem nil_below : ∀ e ∈ ([] : Cells α), e.1 < n := nofun

end

/-! ### One rule per buffer or table: replacing it by one inside its bounds -/

section
variable {s : State} (h : s.inBounds)
include h

theorem State.inBounds.set_inbuf {c : Cells Byte} (hc : ∀ e ∈ c, e.1 < s.params.inCap.toNat) : { s with inbuf := c }.inBounds := by
  obtain ⟨hp, _, hname, hpay, hout, harc, hfreq, hnodes, hclen, hcbit⟩ := h
  exact ⟨hp, hc, hname, hpay, hout, harc, hfreq, hnodes, hclen, hcbit⟩

theorem State.inBounds.set_namebuf {c : Cells Byte} (hc : ∀ e ∈ c, e.1 < s.params.nameCap.toNat) : { s with namebuf := c }.inBounds := by
  obtain ⟨hp, hin, _, hpay, hout, harc, hfreq, hnodes, hclen, hcbit⟩ := h
  exact ⟨hp, hin, hc, hpay, hout, harc, hfreq, hnodes, hclen, hcbit⟩

theorem State.inBounds.set_paybuf {c : Cells Bool} (hc : ∀ e ∈ c, e.1 < s.params.payCap.toNat) : { s with paybuf := c }.inBounds := by
  obtain ⟨hp, hin, hname, _, hout, harc, hfreq, hnodes, hclen, hcbit⟩ := h
  exact ⟨hp, hin, hname, hc, hout, harc, hfreq, hnodes, hclen, hcbit⟩

theorem State.inBounds.set_outbuf {c : Cells Byte} (hc : ∀ e ∈ c, e.1 < s.params.outCap.toNat) : { s with outbuf := c }.inBounds := by
  obtain ⟨hp, hin, hname, hpay, _, harc, hfreq, hnodes, hclen, hcbit⟩ := h
  exact ⟨hp, hin, hname, hpay, hc, harc, hfreq, hnodes, hclen, hcbit⟩

theorem State.inBounds.set_arcbuf {c : Cells Byte} (hc : ∀ e ∈ c, e.1 < s.params.arcCap.toNat) : { s with arcbuf := c }.inBounds := by
  obtain ⟨hp, hin, hname, hpay, hout, _, hfreq, hnodes, hclen, hcbit⟩ := h
  exact ⟨hp, hin, hname, hpay, hout, hc, hfreq, hnodes, hclen, hcbit⟩

theorem State.inBounds.set_freq {c : Cells Word} (hc : ∀ e ∈ c, e.1 < Config.nsym) : { s with freq := c }.inBounds := by
  obtain ⟨hp, hin, hname, hpay, hout, harc, _, hnodes, hclen, hcbit⟩ := h
  exact ⟨hp, hin, hname, hpay, hout, harc, hc, hnodes, hclen, hcbit⟩

theorem State.inBounds.set_nodes {c : Cells Node} (hc : ∀ e ∈ c, e.1 < Config.nodeCap) : { s with nodes := c }.inBounds := by
  obtain ⟨hp, hin, hname, hpay, hout, harc, hfreq, _, hclen, hcbit⟩ := h
  exact ⟨hp, hin, hname, hpay, hout, harc, hfreq, hc, hclen, hcbit⟩

/-- CLEN and CBIT are written together, from a list of entries (10_state.md R42). -/
theorem State.inBounds.set_codes {ct : List (Byte × Code)} (hct : ∀ e ∈ ct, e.2.length ≤ 255) :
    { s with clen := clenOf ct, cbit := cbitOf ct }.inBounds := by
  obtain ⟨hp, hin, hname, hpay, hout, harc, hfreq, hnodes, _, _⟩ := h
  exact ⟨hp, hin, hname, hpay, hout, harc, hfreq, hnodes, fun _ he => mem_clenOf he, fun _ he => mem_cbitOf hct he⟩

theorem State.inBounds.clear_codes : { s with clen := [], cbit := [] }.inBounds := by
  obtain ⟨hp, hin, hname, hpay, hout, harc, hfreq, hnodes, _, _⟩ := h
  exact ⟨hp, hin, hname, hpay, hout, harc, hfreq, hnodes, nofun, nofun⟩

/-! ### Completions -/

theorem State.inBounds.clearDest (e : Dest) : (clearDest s e).inBounds := by
  cases e
  case inbuf => exact h.set_inbuf nil_below
  case namebuf => exact h.set_namebuf nil_below
  case paybuf => exact h.set_paybuf nil_below
  case outbuf => exact h.set_outbuf nil_below
  case arcbuf => exact h.set_arcbuf nil_below
  case freq => exact h.set_freq nil_below
  case nodes => exact h.set_nodes nil_below
  case ctab => exact h.clear_codes
  all_goals exact h

/-- Closing the sessions keeps the container or leaves it empty (43_control.md R233). -/
theorem State.inBounds.sessionsClosed : (sessionsClosed s).inBounds := by
  have ⟨_, _, _, _, _, harc, _⟩ := h
  refine h.set_arcbuf (c := if s.status.aw = .opened then [] else s.arcbuf) ?_
  split
  · exact nil_below
  · exact harc

theorem State.inBounds.errorCompletion (ds : List Dest) (r : Raise) : (errorCompletion ds r s).inBounds := by
  have hcleared : (clearedBy ds r s).inBounds := by
    unfold clearedBy
    split
    · exact h
    · exact List.foldlRecOn ds Machine.clearDest h fun _ hu e _ => hu.clearDest e
  rw [errorCompletion_eq]
  exact hcleared.sessionsClosed

end

theorem resetWith_inBounds {p : Params} (hp : Params.wf p = true) : (State.resetWith p).inBounds :=
  ⟨hp, nofun, nofun, nofun, nofun, nofun, nofun, nofun, nofun, nofun⟩

/-! ### Commands -/

section
variable {s t : State} (h : s.inBounds)
include h

theorem FreqEffect.inBounds (he : FreqEffect s t) : t.inBounds := by
  obtain ⟨fs, hlen, _, rfl⟩ := he
  exact h.set_freq (cellsFrom_below (by rw [List.length_map, hlen, Config.nsym]))

theorem BuildEffect.inBounds (he : BuildEffect s t) : t.inBounds := by
  obtain ⟨ns, _, _, hlen, _, _, rfl⟩ := he
  exact h.set_nodes (cellsFrom_below hlen)

theorem CodegenEffect.inBounds (he : CodegenEffect s t) : t.inBounds := by
  obtain ⟨_, hct, rfl, _⟩ := he
  exact h.set_codes hct

theorem EncodeEffect.inBounds (he : EncodeEffect s t) : t.inBounds := by
  obtain ⟨_, hlen, rfl⟩ := he
  exact h.set_paybuf (cellsFrom_below hlen)

theorem State.inBounds.emptyBody : (emptyBody s).inBounds := by
  have hcodes := (h.set_nodes nil_below).set_codes (ct := []) nofun
  rw [cbitOf_nil] at hcodes
  exact hcodes.set_paybuf nil_below

theorem CompressEffect.inBounds (he : CompressEffect s t) : t.inBounds := by
  obtain ⟨s1, hf, ⟨_, rfl⟩ | ⟨_, s2, s3, hb, hc, hp⟩⟩ := he
  · exact (hf.inBounds h).emptyBody
  · exact hp.inBounds (hc.inBounds (hb.inBounds (hf.inBounds h)))

theorem DecodeEffect.inBounds (he : DecodeEffect s t) : t.inBounds := by
  obtain ⟨_, hlen, rfl⟩ := he
  exact h.set_outbuf (cellsFrom_below hlen)

/-- A write that ends inside ARCBUF (42_archive.md R186, R188). -/
theorem State.inBounds.writeArcbuf {i : Nat} {bs : List Byte} (hfit : i + bs.length ≤ s.params.arcCap.toNat) :
    { s with arcbuf := Cells.writeRange s.arcbuf i bs }.inBounds := by
  have ⟨_, _, _, _, _, harc, _⟩ := h
  exact h.set_arcbuf (writeRange_below harc hfit)

/-- A field of eight bytes at the start of ARCBUF fits, whatever its capacity (00_scope.md R6). -/
theorem State.inBounds.header_fits (n : Nat) : 0 + (toLE64 n).length ≤ s.params.arcCap.toNat := by
  obtain ⟨hp, _⟩ := h
  rw [toLE64_length]
  exact Params.eight_le_arcCap hp

theorem ArrecEffect.inBounds (he : ArrecEffect s t) : t.inBounds := by
  obtain ⟨r, _, _, _, ⟨hname, hpay, ⟨hcodes, _⟩, _⟩, _, _, rfl⟩ := he
  exact ((h.set_namebuf (cellsFrom_below hname)).set_paybuf (cellsFrom_below hpay)).set_codes fun e he => (hcodes e he).2

theorem Effect.inBounds {i : Instr} (he : Effect i s t) : t.inBounds := by
  cases i
  case nop => exact he ▸ h
  case reset => exact he ▸ resetWith_inBounds h.1
  case abort => exact he ▸ h.sessionsClosed
  case freq => exact FreqEffect.inBounds h he
  case build => exact BuildEffect.inBounds h he
  case codegen => exact CodegenEffect.inBounds h he.2
  case encode => exact EncodeEffect.inBounds h he
  case compress => exact CompressEffect.inBounds h he
  case dinv =>
    obtain ⟨_, _, _, rfl⟩ := he
    exact h
  case decode => exact DecodeEffect.inBounds h he
  case awbegin =>
    obtain ⟨_, _, rfl⟩ := he
    exact h.set_arcbuf (cellsFrom_below (by simpa using h.header_fits 0))
  case awrec =>
    obtain ⟨_, _, hfit, rfl⟩ := he
    exact h.writeArcbuf hfit
  case awend =>
    obtain ⟨_, rfl⟩ := he
    exact h.writeArcbuf (h.header_fits _)
  case arbegin =>
    obtain ⟨_, _, _, _, _, rfl⟩ := he
    exact h
  case arrec => exact ArrecEffect.inBounds h he
  case arend =>
    obtain ⟨_, _, _, rfl⟩ := he
    exact h
  case extract =>
    obtain ⟨u, hu, hd⟩ := he
    exact hd.inBounds (hu.inBounds h)

theorem HostEffect.inBounds (he : HostEffect s t) : t.inBounds := by
  have ⟨_, hin, hname, hpay, _⟩ := h
  induction he with
  | busyWrite _ _ _ ih => exact ih
  | inbuf i y hi => exact h.set_inbuf (writeRange_below hin hi)
  | namebuf i y hi => exact h.set_namebuf (writeRange_below hname hi)
  | paybuf i b hi => exact h.set_paybuf (writeRange_below hpay hi)
  | arcbuf i y hi => exact h.writeArcbuf hi
  | seen | issued | inLen | nameLen | payLen | arcLen => exact h

end

theorem inBounds_invariant : Invariant State.inBounds where
  drop _ h := h
  unwritten _ _ h := h
  host _ _ h he := he.inBounds h
  reset _ h := resetWith_inBounds h.1
  success i s u h he := by
    have hu : u.inBounds := he.inBounds h
    exact hu
  error _ r _ _ h := h.errorCompletion _ r

/-- Settles O53: the bounds are an invariant of every piece of a step. -/
theorem stepKeepsCellsInBounds : Obligations.StepKeepsCellsInBounds := by
  unfold Obligations.StepKeepsCellsInBounds
  exact fun _ _ h hs => inBounds_invariant.step h hs

end Sys2Proof.Machine
end

section
/-! SUPPORT. The tables and their count registers (10_state.md R30, R32, R40 to R43): every piece of a step keeps them legal. -/

namespace Sys2Proof.Machine

/-! ### One rule per table: replacing it, its count register and its valid bit together -/

section
variable {s : State} (h : s.tablesLegal)
include h

theorem State.tablesLegal.set_freq {c : Cells Word} {n : Word} {v : Bool}
    (hv : v = true → ∀ sym, sym < 256 → (Cells.get c sym).isSome = true) (hn : n.toNat = (presentSymbols { s with freq := c }).length) :
    { s with freq := c, distinct := n, status := { s.status with freqV := v } }.tablesLegal := by
  obtain ⟨_, htree, hctab, hdtab, hempty, _, hnodes, hcodes⟩ := h
  exact ⟨hv, htree, hctab, hdtab, hempty, hn, hnodes, hcodes⟩

theorem State.tablesLegal.set_tree {c : Cells Node} {root n : Word} {v : Bool}
    (hv : v = true → ∃ tree : CodeTree, Represents c root.toNat tree ∧ tree.syms.Nodup)
    (hn : ∀ i, (Cells.get c i).isSome = true ↔ i < n.toNat) :
    { s with nodes := c, root := root, nodeCount := n, status := { s.status with treeV := v } }.tablesLegal := by
  obtain ⟨hfreq, _, hctab, hdtab, hempty, hdistinct, _, hcodes⟩ := h
  exact ⟨hfreq, hv, hctab, hdtab, hempty, hdistinct, hn, hcodes⟩

theorem State.tablesLegal.set_codes {ct : List (Byte × Code)} {n : Nat} (hlen : ∀ e ∈ ct, e.2.length ≤ 255)
    (hdiff : CodesDiffer (tableOf ct)) (hn : codeCountOf ct = n) : (s.withCodes ct n).tablesLegal := by
  obtain ⟨hfreq, htree, _, hdtab, hempty, hdistinct, hnodes, _⟩ := h
  have hcount : (word n).toNat = codeCountOf ct :=
    hn ▸ word_toNat (Nat.lt_of_le_of_lt (codeCountOf_le ct) (by decide))
  exact ⟨hfreq, htree, fun _ => ⟨tableOf ct, ctabExactly_of hlen rfl rfl, hdiff⟩, hdtab, hempty, hdistinct, hnodes,
    hcount.trans (codedSymbols_of hlen rfl).symm⟩

theorem State.tablesLegal.set_dtab {d : List (Code × Byte)} {v : Bool} (hv : v = true → DtabLegal d) (hempty : v = false → d = []) :
    { s with dtab := d, status := { s.status with dtabV := v } }.tablesLegal := by
  obtain ⟨hfreq, htree, hctab, _, _, hcounts⟩ := h
  exact ⟨hfreq, htree, hctab, hv, hempty, hcounts⟩

/-! ### Clearing a table with its count register (60_exceptions.md R253) -/

theorem State.tablesLegal.clear_freq : (clearDest (clearDest s .freq) .distinct).tablesLegal :=
  h.set_freq nofun (by rw [presentSymbols_nil rfl]; rfl)

theorem State.tablesLegal.clear_tree : (clearDest (clearDest (clearDest s .nodes) .nodeCount) .root).tablesLegal :=
  h.set_tree nofun fun _ => ⟨nofun, fun hi => absurd hi (Nat.not_lt_zero _)⟩

theorem State.tablesLegal.clear_codes : (clearDest (clearDest s .ctab) .codeCount).tablesLegal := by
  obtain ⟨hfreq, htree, _, hdtab, hempty, hdistinct, hnodes, _⟩ := h
  exact ⟨hfreq, htree, nofun, hdtab, hempty, hdistinct, hnodes, by rw [codedSymbols_nil rfl]; rfl⟩

theorem State.tablesLegal.clear_dtab : (clearDest s .dtab).tablesLegal := h.set_dtab nofun fun _ => rfl

/-- A buffer or a length register is no part of a table. -/
theorem State.tablesLegal.clear_buffer {e : Dest}
    (he : e ∈ [.inbuf, .inLen, .namebuf, .nameLen, .paybuf, .payLen, .outbuf, .outLen, .arcbuf, .arcLen]) :
    (clearDest s e).tablesLegal := by
  cases e
  case freq | nodes | ctab | dtab | distinct | nodeCount | root | codeCount => exact absurd he (by decide)
  all_goals exact h

theorem State.tablesLegal.clear_buffers {ds : List Dest}
    (hds : ∀ e ∈ ds, e ∈ [.inbuf, .inLen, .namebuf, .nameLen, .paybuf, .payLen, .outbuf, .outLen, .arcbuf, .arcLen]) :
    (ds.foldl clearDest s).tablesLegal := List.foldlRecOn ds clearDest h fun _ hu e he => hu.clear_buffer (hds e he)

/-- The destinations of a command take each table together with its count register (30_encoding.md R81). -/
theorem State.tablesLegal.clearDests (i : Instr) : ((destinations i).foldl clearDest s).tablesLegal := by
  cases i
  case nop | abort | encode | decode | awbegin | awrec | awend | arbegin | arend => exact h.clear_buffers (by decide)
  case freq => exact h.clear_freq
  case build => exact h.clear_tree
  case codegen => exact h.clear_codes
  case compress => exact h.clear_freq.clear_tree.clear_codes.clear_buffers (ds := [.paybuf, .payLen]) (by decide)
  case dinv => exact h.clear_dtab
  case arrec =>
    exact (h.clear_buffers (ds := [.namebuf, .nameLen, .paybuf, .payLen]) (by decide)).clear_codes.clear_dtab
  case extract =>
    exact (h.clear_buffers (ds := [.namebuf, .nameLen, .paybuf, .payLen]) (by decide)).clear_codes.clear_dtab.clear_buffers
      (ds := [.outbuf, .outLen]) (by decide)
  case reset =>
    exact (h.clear_buffers (ds := [.inbuf, .inLen, .namebuf, .nameLen, .paybuf, .payLen, .outbuf, .outLen, .arcbuf, .arcLen])
      fun _ he => he).clear_freq.clear_tree.clear_codes.clear_dtab

theorem State.tablesLegal.errorCompletion (i : Instr) (r : Raise) : (errorCompletion (destinations i) r s).tablesLegal := by
  have hcleared : (clearedBy (destinations i) r s).tablesLegal := by
    unfold clearedBy
    split
    · exact h
    · exact h.clearDests i
  rw [errorCompletion_eq]
  exact hcleared

end

theorem resetWith_tablesLegal (p : Params) : (State.resetWith p).tablesLegal :=
  ⟨nofun, nofun, nofun, nofun, fun _ => rfl, by rw [presentSymbols_nil rfl]; rfl, by simp [State.resetWith],
    by rw [codedSymbols_nil rfl]; rfl⟩

/-! ### What the commands write -/

/-- A run of cells from slot 0 fills as many slots as it has values. -/
theorem Cells.isSome_cellsFrom {α : Type} (vs : List α) (i : Nat) : (Cells.get (cellsFrom 0 vs) i).isSome = true ↔ i < vs.length := by
  simp [Cells.get_cellsFrom]

/-- The counts that FREQ writes, read back symbol by symbol (40_huffman.md R100). -/
theorem freqCount_cellsFrom {s : State} {fs : List Nat} (hlen : fs.length = 256) (hlt : ∀ n ∈ fs, n < 2 ^ 64)
    (hs : s.freq = cellsFrom 0 (fs.map word)) : symbols.map (freqCount s) = fs := by
  refine List.ext_getElem (by simp [symbols_length, hlen]) fun k _ hk => ?_
  have hword : (word fs[k]).toNat = fs[k] := word_toNat (hlt _ (List.getElem_mem hk))
  simpa [symbols, freqCount, hs, Cells.get_cellsFrom, hk] using hword

/-- DISTINCT counts the symbols with a count (10_state.md R32). -/
theorem presentSymbols_length {s : State} {fs : List Nat} (hlen : fs.length = 256) (hlt : ∀ n ∈ fs, n < 2 ^ 64)
    (hs : s.freq = cellsFrom 0 (fs.map word)) : (presentSymbols s).length = fs.countP fun n => 1 ≤ n := by
  rw [presentSymbols_eq, ← List.countP_eq_length_filter, ← freqCount_cellsFrom hlen hlt hs, List.countP_map]
  rfl

section
variable {s t : State} (h : s.tablesLegal)
include h

theorem FreqEffect.tablesLegal (he : FreqEffect s t) : t.tablesLegal := by
  obtain ⟨fs, hlen, hlt, rfl⟩ := he
  have hcount : (fs.countP fun n => 1 ≤ n) ≤ 256 := List.countP_le_length.trans_eq hlen
  refine h.set_freq (fun _ sym hsym => (Cells.isSome_cellsFrom _ sym).2 (by rwa [List.length_map, hlen])) ?_
  rw [presentSymbols_length hlen hlt rfl, word_toNat (Nat.lt_of_le_of_lt hcount (by decide))]

theorem BuildEffect.tablesLegal (he : BuildEffect s t) : t.tablesLegal := by
  obtain ⟨ns, root, tree, hlen, hrep, hsyms, rfl⟩ := he
  refine h.set_tree (fun _ => ⟨tree, hrep, hsyms⟩) fun i => ?_
  rw [Cells.isSome_cellsFrom, word_toNat (Nat.lt_of_le_of_lt hlen (by decide))]

/-- The tree that NODES holds where TREE_V = 1 gives codes that are apart (40_huffman.md R120, R123). -/
theorem CodegenEffect.tablesLegal (htree : s.status.treeV = true) (he : CodegenEffect s t) : t.tablesLegal := by
  have ⟨_, hvalid, _⟩ := h
  obtain ⟨tree, hrep, hsyms⟩ := hvalid htree
  obtain ⟨ct, hlen, rfl, hcodes⟩ := he
  rw [hcodes tree hrep hsyms] at hlen ⊢
  exact h.set_codes hlen (prefixFree_codesDiffer (codes_prefixFree tree)) rfl

theorem EncodeEffect.tablesLegal (he : EncodeEffect s t) : t.tablesLegal := by
  obtain ⟨_, _, rfl⟩ := he
  exact h

/-- The tables of an empty input (41_bitstream.md R151): no tree, and a table without codes. -/
theorem State.tablesLegal.emptyBody : (emptyBody s).tablesLegal := by
  have hcodes := h.clear_tree.set_codes (ct := []) nofun (codesDiffer_tableOf .nil) (codeCountOf_eq .nil (by simp))
  rw [State.withCodes, cbitOf_nil] at hcodes
  exact hcodes

theorem CompressEffect.tablesLegal (he : CompressEffect s t) : t.tablesLegal := by
  obtain ⟨s1, hf, ⟨_, rfl⟩ | ⟨_, s2, s3, hb, hc, hp⟩⟩ := he
  · exact (hf.tablesLegal h).emptyBody
  · have htree : s2.status.treeV = true := by
      obtain ⟨_, _, _, _, _, _, rfl⟩ := hb
      rfl
    exact hp.tablesLegal (hc.tablesLegal (hb.tablesLegal (hf.tablesLegal h)) htree)

theorem InvertEffect.tablesLegal (he : InvertEffect s t) : t.tablesLegal := by
  obtain ⟨_, _, hd, rfl⟩ := he
  exact h.set_dtab (fun _ => hd) nofun

theorem DecodeEffect.tablesLegal (he : DecodeEffect s t) : t.tablesLegal := by
  obtain ⟨_, _, rfl⟩ := he
  exact h

/-- A record's table has no symbol and no code twice (42_archive.md R197), so that it has as many codes as entries. -/
theorem ArrecEffect.tablesLegal (he : ArrecEffect s t) : t.tablesLegal := by
  obtain ⟨r, d, _, _, ⟨_, _, ⟨hcodes, hsyms, hdistinct⟩, _⟩, _, hd, rfl⟩ := he
  have hcount : codeCountOf r.codes = r.codes.length := codeCountOf_eq hsyms fun e he => (hcodes e he).1
  exact (h.set_codes (fun e he => (hcodes e he).2) (codesDiffer_tableOf hdistinct) hcount).set_dtab (v := true) (fun _ => hd) nofun

theorem Effect.tablesLegal {i : Instr} (he : Effect i s t) : t.tablesLegal := by
  cases i
  case nop => exact he ▸ h
  case reset => exact he ▸ resetWith_tablesLegal s.params
  case abort => exact he ▸ h
  case freq => exact FreqEffect.tablesLegal h he
  case build => exact BuildEffect.tablesLegal h he
  case codegen =>
    obtain ⟨htree, hc⟩ := he
    exact hc.tablesLegal h htree
  case encode => exact EncodeEffect.tablesLegal h he
  case compress => exact CompressEffect.tablesLegal h he
  case dinv => exact InvertEffect.tablesLegal h he
  case decode => exact DecodeEffect.tablesLegal h he
  case awbegin =>
    obtain ⟨_, _, rfl⟩ := he
    exact h
  case awrec =>
    obtain ⟨_, _, _, rfl⟩ := he
    exact h
  case awend =>
    obtain ⟨_, rfl⟩ := he
    exact h
  case arbegin =>
    obtain ⟨_, _, _, _, _, rfl⟩ := he
    exact h
  case arrec => exact ArrecEffect.tablesLegal h he
  case arend =>
    obtain ⟨_, _, _, rfl⟩ := he
    exact h
  case extract =>
    obtain ⟨u, hu, hd⟩ := he
    exact hd.tablesLegal (hu.tablesLegal h)

/-- The HOST writes no table (20_memory.md R61). -/
theorem HostEffect.tablesLegal (he : HostEffect s t) : t.tablesLegal := by
  induction he with
  | busyWrite _ _ _ ih => exact ih
  | seen | issued | inLen | nameLen | payLen | arcLen | inbuf | namebuf | paybuf | arcbuf => exact h

end

theorem tablesLegal_invariant : Invariant State.tablesLegal where
  drop _ h := h
  unwritten _ _ h := h
  host _ _ h he := he.tablesLegal h
  reset s _ := resetWith_tablesLegal s.params
  success i s u h he := by
    have hu : u.tablesLegal := he.tablesLegal h
    exact hu
  error i r _ _ h := h.errorCompletion i r

/-- Settles O56: the tables and their counts are an invariant of every piece of a step. -/
theorem stepKeepsTablesLegal : Obligations.StepKeepsTablesLegal := by
  unfold Obligations.StepKeepsTablesLegal
  exact fun _ _ h hs => tablesLegal_invariant.step h hs

end Sys2Proof.Machine
end

section
/-! SUPPORT. The errors that a length register, a container field or an empty table of counts raises (10_state.md R22, 60_exceptions.md R252). -/

namespace Sys2Proof.Machine

/-- A command whose pseudocode ends in `raise e(info)` completes in that error (60_exceptions.md R253). -/
theorem exec_raises {i : Instr} {s : State} {e : ErrCode} {n : Nat} (h : (bodyOf i s).Raises e n) :
    exec i s = .next (errorCompletion (destinations i) { code := e, info := n } s) := (exec_eq_run i s).trans (exec_error h)

/-- A number above its bound fails the check. -/
theorem capacityIf_above {cap n : Nat} {k : CapDetail} (h : cap < n) : (capacityIf (cap < n) k).Raises .capacity k.number :=
  capacityIf_raises (by simpa using h)

/-- A number within its bound passes the check. -/
theorem capacityIf_within {cap n : Nat} {k : CapDetail} (h : n ≤ cap) : (capacityIf (cap < n) k).Gives () :=
  capacityIf_gives (by simpa using h)

theorem needCtab_gives {s : State} (h : s.status.ctabV = true) : (needCtab s).Gives () := sequenceIf_gives (by simp [h])

theorem needDtab_gives {s : State} (h : s.status.dtabV = true) : (needDtab s).Gives () := sequenceIf_gives (by simp [h])

theorem needFreq_gives {s : State} (h : s.status.freqV = true) : (needFreq s).Gives () := sequenceIf_gives (by simp [h])

/-! ### A record whose name or payload its buffer cannot hold (42_archive.md R193) -/

section
variable {s : State} {q nl pl : Nat} {name : List Byte}

theorem parseRecord_nameCap (hcap : s.params.nameCap.toNat < nl) (hnl : nl < 2 ^ 64)
    (hfield : Cells.holds s.arcbuf q (toLE64 nl)) (hend : q + 8 + nl ≤ s.arcLen.toNat) : (parseRecord s q).Raises .capacity 4 :=
  (lengthField_gives hfield hnl (by omega)).andThen_raises
    ((need_gives hend).andThen_raises (Eng.Raises.andThen (capacityIf_above (k := .namebuf) hcap)))

theorem parseRecord_payCap (hname : name.length ≤ s.params.nameCap.toNat) (hcap : s.params.payCap.toNat < pl) (hpl : pl < 2 ^ 64)
    (hfields : Cells.holds s.arcbuf q (toLE64 name.length ++ name ++ toLE64 pl))
    (hend : q + 16 + name.length + pl ≤ s.arcLen.toNat) : (parseRecord s q).Raises .capacity 5 := by
  obtain ⟨hfront, hpay⟩ := Cells.holds_append.1 hfields
  obtain ⟨hlen, hbytes⟩ := Cells.holds_append.1 hfront
  rw [List.length_append, toLE64_length, ← Nat.add_assoc] at hpay
  rw [toLE64_length] at hbytes
  have hlt : name.length < 2 ^ 64 := Nat.lt_of_le_of_lt hname s.params.nameCap.isLt
  exact (lengthField_gives hlen hlt (by omega)).andThen_raises ((need_gives (by omega)).andThen_raises
    ((capacityIf_within hname).andThen_raises ((memReads_gives hbytes).andThen_raises
      ((lengthField_gives hpay hpl (by omega)).andThen_raises ((need_gives (by omega)).andThen_raises
        (Eng.Raises.andThen (capacityIf_above (k := .paybuf) hcap)))))))

/-- ARREC and EXTRACT end in the error of the record that they parse (42_archive.md R192, R201). -/
theorem exec_raises_of_parse {i : Instr} {e : ErrCode} {n : Nat} (hi : i = .arrec ∨ i = .extract) (hopen : s.status.ar = .opened)
    (hremain : s.recRemain ≠ 0) (h : (parseRecord s s.arcCur.toNat).Raises e n) :
    exec i s = .next (errorCompletion (destinations i) { code := e, info := n } s) := by
  have harrec : (arrecBody s).Raises e n := by
    rw [arrecBody_open hopen hremain]
    exact h.andThen
  rcases hi with rfl | rfl
  · exact exec_raises (i := .arrec) harrec
  · exact exec_raises (i := .extract) harrec.andThen

end

/-! ### BUILD over counts that are all 0 (40_huffman.md R110) -/

theorem leavesFrom_zeros (n sym : Nat) : leavesFrom sym (List.replicate n 0) = [] := by
  induction n generalizing sym with
  | zero => rfl
  | succ n ih => exact ih (sym + 1)

theorem buildBody_zeros {s : State} (h : ∀ sym, sym < 256 → Cells.get s.freq sym = some 0) : (buildBody s).Raises .emptyInput 0 := by
  have hread : (readFreq s).Gives (List.replicate 256 0) := readFreq_gives List.length_replicate fun j hj => by
    rw [List.getElem_replicate, Nat.zero_add]
    exact h j (hj.trans_eq List.length_replicate)
  refine hread.andThen_raises (Eng.Raises.andThen (Eng.raiseIf_raises _ _ ?_))
  rw [leavesFrom_zeros]
  rfl

/-- Settles O11: the first failing check of each command, after checks that pass. -/
theorem capacityAndEmptyInputErrors : Obligations.CapacityAndEmptyInputErrors := by
  unfold Obligations.CapacityAndEmptyInputErrors
  intro fails s
  refine ⟨fun hin => ⟨?_, ?_, fun hctab => ?_⟩, fun hpay hdtab => ?_, fun hopen hctab hname => ?_,
    fun hopen hctab hname hpay => ?_, fun har haw harc => ?_, fun i hi hopen hremain => ⟨fun nl hcap hnl hfield hend => ?_,
      fun name pl hname hcap hpl hfields hend => ?_⟩, fun hfreq hzero => ?_⟩
  · exact exec_raises (i := .freq) (Eng.Raises.andThen (capacityIf_above (k := .inbuf) hin))
  · exact exec_raises (i := .compress) (Eng.Raises.andThen (capacityIf_above (k := .inbuf) hin))
  · exact exec_raises (i := .encode) ((needCtab_gives hctab).andThen_raises (Eng.Raises.andThen (capacityIf_above (k := .inbuf) hin)))
  · exact exec_raises (i := .decode) ((needDtab_gives hdtab).andThen_raises (Eng.Raises.andThen (capacityIf_above (k := .paybuf) hpay)))
  · exact exec_raises (i := .awrec) ((sequenceIf_gives (by simp [hopen])).andThen_raises ((needCtab_gives hctab).andThen_raises
      (Eng.Raises.andThen (capacityIf_above (k := .namebuf) hname))))
  · exact exec_raises (i := .awrec) ((sequenceIf_gives (by simp [hopen])).andThen_raises ((needCtab_gives hctab).andThen_raises
      ((capacityIf_within hname).andThen_raises (Eng.Raises.andThen (capacityIf_above (k := .paybuf) hpay)))))
  · exact exec_raises (i := .arbegin) ((sequenceIf_gives (by simp [har])).andThen_raises ((sequenceIf_gives (by simp [haw])).andThen_raises
      (Eng.Raises.andThen (capacityIf_above (k := .arcbuf) harc))))
  · exact exec_raises_of_parse hi hopen hremain (parseRecord_nameCap hcap hnl hfield hend)
  · exact exec_raises_of_parse hi hopen hremain (parseRecord_payCap hname hcap hpl hfields hend)
  · exact exec_raises (i := .build) ((needFreq_gives hfreq).andThen_raises (buildBody_zeros hzero))

end Sys2Proof.Machine
end

section
/-! SUPPORT. STATUS as the HOST reads it (10_state.md R26, 60_exceptions.md R251). -/

namespace Sys2Proof.Machine

theorem ErrCode.number_lt (e : ErrCode) : e.number < 8 := by cases e <;> decide

theorem Session.number_lt (x : Session) : x.number < 2 := by cases x <;> decide

/-- The value of STATUS: each field is a digit string of its width at its place. -/
theorem toWord_eq (t : Status) : t.toWord = word (t.busy.toNat + 2 * t.done.toNat + 4 * t.err.toNat + 256 * t.errcode.number
    + 65536 * t.aw.number + 262144 * t.ar.number + 16777216 * t.freqV.toNat + 33554432 * t.treeV.toNat + 67108864 * t.ctabV.toNat
    + 134217728 * t.dtabV.toNat + 4294967296 * t.lastOpc.toNat) := by
  simp only [Status.toWord, flagAt_eq]
  congr 1
  omega

theorem word_extract_zero {n a w : Nat} (hk : a + w ≤ 64) (h : n / 2 ^ a % 2 ^ w = 0) : (word n).extractLsb' a w = 0 :=
  BitVec.eq_of_toNat_eq (by rw [word_extract hk, h]; rfl)

/-- Settles O12: each field is a digit of the value, and every place that is not listed holds the digit 0. -/
theorem statusWordLayout : Obligations.StatusWordLayout := by
  unfold Obligations.StatusWordLayout
  intro t w
  obtain ⟨n, hn⟩ : ∃ n, n = _ := ⟨_, rfl⟩
  have hw : w = word n := (toWord_eq t).trans (congrArg word hn.symm)
  have hcode := t.errcode.number_lt
  have haw := t.aw.number_lt
  have har := t.ar.number_lt
  have hopc := t.lastOpc.isLt
  have hbusy := t.busy.toNat_lt
  have hdone := t.done.toNat_lt
  have herr := t.err.toNat_lt
  have hfreq := t.freqV.toNat_lt
  have htree := t.treeV.toNat_lt
  have hctab := t.ctabV.toNat_lt
  have hdtab := t.dtabV.toNat_lt
  have hcodeDigit : n / 2 ^ 8 % 2 ^ 4 = t.errcode.number := by omega
  have hawDigit : n / 2 ^ 16 % 2 ^ 2 = t.aw.number := by omega
  have harDigit : n / 2 ^ 18 % 2 ^ 2 = t.ar.number := by omega
  have hopcDigit : n / 2 ^ 32 % 2 ^ 8 = t.lastOpc.toNat := by omega
  rw [hw]
  exact ⟨word_getLsbD (by decide) (by omega), word_getLsbD (by decide) (by omega), word_getLsbD (by decide) (by omega),
    word_extract_zero (by decide) (by omega), (word_extract (by decide)).trans hcodeDigit, word_extract_zero (by decide) (by omega),
    (word_extract (by decide)).trans hawDigit, (word_extract (by decide)).trans harDigit, word_extract_zero (by decide) (by omega),
    word_getLsbD (by decide) (by omega), word_getLsbD (by decide) (by omega), word_getLsbD (by decide) (by omega),
    word_getLsbD (by decide) (by omega), word_extract_zero (by decide) (by omega),
    BitVec.eq_of_toNat_eq ((word_extract (by decide)).trans hopcDigit), word_extract_zero (by decide) (by omega)⟩

end Sys2Proof.Machine
end

section
/-! SUPPORT. Host accesses to the registers (10_state.md R21, R22, 20_memory.md R62, R67), and accesses while BUSY = 1
(70_reset_and_hazards.md R300, R301). -/

namespace Sys2Proof.Machine

/-! ### BUSY = 0 -/

theorem hostAccess_readReg {s : State} (hb : s.status.busy = false) {r : Nat} (hr : r < 2 ^ 56) :
    hostAccess (.read (hostAddr 0 r)) s = { s with observed := s.observed ++ [regRead s r] } :=
  hostAccess_read hb (hostRead_hostAddr s (by decide) hr)

theorem hostAccess_writeReg {s : State} (hb : s.status.busy = false) {r : Nat} (hr : r < 2 ^ 56) (d : Word) :
    hostAccess (.write (hostAddr 0 r) d) s = regWrite r d s := by
  rw [hostAccess_write hb, hostWrite_hostAddr s d (by decide) hr]
  rfl

/-- Settles O13: a read returns what the register holds, and no register lies above r20. -/
theorem registerReads : Obligations.RegisterReads := by
  unfold Obligations.RegisterReads
  intro s hb reads
  have named : ∀ r, r < 32 → reads r (regRead s r) := fun r hr => hostAccess_readReg hb (reg_lt hr)
  refine ⟨named 0 ?_, named 1 ?_, named 2 ?_, named 3 ?_, named 4 ?_, named 5 ?_, named 6 ?_, named 7 ?_, named 8 ?_, named 9 ?_,
    named 10 ?_, named 11 ?_, named 12 ?_, named 13 ?_, named 14 ?_, named 15 ?_, named 16 ?_, named 17 ?_, named 18 ?_, named 19 ?_,
    named 20 ?_, fun r hlow hhigh => ?_⟩
  case refine_22 =>
    rw [← regRead_high s hlow]
    exact hostAccess_readReg hb hhigh
  all_goals decide

/-- ARC_LEN is locked while a session is open (20_memory.md R67). -/
theorem regWrite_arcLen (s : State) (d : Word) : regWrite 7 d s = if s.status.sessionOpen then s else { s with arcLen := d } := rfl

theorem regWrite_ignored {r : Nat} (d : Word) (s : State) (h1 : r ≠ 1) (h3 : r ≠ 3) (h4 : r ≠ 4) (h5 : r ≠ 5) (h7 : r ≠ 7) :
    regWrite r d s = s := by
  unfold regWrite
  split
  · exact absurd rfl h1
  · exact absurd rfl h3
  · exact absurd rfl h4
  · exact absurd rfl h5
  · exact absurd rfl h7
  · rfl

/-- Settles O14: a write to a register while BUSY = 0 is `regWrite`. -/
theorem registerWrites : Obligations.RegisterWrites := by
  unfold Obligations.RegisterWrites
  intro s d hb writes
  have write : ∀ r, r < 2 ^ 56 → writes r (regWrite r d s) := fun r hr => hostAccess_writeReg hb hr d
  have locked := regWrite_arcLen s d
  refine ⟨write 3 (by decide), write 4 (by decide), write 5 (by decide), fun haw har => ?_, fun hopen => ?_,
    fun r hr h1 h3 h4 h5 h7 => ?_⟩
  · rw [sessionOpen_false haw har, if_neg Bool.false_ne_true] at locked
    exact locked ▸ write 7 (by decide)
  · rw [sessionOpen_true hopen, if_pos rfl] at locked
    exact (write 7 (by decide)).trans locked
  · exact (write r hr).trans (regWrite_ignored d s h1 h3 h4 h5 h7)

/-! ### BUSY = 1 -/

/-- The registers whose reads are defined while BUSY = 1 (10_state.md R27). -/
theorem busyReadable_iff {a : Word} :
    busyReadable a = true ↔ ∃ r, (r = 0 ∨ r = 2 ∨ 16 ≤ r ∧ r ≤ 20) ∧ a = hostAddr 0 r := by
  simp only [busyReadable, Bool.and_eq_true, Bool.or_eq_true, beq_iff_eq, decide_eq_true_eq, or_assoc]
  constructor
  · rintro ⟨hspace, hindex⟩
    exact ⟨addrIndex a, hindex, by rw [← hspace, hostAddr_eta]⟩
  · rintro ⟨r, hr, rfl⟩
    have hlt : r < 2 ^ 56 := reg_lt (by omega)
    rw [addrSpace_hostAddr (by decide) hlt, addrIndex_hostAddr (by decide) hlt]
    exact ⟨rfl, hr⟩

theorem isCmd_iff {a : Word} : isCmd a = true ↔ a = hostAddr 0 1 := by
  simp only [isCmd, Bool.and_eq_true, beq_iff_eq]
  constructor
  · rintro ⟨hspace, hindex⟩
    rw [← hspace, ← hindex, hostAddr_eta]
  · rintro rfl
    exact ⟨addrSpace_hostAddr (by decide) (by decide), addrIndex_hostAddr (by decide) (by decide)⟩

section
variable {s : State} (hb : s.status.busy = true)
include hb

/-- A defined read returns the register and changes nothing (10_state.md R27). -/
theorem hostAccess_busyRead_defined {r : Nat} (hr : r = 0 ∨ r = 2 ∨ 16 ≤ r ∧ r ≤ 20) :
    hostAccess (.read (hostAddr 0 r)) s = { s with observed := s.observed ++ [regRead s r] } := by
  rw [hostAccess_busy hb, accessBusy, if_pos (busyReadable_iff.2 ⟨r, hr, rfl⟩),
    addrIndex_hostAddr (by decide) (reg_lt (by omega))]
  rfl

/-- Every other read returns a free value, with HostBusyAccess on record (70_reset_and_hazards.md R300). -/
theorem hostAccess_busyRead_forbidden {a : Word} (ha : ∀ r, (r = 0 ∨ r = 2 ∨ 16 ≤ r ∧ r ≤ 20) → a ≠ hostAddr 0 r) :
    hostAccess (.read a) s = { s with
      observed := s.observed ++ [Config.unspecifiedWord s.draws], draws := s.draws + 1,
      faults := { s.faults with hostBusyAccess := true } } := by
  have hforbidden : ¬ busyReadable a = true := fun h => by
    obtain ⟨r, hr, hra⟩ := busyReadable_iff.1 h
    exact ha r hr hra
  rw [hostAccess_busy hb, accessBusy, if_neg hforbidden]
  rfl

/-- A write of CMD is lost, with CmdWhileBusy on record (70_reset_and_hazards.md R301). -/
theorem hostAccess_busyCmd (d : Word) :
    hostAccess (.write (hostAddr 0 1) d) s = { s with faults := { s.faults with cmdWhileBusy := true } } := by
  rw [hostAccess_busy hb, accessBusy, if_pos (isCmd_iff.2 rfl)]
  rfl

theorem hostAccess_busyWrite {a : Word} (d : Word) (ha : isCmd a = false) : hostAccess (.write a d) s = writeBusy a d s := by
  rw [hostAccess_busy hb, accessBusy, if_neg (by simp [ha])]

end

/-- `expect` records whether the value read is the value expected (30_encoding.md R87). -/
theorem expectAccess_eq {s t : State} {a v w : Word} (h : hostAccess (.read a) s = t) (ho : t.observed = s.observed ++ [w]) :
    expectAccess a v s = { t with checks := t.checks ++ [decide (w = v)] } := by
  have hlast : lastRead t = w := by rw [lastRead, ho, List.getLastD_concat]
  unfold expectAccess
  simp only [h, hlast]
  rfl

theorem dropMove_cons {s : State} {m : Move} {rest : List Move} (h : s.inputs = m :: rest) : dropMove s = { s with inputs := rest } := by
  unfold dropMove
  rw [h]
  rfl

/-! ### The machine goes on -/

/-- The ENGINE's turn gives a next state wherever BUSY = 1 comes with a latched command (60_exceptions.md R250). -/
theorem engineStep_total {s : State} (h : s.status.busy = true → s.pending.isSome = true) : ∃ t, engineStep s = .next t := by
  cases hb : s.status.busy with
  | false => exact ⟨s, by simp [engineStep, fetch, hb]⟩
  | true =>
    obtain ⟨v, hv⟩ := Option.isSome_iff_exists.1 (h hb)
    cases hd : decode v with
    | error e => exact ⟨_, engineStep_illegal hb hv hd⟩
    | ok i =>
      rw [engineStep_command hb hv hd, exec_eq_run]
      exact runCommand_total _ _ _

theorem step_total {s : State} (h : s.status.busy = true → s.pending.isSome = true) : ∃ t, step s = .next t := by
  unfold step
  split
  · exact ⟨_, rfl⟩
  · exact ⟨_, rfl⟩
  · exact ⟨_, rfl⟩
  · exact ⟨_, rfl⟩
  · exact engineStep_total h
  · exact engineStep_total h

theorem clean_iff {s : State} :
    s.clean ↔ s.faults.unwrittenRead = false ∧ s.faults.hostBusyAccess = false ∧ s.faults.cmdWhileBusy = false := by
  simp [State.clean, FaultRecord.isEmpty, and_assoc]

/-- A fault once on record stays (10_state.md R45), so that no later state is clean. -/
theorem ConstantsKept.clean {s t : State} (k : ConstantsKept s t) (h : t.clean) : s.clean := by
  obtain ⟨hunwritten, hbusy, hcmd⟩ := clean_iff.1 h
  exact clean_iff.2 ⟨Bool.eq_false_iff.2 fun hf => by simp [k.unwrittenRead hf] at hunwritten,
    Bool.eq_false_iff.2 fun hf => by simp [k.hostBusyAccess hf] at hbusy,
    Bool.eq_false_iff.2 fun hf => by simp [k.cmdWhileBusy hf] at hcmd⟩

/-- Settles O21: the accesses one by one, and the faults kept by the step. -/
theorem accessesWhileBusy : Obligations.AccessesWhileBusy := by
  unfold Obligations.AccessesWhileBusy
  refine ⟨fun s r hb hr => ⟨hostAccess_busyRead_defined hb hr, rfl, rfl, rfl, rfl, rfl, rfl, rfl⟩,
    fun s op rest hb hi => ?_, fun s a v rest hb hi => ?_, fun s hpending => ?_⟩
  · have hb' : { s with inputs := rest }.status.busy = true := hb
    rw [step_hostMove hi, dropMove_cons hi]
    refine ⟨?_, ?_, ?_⟩
    · rintro a d rfl rfl
      exact congrArg _ (hostAccess_busyCmd hb' d)
    · rintro a d rfl ha
      have hcmd : isCmd a = false := Bool.eq_false_iff.2 fun h => ha (isCmd_iff.1 h)
      obtain ⟨hstatus, hlatched, _⟩ := hostWrite_keeps d s hcmd
      rw [hostAccess_busyWrite hb' d hcmd]
      exact ⟨(writeBusy_cases d _ hcmd).imp (congrArg _) (congrArg _), hlatched, hstatus⟩
    · rintro a rfl ha
      exact ⟨_, congrArg _ (hostAccess_busyRead_forbidden hb' ha)⟩
  · have hb' : { s with inputs := rest }.status.busy = true := hb
    rw [step_expectMove hi, dropMove_cons hi]
    refine ⟨?_, fun ha => ⟨Config.unspecifiedWord s.draws, ?_⟩⟩
    · rintro r hr rfl
      exact congrArg _ (expectAccess_eq (hostAccess_busyRead_defined hb' hr) rfl)
    · exact congrArg _ (expectAccess_eq (hostAccess_busyRead_forbidden hb' ha) rfl)
  · obtain ⟨t, ht⟩ := step_total hpending
    have kept := (constantsKept_invariant s).step (.of_eq rfl rfl) ht
    exact ⟨t, ht, fun hfault => ⟨fun hclean => hfault (kept.clean hclean), fun ⟨_, _, hclean⟩ => hfault (kept.clean hclean)⟩⟩

end Sys2Proof.Machine
end

section
/-! SUPPORT. Cells at or beyond a length (10_state.md R31, 42_archive.md R191): two runs of a command that differ only in such cells do the same. -/

namespace Sys2Proof.Machine

variable {α β : Type}

/-! ### Two runs of pseudocode that read alike -/

/-- The piece that answers `f a` where `m` answers `a`. -/
def Eng.map (f : α → β) (m : Eng α) : Eng β := fun d => ((m d).1.map f, (m d).2)

theorem Eng.andThen_congr {m m' : Eng α} {g g' : α → Eng β} (hm : m' = m) (h : ∀ a, g' a = g a) : m'.andThen g' = m.andThen g := by
  rw [hm, funext h]

/-- What follows a piece need only agree on what the piece can answer. -/
theorem Eng.andThen_congr_post {m m' : Eng α} {g g' : α → Eng β} {P : α → Prop} (hm : m' = m) (hP : m.Post P)
    (h : ∀ a, P a → g' a = g a) : m'.andThen g' = m.andThen g := by
  subst hm
  funext d
  obtain ⟨r, d', hr, hseq⟩ | ⟨a, d', ha, hseq⟩ := Eng.andThen_cases m' g d
  · rw [hseq, Eng.andThen_error hr]
  · rw [hseq, Eng.andThen_ok ha, h a (hP d a d' ha)]

theorem Eng.andThen_map_post {γ : Type} {m m' : Eng α} {g : α → Eng β} {g' : α → Eng γ} {f : β → γ} {P : α → Prop} (hm : m' = m)
    (hP : m.Post P) (h : ∀ a, P a → g' a = (g a).map f) : m'.andThen g' = (m.andThen g).map f := by
  subst hm
  funext d
  unfold Eng.map
  obtain ⟨r, d', hr, hseq⟩ | ⟨a, d', ha, hseq⟩ := Eng.andThen_cases m' g d
  · rw [hseq, Eng.andThen_error hr]
    rfl
  · rw [hseq, Eng.andThen_ok ha, h a (hP d a d' ha)]
    rfl

theorem Eng.andThen_map {γ : Type} {m m' : Eng α} {g : α → Eng β} {g' : α → Eng γ} {f : β → γ} (hm : m' = m)
    (h : ∀ a, g' a = (g a).map f) : m'.andThen g' = (m.andThen g).map f :=
  Eng.andThen_map_post hm (Eng.post_true m) fun a _ => h a

/-- The same where the first piece answers a changed state already. -/
theorem Eng.map_andThen_map {m m' : Eng α} {g g' : α → Eng α} {f : α → α} {P : α → Prop} (hm : m' = m.map f) (hP : m.Post P)
    (h : ∀ a, P a → g' (f a) = (g a).map f) : m'.andThen g' = (m.andThen g).map f := by
  subst hm
  funext d
  obtain ⟨r, d', hr, hseq⟩ | ⟨a, d', ha, hseq⟩ := Eng.andThen_cases m g d
  · have hmap : (m.map f) d = (.error r, d') := by simp [Eng.map, hr, Except.map]
    rw [Eng.andThen_error hmap]
    simp [Eng.map, hseq, Except.map]
  · have hmap : (m.map f) d = (.ok (f a), d') := by simp [Eng.map, ha, Except.map]
    rw [Eng.andThen_ok hmap, h a (hP d a d' ha)]
    simp [Eng.map, hseq]

/-- Two buffers hold the same below cell `n`. -/
abbrev Cells.AgreeBelow (n : Nat) (c d : Cells α) : Prop := ∀ j, j < n → Cells.get c j = Cells.get d j

theorem Cells.AgreeBelow.zero_add {n : Nat} {c d : Cells α} (h : Cells.AgreeBelow n c d) : Cells.AgreeBelow (0 + n) c d := by
  rwa [Nat.zero_add]

theorem memRead_congr (free : Nat → α) {c c' : Cells α} {i : Nat} (h : Cells.get c i = Cells.get c' i) :
    memRead free c i = memRead free c' i := by
  unfold memRead
  rw [h]

theorem memReads_congr (free : Nat → α) {c c' : Cells α} {n i : Nat} (h : Cells.AgreeBelow (i + n) c c') :
    memReads free c i n = memReads free c' i n := by
  induction n generalizing i with
  | zero => rfl
  | succ n ih => exact Eng.andThen_congr (memRead_congr free (h i (by omega))) fun _ =>
      Eng.andThen_congr (ih fun j hj => h j (by omega)) fun _ => rfl

/-! ### A command over a changed buffer -/

/-- An update of one buffer, `e`, that no completion sees but where it clears `e`. -/
structure BufferUpdate (e : Dest) (f : State → State) : Prop where
  draws : ∀ s, (f s).draws = s.draws
  success : ∀ s, successCompletion (f s) = f (successCompletion s)
  noteReads : ∀ s d, (f s).noteReads d = f (s.noteReads d)
  clear : ∀ s x, x ≠ e → clearDest (f s) x = f (clearDest s x)
  failed : ∀ (s : State) (r : Raise), { f s with errInfo := word r.info, status := Status.failed r.code (f s).status } =
    f { s with errInfo := word r.info, status := Status.failed r.code s.status }

theorem noteReads_eq (d : Nat) (s : State) : s.noteReads d =
    { s with draws := d, faults := if d = s.draws then s.faults else { s.faults with unwrittenRead := true } } := by
  unfold State.noteReads
  split
  · next h => rw [h]
  · rfl

section
variable {e : Dest} {f : State → State} (hf : BufferUpdate e f)
include hf

theorem BufferUpdate.clearedBy {ds : List Dest} (hds : e ∉ ds) (r : Raise) (s : State) :
    clearedBy ds r (f s) = f (clearedBy ds r s) := by
  unfold Machine.clearedBy
  split
  · rfl
  · induction ds generalizing s with
    | nil => rfl
    | cons x ds ih =>
      obtain ⟨hx, hrest⟩ := not_or.1 (mt List.mem_cons.2 hds)
      rw [List.foldl_cons, List.foldl_cons, hf.clear s x fun h => hx h.symm]
      exact ih hrest (clearDest s x)

theorem BufferUpdate.errorCompletion {ds : List Dest} (hds : e ∉ ds) (r : Raise) (s : State)
    (hsessions : ∀ u : State, u.status.aw = s.status.aw → sessionsClosed (f u) = f (sessionsClosed u)) :
    errorCompletion ds r (f s) = f (errorCompletion ds r s) := by
  have haw : (Machine.clearedBy ds r s).status.aw = s.status.aw := by
    unfold Machine.clearedBy
    split
    · rfl
    · obtain ⟨_, _, _, _, hstatus⟩ := foldl_clearDest_status ds s
      rw [hstatus]
  rw [errorCompletion_eq, errorCompletion_eq, hf.clearedBy hds, hsessions _ haw]
  exact hf.failed _ r

/-- A command whose pseudocode does the same over a changed buffer completes the same. -/
theorem BufferUpdate.exec {i : Instr} {s : State} (hi : e ∉ destinations i)
    (hsessions : ∀ u : State, u.status.aw = s.status.aw → sessionsClosed (f u) = f (sessionsClosed u))
    (hbody : bodyOf i (f s) = (bodyOf i s).map f) : ∃ t, exec i s = .next t ∧ exec i (f s) = .next (f t) := by
  rw [exec_eq_run, exec_eq_run, hbody]
  unfold runCommand Eng.map
  rw [hf.draws]
  cases bodyOf i s s.draws with
  | mk result d =>
    cases result with
    | ok t => exact ⟨_, rfl, congrArg Host.Outcome.next ((congrArg (State.noteReads d) (hf.success t)).trans (hf.noteReads _ d))⟩
    | error r =>
      have hfailed := hf.errorCompletion hi r s hsessions
      exact ⟨_, rfl, congrArg Host.Outcome.next ((congrArg (State.noteReads d) hfailed).trans (hf.noteReads _ d))⟩

end

theorem bufferUpdate_inbuf (c : Cells Byte) : BufferUpdate .inbuf fun s => { s with inbuf := c } where
  draws _ := rfl
  success _ := rfl
  noteReads s d := by rw [noteReads_eq, noteReads_eq]
  clear s x hx := by
    cases x
    case inbuf => exact absurd rfl hx
    all_goals rfl
  failed _ _ := rfl

theorem bufferUpdate_namebuf (c : Cells Byte) : BufferUpdate .namebuf fun s => { s with namebuf := c } where
  draws _ := rfl
  success _ := rfl
  noteReads s d := by rw [noteReads_eq, noteReads_eq]
  clear s x hx := by
    cases x
    case namebuf => exact absurd rfl hx
    all_goals rfl
  failed _ _ := rfl

theorem bufferUpdate_paybuf (c : Cells Bool) : BufferUpdate .paybuf fun s => { s with paybuf := c } where
  draws _ := rfl
  success _ := rfl
  noteReads s d := by rw [noteReads_eq, noteReads_eq]
  clear s x hx := by
    cases x
    case paybuf => exact absurd rfl hx
    all_goals rfl
  failed _ _ := rfl

theorem bufferUpdate_arcbuf (c : Cells Byte) : BufferUpdate .arcbuf fun s => { s with arcbuf := c } where
  draws _ := rfl
  success _ := rfl
  noteReads s d := by rw [noteReads_eq, noteReads_eq]
  clear s x hx := by
    cases x
    case arcbuf => exact absurd rfl hx
    all_goals rfl
  failed _ _ := rfl

/-! ### INBUF (40_huffman.md R100, 41_bitstream.md R140, R150) -/

section
variable {s : State} {c : Cells Byte}

theorem freqBody_inbuf (hc : Cells.AgreeBelow s.inLen.toNat c s.inbuf) :
    freqBody { s with inbuf := c } = (freqBody s).map fun t => { t with inbuf := c } :=
  Eng.andThen_map (memReads_congr _ (Cells.AgreeBelow.zero_add hc)) fun _ => rfl

theorem buildBody_inbuf (s : State) (c : Cells Byte) :
    buildBody { s with inbuf := c } = (buildBody s).map fun t => { t with inbuf := c } :=
  Eng.andThen_map rfl fun _ => Eng.andThen_map rfl fun _ => rfl

theorem codegenBody_inbuf (s : State) (c : Cells Byte) :
    codegenBody { s with inbuf := c } = (codegenBody s).map fun t => { t with inbuf := c } := Eng.andThen_map rfl fun _ => rfl

theorem encodeLoop_inbuf {m k : Nat} (p : Nat) (hc : Cells.AgreeBelow (k + m) c s.inbuf) :
    encodeLoop { s with inbuf := c } m k p = encodeLoop s m k p := by
  induction m generalizing k p with
  | zero => rfl
  | succ m ih =>
    exact Eng.andThen_congr (memRead_congr _ (hc k (by omega))) fun _ => Eng.andThen_congr rfl fun _ => Eng.andThen_congr rfl fun _ =>
      Eng.andThen_congr rfl fun _ => Eng.andThen_congr rfl fun _ =>
        Eng.andThen_congr (ih _ fun j hj => hc j (by omega)) fun _ => rfl

theorem encodeBody_inbuf (hc : Cells.AgreeBelow s.inLen.toNat c s.inbuf) :
    encodeBody { s with inbuf := c } = (encodeBody s).map fun t => { t with inbuf := c } :=
  Eng.andThen_map (encodeLoop_inbuf 0 (Cells.AgreeBelow.zero_add hc)) fun _ => rfl

theorem FreqEffect.agreeBelow {t : State} (he : FreqEffect s t) (hc : Cells.AgreeBelow s.inLen.toNat c s.inbuf) :
    Cells.AgreeBelow t.inLen.toNat c t.inbuf := by
  obtain ⟨_, _, _, rfl⟩ := he
  exact hc

theorem BuildEffect.agreeBelow {t : State} (he : BuildEffect s t) (hc : Cells.AgreeBelow s.inLen.toNat c s.inbuf) :
    Cells.AgreeBelow t.inLen.toNat c t.inbuf := by
  obtain ⟨_, _, _, _, _, _, rfl⟩ := he
  exact hc

theorem CodegenEffect.agreeBelow {t : State} (he : CodegenEffect s t) (hc : Cells.AgreeBelow s.inLen.toNat c s.inbuf) :
    Cells.AgreeBelow t.inLen.toNat c t.inbuf := by
  obtain ⟨_, _, rfl, _⟩ := he
  exact hc

/-- The chain reads INBUF in its last part alone, and no part before it changes the input (41_bitstream.md R150). -/
theorem chainBody_inbuf (hc : Cells.AgreeBelow s.inLen.toNat c s.inbuf) :
    chainBody { s with inbuf := c } = (chainBody s).map fun t => { t with inbuf := c } :=
  Eng.map_andThen_map (buildBody_inbuf s c) (buildBody_post s) fun s2 hbuild =>
    Eng.map_andThen_map (codegenBody_inbuf s2 c) (codegenBody_post s2) fun _ hcodegen =>
      encodeBody_inbuf (hcodegen.agreeBelow (hbuild.agreeBelow hc))

theorem compressBody_inbuf (hc : Cells.AgreeBelow s.inLen.toNat c s.inbuf) :
    bodyOf .compress { s with inbuf := c } = (bodyOf .compress s).map fun t => { t with inbuf := c } := by
  refine Eng.andThen_map rfl fun _ => Eng.map_andThen_map (freqBody_inbuf hc) (freqBody_post s) fun s1 hfreq => ?_
  dsimp only
  split
  · rfl
  · exact chainBody_inbuf (hfreq.agreeBelow hc)

theorem bodyOf_inbuf {i : Instr} (hi : i ∈ [Instr.freq, .encode, .compress]) (hc : Cells.AgreeBelow s.inLen.toNat c s.inbuf) :
    bodyOf i { s with inbuf := c } = (bodyOf i s).map fun t => { t with inbuf := c } := by
  cases i
  case freq => exact Eng.andThen_map rfl fun _ => freqBody_inbuf hc
  case encode => exact Eng.andThen_map rfl fun _ => Eng.andThen_map rfl fun _ => encodeBody_inbuf hc
  case compress => exact compressBody_inbuf hc
  all_goals exact absurd hi (by decide)

end

/-! ### NAMEBUF and PAYBUF (41_bitstream.md R170, 42_archive.md R186) -/

theorem entriesBytes_congr {s s' : State} (h : s'.cbit = s.cbit) (l : List (Nat × Nat)) : entriesBytes s' l = entriesBytes s l := by
  induction l with
  | nil => rfl
  | cons e l ih => exact Eng.andThen_congr (by rw [readCode, readCode, h]) fun _ => Eng.andThen_congr ih fun _ => rfl

theorem awrecBody_namebuf {s : State} {c : Cells Byte} (hc : Cells.AgreeBelow s.nameLen.toNat c s.namebuf) :
    bodyOf .awrec { s with namebuf := c } = (bodyOf .awrec s).map fun t => { t with namebuf := c } := by
  have hrecord : ∀ present, recordBytes { s with namebuf := c } present = recordBytes s present := fun present =>
    Eng.andThen_congr (memReads_congr _ (Cells.AgreeBelow.zero_add hc)) fun _ => Eng.andThen_congr rfl fun _ =>
      Eng.andThen_congr (entriesBytes_congr (s := s) (s' := { s with namebuf := c }) rfl _) fun _ => rfl
  exact Eng.andThen_map rfl fun _ => Eng.andThen_map rfl fun _ => Eng.andThen_map rfl fun _ => Eng.andThen_map rfl fun _ =>
    Eng.andThen_map rfl fun _ => Eng.andThen_map rfl fun _ => Eng.andThen_map (hrecord _) fun _ => rfl

theorem awrecBody_paybuf {s : State} {c : Cells Bool} (hc : Cells.AgreeBelow s.payLen.toNat c s.paybuf) :
    bodyOf .awrec { s with paybuf := c } = (bodyOf .awrec s).map fun t => { t with paybuf := c } := by
  have hrecord : ∀ present, recordBytes { s with paybuf := c } present = recordBytes s present := fun present =>
    Eng.andThen_congr rfl fun _ => Eng.andThen_congr (memReads_congr _ (Cells.AgreeBelow.zero_add hc)) fun _ =>
      Eng.andThen_congr (entriesBytes_congr (s := s) (s' := { s with paybuf := c }) rfl _) fun _ => rfl
  exact Eng.andThen_map rfl fun _ => Eng.andThen_map rfl fun _ => Eng.andThen_map rfl fun _ => Eng.andThen_map rfl fun _ =>
    Eng.andThen_map rfl fun _ => Eng.andThen_map rfl fun _ => Eng.andThen_map (hrecord _) fun _ => rfl

/-- The loop of DECODE sees the table, the parameters and the payload bits that it has still to read. -/
theorem decodeLoop_congr {s s' : State} (hd : s'.dtab = s.dtab) (hp : s'.params = s.params) {m i : Nat} (cand : Code) (start o : Nat)
    (hc : Cells.AgreeBelow (i + m) s'.paybuf s.paybuf) : decodeLoop s' m i cand start o = decodeLoop s m i cand start o := by
  induction m generalizing i cand start o with
  | zero => rfl
  | succ m ih =>
    have ih' := fun cand start o => ih (i := i + 1) cand start o fun j hj => hc j (by omega)
    refine Eng.andThen_congr (memRead_congr _ (hc i (by omega))) fun b => ?_
    rw [hd, hp]
    split
    · exact Eng.andThen_congr rfl fun _ => Eng.andThen_congr (ih' _ _ _) fun _ => rfl
    · exact ih' _ _ _

theorem decodeBody_paybuf {s : State} {c : Cells Bool} (hc : Cells.AgreeBelow s.payLen.toNat c s.paybuf) :
    decodeBody { s with paybuf := c } = (decodeBody s).map fun t => { t with paybuf := c } :=
  Eng.andThen_map rfl fun _ => Eng.andThen_map rfl fun _ =>
    Eng.andThen_map (decodeLoop_congr (s := s) (s' := { s with paybuf := c }) rfl rfl _ _ _ (Cells.AgreeBelow.zero_add hc)) fun _ => rfl

theorem decodeBody_arcbuf (s : State) (c : Cells Byte) :
    decodeBody { s with arcbuf := c } = (decodeBody s).map fun t => { t with arcbuf := c } :=
  Eng.andThen_map rfl fun _ => Eng.andThen_map rfl fun _ =>
    Eng.andThen_map (decodeLoop_congr (s := s) (s' := { s with arcbuf := c }) rfl rfl _ _ _ fun _ _ => rfl) fun _ => rfl

theorem bodyOf_paybuf {s : State} {c : Cells Bool} {i : Instr} (hi : i ∈ [Instr.decode, .awrec])
    (hc : Cells.AgreeBelow s.payLen.toNat c s.paybuf) :
    bodyOf i { s with paybuf := c } = (bodyOf i s).map fun t => { t with paybuf := c } := by
  cases i
  case decode => exact decodeBody_paybuf hc
  case awrec => exact awrecBody_paybuf hc
  all_goals exact absurd hi (by decide)

/-! ### ARCBUF (42_archive.md R190 to R201): every read stands behind a check that it ends below ARC_LEN -/

theorem invertLoop_congr {s s' : State} (hl : s'.clen = s.clen) (hb : s'.cbit = s.cbit) (l : List Nat) (d : List (Code × Byte)) :
    invertLoop s' l d = invertLoop s l d := by
  induction l generalizing d with
  | nil => rfl
  | cons sym l ih =>
    refine Eng.andThen_congr (by rw [hl]) fun len => ?_
    split
    · exact ih d
    · exact Eng.andThen_congr (by rw [readCode, readCode, hb]) fun _ => Eng.andThen_congr rfl fun _ => ih _

theorem invertBody_arcbuf (s : State) (c : Cells Byte) :
    invertBody { s with arcbuf := c } = (invertBody s).map fun t => { t with arcbuf := c } :=
  Eng.andThen_map (invertLoop_congr (s := s) (s' := { s with arcbuf := c }) rfl rfl _ _) fun _ => rfl

section
variable {s : State} {c : Cells Byte} (hc : Cells.AgreeBelow s.arcLen.toNat c s.arcbuf)
include hc

theorem readField_arcbuf {q : Nat} (hq : q + 8 ≤ s.arcLen.toNat) : readField { s with arcbuf := c } q = readField s q :=
  Eng.andThen_congr (memReads_congr _ fun j hj => hc j (by omega)) fun _ => rfl

theorem lengthField_arcbuf (q : Nat) : lengthField { s with arcbuf := c } q = lengthField s q :=
  Eng.andThen_congr_post rfl (post_need s q 8 q) fun _ hq => readField_arcbuf hc hq

theorem parseBits_arcbuf {n q : Nat} (hq : q + n ≤ s.arcLen.toNat) : parseBits { s with arcbuf := c } n q = parseBits s n q := by
  induction n generalizing q with
  | zero => rfl
  | succ n ih =>
    refine Eng.andThen_congr (memRead_congr _ (hc q (by omega))) fun y => ?_
    split
    · exact Eng.andThen_congr (ih (by omega)) fun _ => rfl
    · rfl

theorem parseEntries_arcbuf (m g : Nat) (ct : List (Byte × Code)) :
    parseEntries { s with arcbuf := c } m g ct = parseEntries s m g ct := by
  induction m generalizing g ct with
  | zero => rfl
  | succ m ih =>
    refine Eng.andThen_congr (lengthField_arcbuf hc g) fun cl => Eng.andThen_congr rfl fun _ =>
      Eng.andThen_congr_post rfl (post_need s (g + 8) cl g) fun _ hbits => Eng.andThen_congr (parseBits_arcbuf hc hbits) fun _ =>
        Eng.andThen_congr_post rfl (post_need s (g + 8 + cl) 1 _) fun _ hsym => ?_
    exact Eng.andThen_congr (memRead_congr _ (hc _ hsym)) fun _ => Eng.andThen_congr rfl fun _ => Eng.andThen_congr rfl fun _ => ih _ _

theorem parseRecord_arcbuf (q : Nat) : parseRecord { s with arcbuf := c } q = parseRecord s q := by
  refine Eng.andThen_congr (lengthField_arcbuf hc q) fun nl => Eng.andThen_congr_post rfl (post_need s (q + 8) nl q) fun _ hname =>
    Eng.andThen_congr rfl fun _ => Eng.andThen_congr (memReads_congr _ fun j hj => hc j (by omega)) fun _ =>
      Eng.andThen_congr (lengthField_arcbuf hc _) fun pl => Eng.andThen_congr_post rfl (post_need s (q + 8 + nl + 8) pl _) fun _ hpay =>
        Eng.andThen_congr rfl fun _ => Eng.andThen_congr (parseBits_arcbuf hc hpay) fun _ => ?_
  exact Eng.andThen_congr (lengthField_arcbuf hc _) fun _ => Eng.andThen_congr rfl fun _ =>
    Eng.andThen_congr (parseEntries_arcbuf hc _ _ _) fun _ => rfl

theorem arrecBody_arcbuf : arrecBody { s with arcbuf := c } = (arrecBody s).map fun t => { t with arcbuf := c } :=
  Eng.andThen_map rfl fun _ => Eng.andThen_map rfl fun _ => Eng.andThen_map (parseRecord_arcbuf hc _) fun r =>
    Eng.map_andThen_map (invertBody_arcbuf (s.withRecord r) c) (Eng.post_true _) fun _ _ => rfl

theorem bodyOf_arcbuf {i : Instr} (hi : i ∈ [Instr.arbegin, .arrec, .arend, .extract]) :
    bodyOf i { s with arcbuf := c } = (bodyOf i s).map fun t => { t with arcbuf := c } := by
  cases i
  case arbegin =>
    refine Eng.andThen_map rfl fun _ => Eng.andThen_map rfl fun _ => Eng.andThen_map rfl fun _ =>
      Eng.andThen_map_post rfl (Eng.post_raiseIf _ _ _) fun _ hlen => ?_
    have hfield : 0 + 8 ≤ s.arcLen.toNat := by simpa using hlen
    exact Eng.andThen_map (readField_arcbuf hc hfield) fun _ => rfl
  case arrec => exact arrecBody_arcbuf hc
  case arend => exact Eng.andThen_map rfl fun _ => Eng.andThen_map rfl fun _ => Eng.andThen_map rfl fun _ => rfl
  case extract => exact Eng.map_andThen_map (arrecBody_arcbuf hc) (Eng.post_true _) fun t _ => decodeBody_arcbuf t c
  all_goals exact absurd hi (by decide)

end

/-- Settles O59: each command's pseudocode does the same over the changed buffer, and no completion sees the change. -/
theorem cellsBeyondTheLengthAreNeverRead : Obligations.CellsBeyondTheLengthAreNeverRead := by
  unfold Obligations.CellsBeyondTheLengthAreNeverRead
  refine fun s => ⟨fun i hi c hc => ?_, fun c hc => ?_, fun i hi c hc => ?_, fun haw i hi c hc => ?_⟩
  · have hdest : ∀ i ∈ [Instr.freq, .encode, .compress], Dest.inbuf ∉ destinations i := by decide
    exact (bufferUpdate_inbuf c).exec (hdest i hi) (fun _ _ => rfl) (bodyOf_inbuf hi hc)
  · exact (bufferUpdate_namebuf c).exec (i := .awrec) (by decide) (fun _ _ => rfl) (awrecBody_namebuf hc)
  · have hdest : ∀ i ∈ [Instr.decode, .awrec], Dest.paybuf ∉ destinations i := by decide
    exact (bufferUpdate_paybuf c).exec (hdest i hi) (fun _ _ => rfl) (bodyOf_paybuf hi hc)
  · have hdest : ∀ i ∈ [Instr.arbegin, .arrec, .arend, .extract], Dest.arcbuf ∉ destinations i := by decide
    exact (bufferUpdate_arcbuf c).exec (hdest i hi) (fun u hu => by simp [sessionsClosed, hu, haw]) (bodyOf_arcbuf hc hi)

end Sys2Proof.Machine
end

section
/-! SUPPORT. Host accesses to the buffer and table windows while BUSY = 0 (20_memory.md R61, R63 to R67), and `expect` (30_encoding.md R87). -/

namespace Sys2Proof.Machine

/-! ### Reads -/

section
variable {α : Type} {s : State} {sp i j : Nat} {p : Bool} {c : Cells α} {f : α → Word}

/-- A read inside a window, of a cell that is written (R61). -/
theorem hostRead_cell (hsp : sp < 256) (hi : i < 2 ^ 56) (hwin : spaceRead s sp i = windowRead p c j f) (hp : p = true) {v : α}
    (hv : Cells.get c j = some v) : hostRead s (hostAddr sp i) = some (f v) :=
  (hostRead_hostAddr s hsp hi).trans (hwin.trans (windowRead_in hp hv))

theorem windowRead_unwritten (hp : p = true) (hv : Cells.get c j = none) : windowRead p c j f = none := by
  rw [windowRead, if_pos hp, hv]
  rfl

/-- A read inside a window returns a written cell and changes nothing of the block; of an unwritten cell it returns a free value, with
UnwrittenRead on record (R61, R63). -/
theorem hostAccess_readWindow (hb : s.status.busy = false) (hsp : sp < 256) (hi : i < 2 ^ 56)
    (hwin : spaceRead s sp i = windowRead p c j f) (hp : p = true) :
    (∀ v, Cells.get c j = some v → hostAccess (.read (hostAddr sp i)) s = { s with observed := s.observed ++ [f v] }) ∧
    (Cells.get c j = none → ∃ v, hostAccess (.read (hostAddr sp i)) s =
      { s with observed := s.observed ++ [v], draws := s.draws + 1, faults := { s.faults with unwrittenRead := true } }) := by
  refine ⟨fun v hv => hostAccess_read hb (hostRead_cell hsp hi hwin hp hv), fun hv => ⟨_, hostAccess_read_unwritten hb ?_⟩⟩
  rw [hostRead_hostAddr s hsp hi, hwin, windowRead_unwritten hp hv]

end

theorem cbit_index_inRange {sym j : Nat} (hsym : sym < 256) (hj : j < 255) :
    (decide (sym * 256 + j < Config.nsym * 256) && decide ((sym * 256 + j) % 256 < Config.maxCodeLen)) = true := by
  rw [Bool.and_eq_true, decide_eq_true_eq, decide_eq_true_eq]
  change sym * 256 + j < 65536 ∧ (sym * 256 + j) % 256 < 255
  omega

/-- Field `f` of node slot `i` stands at index 4i + f of the NODE window (R65). -/
theorem spaceRead_node (s : State) (i : Nat) {f : Nat} (hf : f < 4) :
    spaceRead s 0x09 (i * 4 + f) = windowRead (i * 4 + f < Config.nodeCap * 4) s.nodes i (nodeField · f) := by
  have hslot : (i * 4 + f) / 4 = i := by omega
  have hfield : (i * 4 + f) % 4 = f := by omega
  change windowRead _ s.nodes ((i * 4 + f) / 4) (fun n => nodeField n ((i * 4 + f) % 4)) = _
  rw [hslot, hfield]

theorem node_index_inRange {i f : Nat} (hi : i < 511) (hf : f < 4) : decide (i * 4 + f < Config.nodeCap * 4) = true := by
  rw [decide_eq_true_eq]
  change i * 4 + f < 2044
  omega

theorem hostRead_node {s : State} {i f : Nat} {n : Node} (hi : i < 511) (hf : f < 4) (hn : Cells.get s.nodes i = some n) :
    hostRead s (hostAddr 0x09 (i * 4 + f)) = some (nodeField n f) :=
  hostRead_cell (by decide) (by omega) (spaceRead_node s i hf) (node_index_inRange hi hf) hn

/-- Bit 8 of field 1 marks a leaf, above its symbol (R65). -/
theorem nodeField_leaf_sym (w : Word) (sym : Byte) : nodeField (.leaf w sym) 1 = 0x100 + sym.setWidth 64 := by
  change word (2 ^ 8 + sym.toNat) = _
  apply BitVec.eq_of_toNat_eq
  simp [word, BitVec.toNat_add]

/-- Settles O18: each field is `nodeField` of the slot's node. -/
theorem nodeWindowFields : Obligations.NodeWindowFields := by
  unfold Obligations.NodeWindowFields
  intro s i hi
  have field : ∀ {n}, Cells.get s.nodes i = some n → ∀ f, f < 4 → hostRead s (hostAddr 0x09 (i * 4 + f)) = some (nodeField n f) :=
    fun hn _ hf => hostRead_node hi hf hn
  refine ⟨fun w sym hn => ?_, fun w l r hn => ?_⟩
  · rw [← nodeField_leaf_sym w sym]
    exact ⟨field hn 0 (by decide), field hn 1 (by decide), field hn 2 (by decide), field hn 3 (by decide)⟩
  · exact ⟨field hn 0 (by decide), field hn 1 (by decide), field hn 2 (by decide), field hn 3 (by decide)⟩

/-- `expect` is a read that drops its move and records besides whether the value read is the value expected (30_encoding.md R87). -/
theorem step_expect {s t : State} {a v w : Word} {rest : List Move} (hi : s.inputs = .expect a v :: rest)
    (hread : hostAccess (.read a) { s with inputs := rest } = t) (ho : t.observed = s.observed ++ [w]) :
    step s = .next { t with checks := t.checks ++ [decide (w = v)] } := by
  rw [step_expectMove hi, dropMove_cons hi, expectAccess_eq hread ho]

/-- Settles O20: every window is a `windowRead`, and `expect` is a read. -/
theorem hostReadsChangeNoState : Obligations.HostReadsChangeNoState := by
  unfold Obligations.HostReadsChangeNoState
  intro s hb reads unwritten byteWindow
  refine ⟨fun i h hi => ?inbuf, fun i h hi => ?namebuf, fun i h hi => ?outbuf, fun i h hi => ?arcbuf, fun i h hi => ?clen,
    fun i h hi => ?paybuf, fun i h => ?freq, fun sym j hsym hj => ?cbit, fun i f hi hf => ?node, fun a v rest hm => ?expect⟩
  case freq => exact hostAccess_readWindow hb (by decide) (by omega) rfl (decide_eq_true h)
  case cbit => exact hostAccess_readWindow hb (by decide) (by omega) rfl (cbit_index_inRange hsym hj)
  case node =>
    have hindex : i * 4 + f < 2 ^ 56 := by omega
    exact ⟨fun v hv => hostAccess_read hb hv,
      (hostAccess_readWindow hb (by decide) hindex (spaceRead_node s i hf) (node_index_inRange hi hf)).2⟩
  case expect =>
    have hb' : { s with inputs := rest }.status.busy = false := hb
    exact ⟨fun w hw => step_expect hm (hostAccess_read hb' hw) rfl,
      fun hw => ⟨_, step_expect hm (hostAccess_read_unwritten hb' hw) rfl⟩⟩
  all_goals exact hostAccess_readWindow hb (by decide) hi rfl (decide_eq_true h)

/-! ### Writes -/

theorem hostAccess_writeSpace {s : State} (hb : s.status.busy = false) {sp i : Nat} (hsp : sp < 256) (hi : i < 2 ^ 56) (d : Word) :
    hostAccess (.write (hostAddr sp i) d) s = spaceWrite sp i d s :=
  (hostAccess_write hb).trans (hostWrite_hostAddr s d hsp hi)

section
variable {s : State} {i : Nat} (d : Word)

theorem spaceWrite_inbuf (h : i < s.params.inCap.toNat) :
    spaceWrite 0x01 i d s = { s with inbuf := Cells.writeRange s.inbuf i [d.setWidth 8] } := if_pos h

theorem spaceWrite_namebuf (h : i < s.params.nameCap.toNat) :
    spaceWrite 0x02 i d s = { s with namebuf := Cells.writeRange s.namebuf i [d.setWidth 8] } := if_pos h

theorem spaceWrite_paybuf (h : i < s.params.payCap.toNat) :
    spaceWrite 0x03 i d s = { s with paybuf := Cells.writeRange s.paybuf i [d.getLsbD 0] } := if_pos h

theorem spaceWrite_arcbuf (h : i < s.params.arcCap.toNat) (haw : s.status.aw = .idle) (har : s.status.ar = .idle) :
    spaceWrite 0x05 i d s = { s with arcbuf := Cells.writeRange s.arcbuf i [d.setWidth 8] } := by
  have hclosed : ¬ s.status.sessionOpen = true := by simp [sessionOpen_false haw har]
  exact (if_neg hclosed).trans (if_pos h)

/-- ARCBUF is locked while a session is open (R67). -/
theorem spaceWrite_arcbuf_locked (i : Nat) (h : s.status.aw = .opened ∨ s.status.ar = .opened) : spaceWrite 0x05 i d s = s :=
  if_pos (sessionOpen_true h)

theorem spaceWrite_inbuf_out (h : s.params.inCap.toNat ≤ i) : spaceWrite 0x01 i d s = s := if_neg h.not_gt

theorem spaceWrite_namebuf_out (h : s.params.nameCap.toNat ≤ i) : spaceWrite 0x02 i d s = s := if_neg h.not_gt

theorem spaceWrite_paybuf_out (h : s.params.payCap.toNat ≤ i) : spaceWrite 0x03 i d s = s := if_neg h.not_gt

theorem spaceWrite_arcbuf_out (h : s.params.arcCap.toNat ≤ i) : spaceWrite 0x05 i d s = s := by
  change (if _ then s else if i < s.params.arcCap.toNat then _ else s) = s
  rw [if_neg h.not_gt, ite_self]

/-- OUTBUF and the tables are read-only (R61, R64). -/
theorem spaceWrite_readOnly {sp : Nat} (s : State) (i : Nat) (h : sp = 0x04 ∨ 0x06 ≤ sp) : spaceWrite sp i d s = s := by
  rcases h with rfl | h
  · rfl
  · exact spaceWrite_high s i d h

end

theorem params_wf_iff {p : Params} : Params.wf p = true ↔
    capOk 1 p.inCap = true ∧ capOk 1 p.nameCap = true ∧ capOk 1 p.payCap = true ∧ capOk 1 p.outCap = true ∧ capOk 8 p.arcCap = true := by
  simp only [Params.wf, Bool.and_eq_true, and_assoc]

/-- A write of one cell of a buffer, as an access: the cell then reads as the value stored, and every other cell is what it was (R61, R64). -/
theorem hostAccess_writeCell {α : Type} {s t : State} {sp i least : Nat} {d cap : Word} {c : Cells α} {v : α} {f : α → Word}
    (hb : s.status.busy = false) (hsp : sp < 256) (hcap : capOk least cap = true) (h : i < cap.toNat) (hwrite : spaceWrite sp i d s = t)
    (hwin : spaceRead t sp i = windowRead (i < cap.toNat) (Cells.writeRange c i [v]) i f) :
    hostAccess (.write (hostAddr sp i) d) s = t ∧ hostRead t (hostAddr sp i) = some (f v) ∧
      ∀ j, j ≠ i → Cells.get (Cells.writeRange c i [v]) j = Cells.get c j := by
  have hi : i < 2 ^ 56 := h.trans (capOk_lt hcap)
  exact ⟨(hostAccess_writeSpace hb hsp hi d).trans hwrite,
    hostRead_cell hsp hi hwin (decide_eq_true h) (Cells.get_writeOne c i v), fun _ => Cells.get_writeOne_other c v⟩

/-- Settles O15: the write is `Cells.writeRange` of one cell, and the read is of that cell. -/
theorem bufferWriteThenRead : Obligations.BufferWriteThenRead := by
  unfold Obligations.BufferWriteThenRead
  intro s i d hb hwf
  obtain ⟨hin, hname, hpay, _, harc⟩ := params_wf_iff.1 hwf
  refine ⟨fun h => ?inbuf, fun h => ?namebuf, fun h => ?paybuf, fun h haw har => ?arcbuf⟩
  case inbuf =>
    obtain ⟨hwrite, hread, hframe⟩ := hostAccess_writeCell hb (by decide) hin h (spaceWrite_inbuf d h) rfl
    exact ⟨_, hwrite, rfl, hread, hframe⟩
  case namebuf =>
    obtain ⟨hwrite, hread, hframe⟩ := hostAccess_writeCell hb (by decide) hname h (spaceWrite_namebuf d h) rfl
    exact ⟨_, hwrite, rfl, hread, hframe⟩
  case paybuf =>
    obtain ⟨hwrite, hread, hframe⟩ := hostAccess_writeCell hb (by decide) hpay h (spaceWrite_paybuf d h) rfl
    exact ⟨_, hwrite, rfl, hread, hframe⟩
  case arcbuf =>
    obtain ⟨hwrite, hread, hframe⟩ := hostAccess_writeCell hb (by decide) harc h (spaceWrite_arcbuf d h haw har) rfl
    exact ⟨_, hwrite, rfl, hread, hframe⟩

/-- Settles O17: the two locks of an open session. -/
theorem containerLockedDuringSession : Obligations.ContainerLockedDuringSession := by
  unfold Obligations.ContainerLockedDuringSession
  intro s i d hb hopen hi
  have hlen : regWrite 7 d s = s := (regWrite_arcLen s d).trans (if_pos (sessionOpen_true hopen))
  exact ⟨(hostAccess_writeSpace hb (by decide) hi d).trans (spaceWrite_arcbuf_locked d i hopen),
    (hostAccess_writeReg hb (by decide) d).trans hlen⟩

/-- Settles O19: no arm of the write speaks of these windows, and a read returns the written cell. -/
theorem readOnlyWindows : Obligations.ReadOnlyWindows := by
  unfold Obligations.ReadOnlyWindows
  intro s i d hb hi
  refine ⟨fun sp hsp => ?_, fun y h hv => ?_, fun w h hv => ?_, fun y h hv => ?_, ?_⟩
  · have hwindows : ∀ sp ∈ ([0x04, 0x06, 0x07, 0x08, 0x09] : List Nat), sp < 256 ∧ (sp = 0x04 ∨ 0x06 ≤ sp) := by decide
    obtain ⟨hlt, hreadOnly⟩ := hwindows sp hsp
    exact (hostAccess_writeSpace hb hlt hi d).trans (spaceWrite_readOnly d s i hreadOnly)
  · exact hostRead_cell (by decide) hi rfl (decide_eq_true h) hv
  · exact hostRead_cell (f := id) (by decide) hi rfl (decide_eq_true h) hv
  · exact hostRead_cell (by decide) hi rfl (decide_eq_true h) hv
  · rintro sym j b rfl hsym hj hv
    exact hostRead_cell (f := bitWord) (by decide) hi rfl (cbit_index_inRange hsym hj) hv

/-! ### Out of range (R66) -/

/-- CBIT[s][255] is outside, and so is any symbol from 256 on (R66). -/
theorem spaceRead_cbit_out (s : State) {i : Nat} (h : 65536 ≤ i ∨ i % 256 = 255) : spaceRead s 0x08 i = some 0 := by
  refine windowRead_out _ _ _ ?_
  rw [Bool.and_eq_false_iff, decide_eq_false_iff_not, decide_eq_false_iff_not]
  change ¬ i < 65536 ∨ ¬ i % 256 < 255
  omega

/-- Settles O16: at each such index the read gives 0 and the write gives the state back. -/
theorem outOfRangeAccessesAreDefined : Obligations.OutOfRangeAccessesAreDefined := by
  unfold Obligations.OutOfRangeAccessesAreDefined
  intro s sp i d hb hsp hi hout
  suffices h : spaceRead s sp i = some 0 ∧ spaceWrite sp i d s = s from
    h.imp (fun hread => hostAccess_read hb ((hostRead_hostAddr s hsp hi).trans hread)) (hostAccess_writeSpace hb hsp hi d).trans
  have outside : ∀ {α : Type} {cap : Nat} {c : Cells α} {j : Nat} {f : α → Word}, cap ≤ i → windowRead (i < cap) c j f = some 0 :=
    fun h => windowRead_out _ _ _ (decide_eq_false h.not_gt)
  rcases hout with ⟨rfl, h⟩ | ⟨rfl, h⟩ | ⟨rfl, h⟩ | ⟨rfl, h⟩ | ⟨rfl, h⟩ | ⟨rfl, h⟩ | ⟨rfl, h⟩ | ⟨rfl, h⟩ | ⟨rfl, h⟩ | ⟨rfl, h⟩ | h
  · exact ⟨congrArg some (regRead_high s (by omega)), regWrite_ignored d s (by omega) (by omega) (by omega) (by omega) (by omega)⟩
  · exact ⟨outside h, spaceWrite_inbuf_out d h⟩
  · exact ⟨outside h, spaceWrite_namebuf_out d h⟩
  · exact ⟨outside h, spaceWrite_paybuf_out d h⟩
  · exact ⟨outside h, spaceWrite_readOnly d s i (by decide)⟩
  · exact ⟨outside h, spaceWrite_arcbuf_out d h⟩
  · exact ⟨outside h, spaceWrite_readOnly d s i (by decide)⟩
  · exact ⟨outside h, spaceWrite_readOnly d s i (by decide)⟩
  · exact ⟨spaceRead_cbit_out s h, spaceWrite_readOnly d s i (by decide)⟩
  · exact ⟨outside h, spaceWrite_readOnly d s i (by decide)⟩
  · exact ⟨spaceRead_high s i h, spaceWrite_high s i d (by omega)⟩

end Sys2Proof.Machine
end

section
/-! SUPPORT. Command words (30_encoding.md R80 to R83): what the decoder selects, and the ENGINE's step on an illegal value. -/

namespace Sys2Proof.Machine

/-- A row that the lookup finds is one of the rows. -/
theorem lookupOpcode_mem {o : BitVec 8} {i : Instr} {rows : List (BitVec 8 × Instr)} (h : lookupOpcode o rows = .ok i) :
    (o, i) ∈ rows := by
  induction rows with
  | nil => cases h
  | cons row rows ih =>
    obtain ⟨p, j⟩ := row
    unfold lookupOpcode at h
    split at h
    · next hp =>
      cases h
      exact hp ▸ List.mem_cons_self
    · exact List.mem_cons_of_mem _ (ih h)

theorem lookupOpcode_opcodeOf (i : Instr) : lookupOpcode (opcodeOf i) opcodeMap = .ok i := by cases i <;> rfl

theorem opcodeMap_row : ∀ row ∈ opcodeMap, row.1 = opcodeOf row.2 := by decide

/-- The rows of the opcode map are the commands, each with its OPC (R82). -/
theorem mem_opcodeMap {o : BitVec 8} {i : Instr} : (o, i) ∈ opcodeMap ↔ o = opcodeOf i :=
  ⟨opcodeMap_row (o, i), fun h => h ▸ lookupOpcode_mem (lookupOpcode_opcodeOf i)⟩

theorem lookupOpcode_ok_iff {o : BitVec 8} {i : Instr} : lookupOpcode o opcodeMap = .ok i ↔ o = opcodeOf i :=
  ⟨fun h => mem_opcodeMap.1 (lookupOpcode_mem h), fun h => h ▸ lookupOpcode_opcodeOf i⟩

/-- A value selects a command exactly when its reserved bits are 0 and its OPC is the command's (R82). -/
theorem decode_ok_iff {v : Word} {i : Instr} : decode v = .ok i ↔ v.extractLsb' 8 56 = 0 ∧ v.extractLsb' 0 8 = opcodeOf i := by
  unfold decode
  split
  · next hrsv => exact lookupOpcode_ok_iff.trans (and_iff_right hrsv).symm
  · next hrsv => exact ⟨nofun, fun h => absurd h.1 hrsv⟩

/-- The word of a command has its OPC below 56 bits of 0, and no other word has (R80). -/
theorem eq_encode_iff {v : Word} {i : Instr} : v = encode i ↔ v.extractLsb' 8 56 = 0 ∧ v.extractLsb' 0 8 = opcodeOf i := by
  constructor
  · rintro rfl
    exact ⟨BitVec.extractLsb'_append_eq_left, BitVec.extractLsb'_append_eq_right⟩
  · rintro ⟨hrsv, hopc⟩
    have hv : v.extractLsb' 8 56 ++ v.extractLsb' 0 8 = v := BitVec.extractLsb'_append_extractLsb'
    rw [← hv, hrsv, hopc]
    rfl

/-- Settles O2: both sides say that the reserved bits are 0 and the OPC is the command's. -/
theorem commandSelectedExactlyByItsOpcode : Obligations.CommandSelectedExactlyByItsOpcode := by
  unfold Obligations.CommandSelectedExactlyByItsOpcode
  exact fun v i => ⟨decode_ok_iff.trans (and_congr_right fun _ => mem_opcodeMap.symm), decode_ok_iff.trans eq_encode_iff.symm⟩

/-! ### Illegal values (R83) -/

/-- The OPC values of R82 are those of the commands. -/
theorem mem_assignedOpcodes {o : BitVec 8} : o ∈ assignedOpcodes ↔ ∃ i, o = opcodeOf i := by
  have hmap : assignedOpcodes = opcodeMap.map Prod.fst := rfl
  rw [hmap, List.mem_map]
  exact ⟨fun ⟨⟨_, i⟩, hrow, ho⟩ => ⟨i, ho.symm.trans (opcodeMap_row _ hrow)⟩, fun ⟨i, ho⟩ => ⟨(o, i), mem_opcodeMap.2 ho, rfl⟩⟩

theorem exists_decode_ok_iff {v : Word} : (∃ i, decode v = .ok i) ↔ v.extractLsb' 8 56 = 0 ∧ v.extractLsb' 0 8 ∈ assignedOpcodes := by
  simp only [decode_ok_iff, exists_and_left, mem_assignedOpcodes]

/-- A value is illegal exactly when it selects no command. -/
theorem exists_decode_error_iff {v : Word} : (∃ e, decode v = .error e) ↔ ¬ ∃ i, decode v = .ok i := by cases decode v <;> simp

/-- The completion of an illegal value: both sessions close, and ERR_INFO takes the value. -/
theorem illegalCommand_eq (v : Word) (s : State) : illegalCommand v s =
    { sessionsClosed s with
      errInfo := v,
      status := { s.status with aw := .idle, ar := .idle, busy := false, done := true, err := true, errcode := .illegalCommand } } := by
  have hinfo : word v.toNat = v := BitVec.eq_of_toNat_eq (word_toNat v.isLt)
  unfold illegalCommand
  rw [errorCompletion_eq, hinfo]
  rfl

/-- Settles O3: a decoding is one command or an error, and the step on an error is `illegalCommand`. -/
theorem illegalCommandValues : Obligations.IllegalCommandValues := by
  unfold Obligations.IllegalCommandValues
  refine ⟨fun v => ?_, fun v => exists_decode_error_iff.trans ((not_congr exists_decode_ok_iff).trans not_and_or),
    fun s v hturn hbusy hpending herror => ?_⟩
  · cases hd : decode v with
    | ok i => exact .inl ⟨i, rfl, fun j hj => (Except.ok.inj hj).symm⟩
    | error e => exact .inr ⟨e, rfl⟩
  · obtain ⟨e, hd⟩ := herror
    rw [step_engineTurn hturn, engineStep_illegal (s := dropMove s) hbusy hpending hd, illegalCommand_eq]
    rfl

/-- Settles O1: the words, decoded one by one. -/
theorem sampleCommandWordsDecode : Obligations.SampleCommandWordsDecode := by
  unfold Obligations.SampleCommandWordsDecode
  decide

end Sys2Proof.Machine
end

section
/-! SUPPORT. What a command that succeeds writes, and what it leaves (30_encoding.md R81, 60_exceptions.md R254). -/

namespace Sys2Proof.Machine

/-- A command that completes with ERR = 0 has its effect and success completion; only the record of unwritten reads and the count of free
values may change besides. -/
theorem exec_succeeded {i : Instr} {s t : State} (h : exec i s = .next t) (herr : t.status.err = false) :
    ∃ u, Effect i s u ∧ t = { successCompletion u with faults := t.faults, draws := t.draws } := by
  obtain ⟨u, d, hu, rfl⟩ | ⟨r, d, _, rfl⟩ := exec_cases h
  · exact ⟨u, hu, by rw [noteReads_eq]⟩
  · rw [noteReads_status, errorCompletion_err] at herr
    cases herr

/-- RESET reads no cell, so it leaves the fault record (R231). -/
theorem exec_reset (s : State) : exec .reset s = .next (successCompletion (softReset s)) :=
  runCommand_gives (destinations .reset) (Eng.gives_ret _) rfl

/-- COMPRESS writes the three tables, their counts and the payload, and leaves a tree exactly where a symbol occurs (41_bitstream.md R150). -/
theorem CompressEffect.writes {s t : State} (h : CompressEffect s t) :
    t = { s with freq := t.freq, distinct := t.distinct, nodes := t.nodes, nodeCount := t.nodeCount, root := t.root, clen := t.clen,
                 cbit := t.cbit, codeCount := t.codeCount, paybuf := t.paybuf, payLen := t.payLen,
                 status := { s.status with freqV := true, treeV := decide (t.distinct ≠ 0), ctabV := true } } := by
  obtain ⟨s1, ⟨_, _, _, hf⟩, ⟨hzero, ht⟩ | ⟨hsome, s2, s3, ⟨_, _, _, _, _, _, hb⟩, ⟨_, _, hc, _⟩, ⟨_, _, ht⟩⟩⟩ := h
  · have hdistinct : t.distinct = 0 := by rw [ht]; exact hzero
    rw [decide_eq_false (not_not.2 hdistinct), ht, hf]
    rfl
  · have hdistinct : t.distinct ≠ 0 := by rw [ht, hc, hb]; exact hsome
    rw [decide_eq_true hdistinct, ht, hc, hb, hf]
    rfl

/-- Settles O9: each command's effect, completed in success, has the fields of `s` but for the listed ones. -/
theorem successChangesOnlyWhatTheTableLists : Obligations.SuccessChangesOnlyWhatTheTableLists := by
  unfold Obligations.SuccessChangesOnlyWhatTheTableLists
  intro i s t h herr base st
  obtain ⟨u, hu, ht⟩ := exec_succeeded h herr
  cases i
  case reset =>
    cases (exec_reset s).symm.trans h
    exact ⟨rfl, rfl, rfl, rfl, rfl⟩
  all_goals rw [ht]
  case nop | abort =>
    cases hu
    rfl
  case freq =>
    obtain ⟨_, _, _, rfl⟩ := hu
    rfl
  case build =>
    obtain ⟨_, _, _, _, _, _, rfl⟩ := hu
    rfl
  case codegen =>
    obtain ⟨_, _, _, rfl, _⟩ := hu
    rfl
  case compress =>
    rw [CompressEffect.writes hu]
    rfl
  case encode | decode =>
    obtain ⟨_, _, rfl⟩ := hu
    rfl
  case dinv =>
    obtain ⟨_, _, _, rfl⟩ := hu
    rfl
  case awbegin =>
    obtain ⟨_, _, rfl⟩ := hu
    rfl
  case awrec =>
    obtain ⟨_, _, _, rfl⟩ := hu
    rfl
  case awend =>
    obtain ⟨_, rfl⟩ := hu
    rfl
  case arbegin =>
    obtain ⟨_, _, _, _, _, rfl⟩ := hu
    rfl
  case arrec =>
    obtain ⟨_, _, _, _, _, _, _, rfl⟩ := hu
    rfl
  case arend =>
    obtain ⟨_, _, _, rfl⟩ := hu
    rfl
  case extract =>
    obtain ⟨_, ⟨_, _, _, _, _, _, _, rfl⟩, _, _, rfl⟩ := hu
    rfl

end Sys2Proof.Machine
end

section
/-! SUPPORT. FREQ and CODEGEN over operands that are written (40_huffman.md R100, R101, R120 to R123), and the order of PQmin (R111). -/

namespace Sys2Proof.Machine

/-- A command whose pseudocode answers `t` completes in success from `t` (60_exceptions.md R254). -/
theorem exec_gives {i : Instr} {s t : State} (h : (bodyOf i s).Gives t) (hd : t.draws = s.draws) :
    exec i s = .next (successCompletion t) := (exec_eq_run i s).trans (exec_success h hd)

theorem needTree_gives {s : State} (h : s.status.treeV = true) : (needTree s).Gives () := sequenceIf_gives (by simp [h])

/-! ### Counts -/

/-- An input that INBUF holds is short enough for a 64-bit count. -/
theorem InputIs.length_lt {s : State} {bs : List Byte} (h : InputIs s bs) : bs.length < 2 ^ 64 := by
  obtain ⟨_, hlen, _⟩ := h
  exact hlen ▸ s.inLen.isLt

/-- FREQ[sym] after FREQ is the number of occurrences (R100). -/
theorem freqCount_of_counts {t : State} {bs : List Byte} (hfreq : t.freq = cellsFrom 0 ((countBytes bs).map word))
    (hlt : bs.length < 2 ^ 64) {sym : Nat} (hsym : sym < 256) : freqCount t sym = occurrences sym bs := by
  have hfit : occurrences sym bs < 2 ^ 64 := (occurrences_le sym bs).trans_lt hlt
  simp only [freqCount, hfreq, get_counts hsym, word_toNat hfit]

/-- A symbol is present exactly when it is counted (R101). -/
theorem mem_iff_occurrences_pos {sym : Byte} {bs : List Byte} : sym ∈ bs ↔ 1 ≤ occurrences sym.toNat bs := by
  have hpresent : sym.toNat ∈ presentIn bs ↔ sym ∈ bs := by
    rw [mem_presentIn, byte_of_toNat, and_iff_right sym.isLt]
  rw [← hpresent, presentIn, List.mem_filter, decide_eq_true_iff, and_iff_right (mem_symbols.2 sym.isLt)]

/-- Settles O27: FREQ's body leaves the counts of the input, and the counts of all byte values sum to its length. -/
theorem freqCountsEveryByte : Obligations.FreqCountsEveryByte := by
  unfold Obligations.FreqCountsEveryByte
  intro s bs hin
  have hbody : (bodyOf .freq s).Gives (freqResult s bs) := (needInCap_gives hin).andThen (freqBody_gives hin)
  have hcount : ∀ sym, sym < 256 → freqCount (successCompletion (freqResult s bs)) sym = occurrences sym bs :=
    fun sym => freqCount_of_counts rfl hin.length_lt
  refine ⟨_, exec_gives hbody rfl, rfl, fun sym => get_counts, fun i hi => ?_, ?_, fun sym => ?_⟩
  · exact (Cells.exactly_cellsFrom _).2 i (by simpa [countBytes, symbols_length] using hi)
  · rw [List.map_congr_left fun sym hsym => hcount sym (mem_symbols.1 hsym), sum_occurrences]
    exact hin.2.1.symm
  · rw [hcount sym.toNat sym.isLt]
    exact mem_iff_occurrences_pos

/-! ### Keys -/

/-- Not to come before a key is to be at least that key: weight first, then id (R111). -/
theorem keyLt_eq_false {x k : PQKey} : keyLt x k = false ↔ k.1 < x.1 ∨ k.1 = x.1 ∧ k.2 ≤ x.2 := by
  simp only [keyLt, Bool.or_eq_false_iff, Bool.and_eq_false_iff, beq_eq_false_iff_ne, decide_eq_false_iff_not]
  omega

/-- Settles O29: PQmin answers a member that none comes before. -/
theorem pqMinIsTheSmallestKey : Obligations.PqMinIsTheSmallestKey := by
  unfold Obligations.PqMinIsTheSmallestKey
  exact fun k ks => ⟨pqMin_mem k ks, fun x hx => keyLt_eq_false.1 (pqMin_least k ks x hx)⟩

/-! ### Codes -/

/-- Settles O32: paths from one root are apart, and shorter than the tree has leaves. -/
theorem treeCodesArePrefixFree : Obligations.TreeCodesArePrefixFree := by
  unfold Obligations.TreeCodesArePrefixFree
  exact fun tree hdistinct => ⟨codes_syms tree, codes_legal hdistinct, codes_prefixFree tree⟩

/-- A tree with distinct symbols gives as many codes as it has leaves (R122). -/
theorem codeCountOf_codes {tree : CodeTree} (h : tree.syms.Nodup) : codeCountOf tree.codes = tree.syms.length := by
  obtain ⟨hlength, hdistinct, _⟩ := codes_legal h
  rw [codeCountOf_eq hdistinct fun e he => (hlength e he).1, ← codes_syms, List.length_map]

/-- Settles O33: the walk finds the codes of the tree, and the table written is the table of those codes. -/
theorem codegenWritesThePaths : Obligations.CodegenWritesThePaths := by
  unfold Obligations.CodegenWritesThePaths
  intro s tree htree hrep hdistinct
  have hbody : (bodyOf .codegen s).Gives (s.withCodes tree.codes (codeCountOf tree.codes)) :=
    (needTree_gives htree).andThen (codegenBody_gives hrep hdistinct)
  rw [codeCountOf_codes hdistinct] at hbody
  have hshort : ∀ e ∈ tree.codes, e.2.length ≤ 255 := fun e he => (codes_length hdistinct e he).2
  obtain ⟨htable, hpast⟩ :=
    ctabExactly_of (t := successCompletion (s.withCodes tree.codes tree.syms.length)) hshort rfl rfl
  refine ⟨_, exec_gives hbody rfl, rfl, htable, fun sym j hsym hj hj' => ?_⟩
  have hcell := hpast (byte sym) j hj hj'
  rwa [byte_toNat (by omega)] at hcell

end Sys2Proof.Machine
end

section
/-! SUPPORT. The tree that BUILD leaves (40_huffman.md R110 to R113): what the merge loop's invariant says at its end, when one member is
left, for every admissible tie-break (93_implementation_defined.md I1). -/

namespace Sys2Proof.Machine

/-! ### The end of the merge loop -/

section
variable {leaves nodes : List Node} {T : Nat → CodeTree} {w root : Nat}

/-- `n` leaves make `2n-1` nodes (R112). -/
theorem MergeInv.nodes_length (h : MergeInv leaves T nodes [(w, root)]) : nodes.length = 2 * leaves.length - 1 := by
  have hcount := h.count
  rw [List.length_singleton] at hcount
  omega

/-- Every id is a child once, but the root, which is none (R112). -/
theorem MergeInv.childIds_perm (h : MergeInv leaves T nodes [(w, root)]) :
    (root :: childIds nodes).Perm (List.range (2 * leaves.length - 1)) := by
  rw [← h.nodes_length]
  exact (List.perm_append_singleton root (childIds nodes)).symm.trans h.ids

theorem MergeInv.childIds_nodup (h : MergeInv leaves T nodes [(w, root)]) : (childIds nodes).Nodup :=
  (List.nodup_cons.1 (h.childIds_perm.nodup_iff.2 List.nodup_range)).2

theorem MergeInv.mem_childIds_iff (h : MergeInv leaves T nodes [(w, root)]) {i : Nat} :
    i ∈ childIds nodes ↔ i < 2 * leaves.length - 1 ∧ i ≠ root := by
  have hroot := (List.nodup_cons.1 (h.childIds_perm.nodup_iff.2 List.nodup_range)).1
  rw [← List.mem_range, ← h.childIds_perm.mem_iff, List.mem_cons]
  constructor
  · exact fun hi => ⟨.inr hi, fun he => hroot (he ▸ hi)⟩
  · exact fun ⟨hi, hne⟩ => hi.resolve_left hne

theorem MergeInv.root_lt (h : MergeInv leaves T nodes [(w, root)]) : root < 2 * leaves.length - 1 :=
  List.mem_range.1 (h.childIds_perm.mem_iff.1 List.mem_cons_self)

/-- The root is the only leaf, or the node made last (R112). -/
theorem MergeInv.root_eq (h : MergeInv leaves T nodes [(w, root)]) :
    root = if leaves.length = 1 then 0 else 2 * leaves.length - 2 := by
  have hlength := h.nodes_length
  have hroot := h.root_lt
  rcases h.last with hnone | ⟨k, hk, hlast⟩
  · rw [hnone] at hlength
    split <;> omega
  · rw [List.mem_singleton.1 hk] at hlast
    split <;> omega

theorem MergeInv.get_leaf (h : MergeInv leaves T nodes [(w, root)]) {i : Nat} (hi : i < leaves.length) :
    Cells.get (cellsFrom 0 nodes) i = leaves[i]? := by
  obtain ⟨ins, hgrown, _⟩ := h.grown
  rw [get_arena, hgrown, List.getElem?_append_left hi]

theorem MergeInv.get_inner (h : MergeInv leaves T nodes [(w, root)]) {i : Nat} (hi : leaves.length ≤ i)
    (hlt : i < 2 * leaves.length - 1) : ∃ wt a b, Cells.get (cellsFrom 0 nodes) i = some (.inner wt a b) := by
  obtain ⟨ins, hgrown, hinner⟩ := h.grown
  have hlength := h.nodes_length
  obtain ⟨node, hnode⟩ : ∃ node, nodes[i]? = some node := ⟨_, List.getElem?_eq_getElem (by omega)⟩
  have hmem : node ∈ ins := by
    rw [hgrown, List.getElem?_append_right hi] at hnode
    exact List.mem_of_getElem? hnode
  obtain ⟨wt, a, b, rfl⟩ := hinner node hmem
  exact ⟨wt, a, b, (get_arena nodes i).trans hnode⟩

theorem MergeInv.get_past (h : MergeInv leaves T nodes [(w, root)]) {i : Nat} (hi : 2 * leaves.length - 1 ≤ i) :
    Cells.get (cellsFrom 0 nodes) i = none := by
  rw [get_arena]
  exact List.getElem?_eq_none (h.nodes_length ▸ hi)

theorem MergeInv.represents (h : MergeInv leaves T nodes [(w, root)]) : Represents (cellsFrom 0 nodes) root (T root) :=
  h.rep _ (List.mem_singleton_self _)

theorem MergeInv.leaves_perm (h : MergeInv leaves T nodes [(w, root)]) : (T root).leaves.Perm (leaves.filterMap leafEntry) :=
  (List.flatMap_singleton (f := fun k : PQKey => (T k.2).leaves) (w, root)) ▸ h.leaf

/-- Where the leaves' weights fit 64 bits together, each node weighs what the leaves below it do, and so the root their sum (R113). -/
theorem MergeInv.summed (h : MergeInv leaves T nodes [(w, root)]) (hfit : (leaves.map fun n => n.weight.toNat).sum < 2 ^ 64) :
    (T root).summed ∧ (T root).weight.toNat = (leaves.map fun n => n.weight.toNat).sum := by
  obtain ⟨hsummed, hweight⟩ := h.weight hfit _ (List.mem_singleton_self _)
  exact ⟨hsummed, hweight.trans (by simpa using h.total)⟩

end

/-- With PQmin for the choice the merging is greedy (R110, R111). -/
theorem buildTree_greedy {leaves : List Node} (hn : leaves.length ≤ 256) (hl : ∀ n ∈ leaves, ∃ w sym, n = Node.leaf w sym)
    (hfit : (leaves.map fun n => n.weight.toNat).sum < 2 ^ 64) {m : Nat} (hm : leaves.length ≤ m)
    (hlt : m < (buildTree pqMin leaves).1.length) : MergesTheTwoLeast (cellsFrom 0 (buildTree pqMin leaves).1) m :=
  mergeLoop_greedy hn hfit leaves.length (mergeInv_start leaves hl) (fun _ hle hlt => absurd hlt (Nat.not_lt.2 hle)) m hm hlt

/-- Settles O31: an admissible pick answers a member, which is all that the merge loop's invariant asks of it. -/
theorem anyTieBreakMakesATree : Obligations.AnyTieBreakMakesATree := by
  unfold Obligations.AnyTieBreakMakesATree
  intro pick hpick ws hws hne n r
  have hfew : (leavesFrom 0 ws).length ≤ 256 := (leavesFrom_length ws 0).trans hws
  obtain ⟨T, w, h⟩ := buildTree_inv (fun k ks => (hpick k ks).1) hfew hne leavesFrom_leaf
  refine ⟨T r.2, h.nodes_length, h.represents, h.leaves_perm, ?_⟩
  rw [syms_eq_leaves]
  exact (h.leaves_perm.map Prod.fst).nodup_iff.2 (leavesFrom_syms_nodup ws hws)

/-! ### BUILD -/

/-- The leaves that BUILD makes: one for each present symbol, ascending, with its count (R110). -/
def countLeaves (s : State) : List Node := (presentSymbols s).map fun sym => Node.leaf (word (freqCount s sym)) (byte sym)

theorem countLeaves_length (s : State) : (countLeaves s).length = (presentSymbols s).length := List.length_map _

theorem countLeaves_length_le (s : State) : (countLeaves s).length ≤ 256 := by
  rw [countLeaves_length, ← symbols_length]
  exact List.length_filter_le _ _

theorem countLeaves_leaf (s : State) : ∀ n ∈ countLeaves s, ∃ w sym, n = Node.leaf w sym := by
  intro n hn
  obtain ⟨sym, _, rfl⟩ := List.mem_map.1 hn
  exact ⟨_, _, rfl⟩

theorem countLeaves_entries (s : State) :
    (countLeaves s).filterMap leafEntry = (presentSymbols s).map fun sym => (byte sym, word (freqCount s sym)) := by
  rw [countLeaves, List.filterMap_map, ← List.filterMap_eq_map]
  rfl

theorem countLeaves_getElem? (s : State) {i : Nat} (h : i < (presentSymbols s).length) :
    (countLeaves s)[i]? = some (.leaf (word (freqCount s (presentSymbols s)[i])) (byte (presentSymbols s)[i])) := by
  rw [countLeaves, List.getElem?_map, List.getElem?_eq_getElem h, Option.map_some]

/-- The leaves weigh together what all counts sum to: a symbol without a leaf counts 0. -/
theorem countLeaves_weight (s : State) : ((countLeaves s).map fun n => n.weight.toNat).sum = (symbols.map (freqCount s)).sum := by
  rw [← sum_filter_pos symbols (freqCount s), ← presentSymbols_eq, countLeaves, List.map_map]
  exact congrArg List.sum (List.map_congr_left fun sym _ => word_toNat (freqCount_lt s sym))

/-- What BUILD leaves when it makes the nodes and the root of `r`, short of its completion (R110). -/
def buildResult (s : State) (r : List Node × Nat) : State :=
  { s with nodes := cellsFrom 0 r.1, root := word r.2, nodeCount := word r.1.length, status := { s.status with treeV := true } }

theorem buildBody_gives_tree {s : State} (hwritten : ∀ sym, sym < 256 → (Cells.get s.freq sym).isSome = true)
    (hne : countLeaves s ≠ []) : (buildBody s).Gives (buildResult s (buildTree pqMin (countLeaves s))) := by
  have hread := readFreq_gives (by rw [List.length_map, symbols_length]) (freq_holds hwritten)
  have hpick : pickOf s.params.tieBreak = pqMin := by cases s.params.tieBreak; rfl
  refine hread.andThen ?_
  rw [leavesFrom_counts, hpick]
  exact (Eng.raiseIf_gives _ _ (List.isEmpty_eq_false_iff.2 hne)).andThen (Eng.gives_ret _)

/-- Settles O30: the merge loop over the leaves of the counts, read at its end field by field. -/
theorem buildMakesTheCodeTree : Obligations.BuildMakesTheCodeTree := by
  unfold Obligations.BuildMakesTheCodeTree
  intro s hfreq hwritten hpresent n
  have hne : countLeaves s ≠ [] := List.map_eq_nil_iff.not.2 hpresent
  have hn : (countLeaves s).length = n := countLeaves_length s
  have hfew := countLeaves_length_le s
  have hbody : (bodyOf .build s).Gives (buildResult s (buildTree pqMin (countLeaves s))) :=
    (needFreq_gives hfreq).andThen (buildBody_gives_tree hwritten hne)
  obtain ⟨T, w, h⟩ := buildTree_inv pqMin_mem hfew hne (countLeaves_leaf s)
  have hgreedy := fun hfit m => buildTree_greedy (m := m) hfew (countLeaves_leaf s) hfit
  generalize buildTree pqMin (countLeaves s) = r at *
  have hlength := h.nodes_length
  have hroot := h.root_eq
  have hsummed := h.summed
  rw [countLeaves_weight] at hgreedy hsummed
  have hword : word r.2 = if n = 1 then 0 else word (2 * n - 2) := by
    rw [hroot, hn]
    split <;> rfl
  have hrootNat : (word r.2).toNat = r.2 := word_toNat (by have := h.root_lt; omega)
  refine ⟨successCompletion (buildResult s r), T r.2, exec_gives hbody rfl, ?_, fun i hi => ?_,
    fun i hi hlt => h.get_inner (hn ▸ hi) (hn ▸ hlt), fun i hi => h.get_past (hn ▸ hi), ?_, ?_, ?_, fun i => ?_, fun hfit => ?_⟩
  · rw [← hword, ← hn, ← hlength]
    rfl
  · exact (h.get_leaf (hn ▸ hi)).trans (countLeaves_getElem? s hi)
  · exact hrootNat.symm ▸ h.represents
  · exact countLeaves_entries s ▸ h.leaves_perm
  · exact (cellsFrom_values r.1 0).symm ▸ h.childIds_nodup
  · change i ∈ childIds ((cellsFrom 0 r.1).map Prod.snd) ↔ i < 2 * n - 1 ∧ i ≠ (word r.2).toNat
    rw [cellsFrom_values, hrootNat, ← hn]
    exact h.mem_childIds_iff
  · obtain ⟨hsum, hweight⟩ := hsummed hfit
    exact ⟨hsum, hweight, fun m hm hlt => hgreedy hfit m (by omega) (by omega)⟩

end Sys2Proof.Machine
end

section
/-! SUPPORT. ENCODE, DINV and DECODE over tables and a payload that are written (41_bitstream.md R140, R161, R170), and the errors they end in. -/

namespace Sys2Proof.Machine

/-- A piece that answers `a` and reads no unwritten cell leaves what comes after it. -/
theorem Eng.Gives.andThen_eq {α β : Type} {m : Eng α} {a : α} (hm : m.Gives a) (f : α → Eng β) : m.andThen f = f a :=
  funext fun d => Eng.andThen_ok (hm d)

/-! ### ENCODE -/

/-- What ENCODE leaves after the bits `c`, short of its completion (R140). -/
def encodeResult (s : State) (c : Code) : State := { s with paybuf := cellsFrom 0 c, payLen := word c.length }

section
variable {s : State} {f : Byte → Code}

theorem encodeBody_gives {bs : List Byte} (htable : CtabIs s f) (hin : InputIs s bs) (hcoded : ∀ b ∈ bs, f b ≠ [])
    (hfit : (bs.flatMap f).length ≤ s.params.payCap.toNat) : (encodeBody s).Gives (encodeResult s (bs.flatMap f)) := by
  obtain ⟨hholds, hlen, _⟩ := hin
  refine Eng.Gives.andThen ?_ (Eng.gives_ret _)
  rw [hlen]
  exact encodeLoop_gives htable hholds hcoded (by omega)

variable {pre post : List Byte} {b : Byte}

theorem encodeBody_missingCode (htable : CtabIs s f) (hin : InputIs s (pre ++ b :: post)) (hcoded : ∀ x ∈ pre, f x ≠ [])
    (hfit : (pre.flatMap f).length ≤ s.params.payCap.toNat) (hb : f b = []) : (encodeBody s).Raises .missingCode pre.length := by
  obtain ⟨hholds, hlen, _⟩ := hin
  have hloop := (encodeLoop_raises htable (p := 0) hholds hcoded (by omega)).1 hb
  rw [Nat.zero_add, ← hlen] at hloop
  exact hloop.andThen

theorem encodeBody_capacity (htable : CtabIs s f) (hin : InputIs s (pre ++ b :: post)) (hcoded : ∀ x ∈ pre, f x ≠ [])
    (hfit : (pre.flatMap f).length ≤ s.params.payCap.toNat) (hb : f b ≠ [])
    (hover : s.params.payCap.toNat < (pre.flatMap f).length + (f b).length) : (encodeBody s).Raises .capacity 5 := by
  obtain ⟨hholds, hlen, _⟩ := hin
  have hloop := (encodeLoop_raises htable (p := 0) hholds hcoded (by omega)).2 hb (by omega)
  rw [← hlen] at hloop
  exact hloop.andThen

end

/-- ENCODE's two checks pass over a valid table and an input that INBUF holds (R140). -/
theorem bodyOf_encode {s : State} {bs : List Byte} (hctab : s.status.ctabV = true) (hin : InputIs s bs) :
    bodyOf .encode s = encodeBody s :=
  ((needCtab_gives hctab).andThen_eq _).trans ((needInCap_gives hin).andThen_eq _)

/-- Settles O34: the loop's result over coded bytes whose codes fit. -/
theorem encodeConcatenatesCodes : Obligations.EncodeConcatenatesCodes := by
  unfold Obligations.EncodeConcatenatesCodes
  intro s f bs hctab htable hin hcoded hfit
  have hbody := encodeBody_gives htable hin hcoded hfit
  rw [← bodyOf_encode hctab hin] at hbody
  refine ⟨_, exec_gives hbody rfl, ?_, Cells.exactly_cellsFrom _⟩
  rw [← List.length_flatMap]
  rfl

/-- Settles O35: the loop stops at the first byte without a code, or whose code does not fit. -/
theorem encodeErrors : Obligations.EncodeErrors := by
  unfold Obligations.EncodeErrors
  intro s f pre post b hctab htable hin hcoded hfit
  have hbody := bodyOf_encode hctab hin
  constructor
  · intro hb
    exact exec_raises (hbody ▸ encodeBody_missingCode htable hin hcoded hfit hb)
  · intro hb hover
    exact exec_raises (hbody ▸ encodeBody_capacity htable hin hcoded hfit hb hover)

/-! ### DINV -/

/-- What DINV leaves over the code table `f`, short of its completion (R160). -/
def invertResult (s : State) (f : Byte → Code) : State :=
  { s with dtab := inverseOf f symbols, status := { s.status with dtabV := true } }

theorem invertBody_gives {s : State} {f : Byte → Code} (htable : CtabIs s f) (hdiffer : CodesDiffer f) :
    (invertBody s).Gives (invertResult s f) :=
  (invertLoop_gives htable (fun _ => mem_symbols.1) (inverseOf_symbols_nodup hdiffer)).andThen (Eng.gives_ret _)

/-- The symbols, cut at one of them. -/
theorem symbols_split (y : Byte) : symbols = List.range y.toNat ++ y.toNat :: List.range' (y.toNat + 1) (255 - y.toNat) := by
  have happend := List.range'_append_1 (s := 0) (m := y.toNat) (n := 255 - y.toNat + 1)
  rw [Nat.zero_add, show y.toNat + (255 - y.toNat + 1) = 256 by omega, List.range'_succ] at happend
  rw [List.range_eq_range', happend, symbols, Config.nsym, List.range_eq_range']

/-- The first symbol whose code an earlier one has is named (R161). -/
theorem invertBody_raises {s : State} {f : Byte → Code} (htable : CtabIs s f) {x y : Byte} (hy : f y ≠ []) (hxy : x.toNat < y.toNat)
    (hsame : f x = f y) (hfirst : ∀ x z : Byte, x.toNat < z.toNat → z.toNat < y.toNat → f z ≠ [] → f x ≠ f z) :
    (invertBody s).Raises .archiveFormat y.toNat := by
  have hbound : ∀ sym ∈ List.range y.toNat, sym < 256 := fun sym hsym => (List.mem_range.1 hsym).trans y.isLt
  have hbelow : ∀ sym ∈ List.range y.toNat, (byte sym).toNat = sym := fun sym hsym => byte_toNat (Nat.le_of_lt_succ (hbound sym hsym))
  have hdistinct : ((inverseOf f (List.range y.toNat)).map Prod.fst).Nodup := by
    refine inverseOf_nodup List.nodup_range fun a ha c hc hne he => ?_
    have hac := hfirst (byte a) (byte c)
    have hca := hfirst (byte c) (byte a)
    rw [hbelow a ha, hbelow c hc] at hac hca
    rcases Nat.lt_trichotomy a c with hlt | heq | hgt
    · exact absurd he (hac hlt (List.mem_range.1 hc) (he ▸ hne))
    · exact heq
    · exact absurd he.symm (hca hgt (List.mem_range.1 ha) hne)
  have hdup : (dtabGet (inverseOf f (List.range y.toNat)) (f y)).isSome = true :=
    dtabGet_isSome.2 ⟨_, mem_inverseOf.2 ⟨x.toNat, List.mem_range.2 hxy, by rwa [byte_of_toNat, hsame], rfl⟩, by
      rw [byte_of_toNat, hsame]⟩
  have hlen : (byte (f y).length).toNat = (f y).length := byte_toNat (htable y).1
  have hloop : (invertLoop s symbols []).Raises .archiveFormat y.toNat := by
    rw [symbols_split y, invertLoop_append htable hbound (by simpa using hdistinct), List.nil_append, invertLoop]
    refine (readLen_gives htable y).andThen_raises ?_
    rw [hlen, if_neg (List.length_eq_zero_iff.not.2 hy)]
    exact (readCode_gives htable y).andThen_raises (formatIf_raises hdup).andThen
  exact hloop.andThen

/-- Settles O38: Invert over all symbols, and Invert up to the first code that is there already. -/
theorem dinvInvertsTheCodeTable : Obligations.DinvInvertsTheCodeTable := by
  unfold Obligations.DinvInvertsTheCodeTable
  intro s f hctab htable
  constructor
  · intro hdiffer
    have hbody : (bodyOf .dinv s).Gives (invertResult s f) := (needCtab_gives hctab).andThen (invertBody_gives htable hdiffer)
    exact ⟨_, exec_gives hbody rfl, rfl, dtabIs_inverseOf hdiffer rfl⟩
  · rintro y hy ⟨x, hxy, hsame⟩ hfirst
    exact exec_raises (i := .dinv) ((needCtab_gives hctab).andThen_raises (invertBody_raises htable hy hxy hsame hfirst))

/-! ### DECODE -/

/-- What DECODE leaves after the bytes `bs`, short of its completion (R170). -/
def decodeResult (s : State) (bs : List Byte) : State := { s with outbuf := cellsFrom 0 bs, outLen := word bs.length }

section
variable {s : State} {f : Byte → Code} {bs : List Byte} {rest : Code}

/-- DECODE's two checks pass over a valid decode table and a payload that PAYBUF holds (R170). -/
theorem decodeBody_eq {c : Code} (hdtab : s.status.dtabV = true) (hpay : PayloadIs s c) :
    decodeBody s = (decodeLoop s c.length 0 [] 0 0).andThen fun ys => Eng.ret (decodeResult s ys) := by
  rw [decodeBody, (needDtab_gives hdtab).andThen_eq, (needPayCap_gives hpay).andThen_eq, hpay.2.1]
  rfl

theorem decodeBody_gives (hdtab : s.status.dtabV = true) (htable : DtabIs s f) (hmatch : FirstMatch f bs)
    (hpay : PayloadIs s (bs.flatMap f)) (hfit : bs.length ≤ s.params.outCap.toNat) : (decodeBody s).Gives (decodeResult s bs) := by
  rw [decodeBody_eq hdtab hpay]
  exact (decodeLoop_gives htable hmatch hpay.1 (by omega)).andThen (Eng.gives_ret _)

theorem decodeBody_truncated (hdtab : s.status.dtabV = true) (htable : DtabIs s f) (hmatch : FirstMatch f bs)
    (hpay : PayloadIs s (bs.flatMap f ++ rest)) (hfit : bs.length ≤ s.params.outCap.toNat) (hrest : rest ≠ [])
    (hno : ∀ b, f b ≠ [] → ¬ f b <+: rest) : (decodeBody s).Raises .truncatedPayload (bs.flatMap f).length := by
  obtain ⟨hcodes, hleft⟩ := Cells.holds_append.1 hpay.1
  have hstuck := decodeLoop_truncated htable (o := bs.length) (start := (bs.flatMap f).length) (cand := []) hleft hrest hno
  rw [decodeBody_eq hdtab hpay, List.length_append]
  refine (decodeLoop_raises htable hmatch hcodes (by omega) ?_).andThen
  simpa only [Nat.zero_add] using hstuck

theorem decodeBody_capacity (hdtab : s.status.dtabV = true) (htable : DtabIs s f) (hmatch : FirstMatch f bs)
    (hpay : PayloadIs s (bs.flatMap f ++ rest)) (hover : s.params.outCap.toNat < bs.length) : (decodeBody s).Raises .capacity 6 := by
  rw [decodeBody_eq hdtab hpay]
  exact (decodeLoop_capacity htable hmatch hpay.1 (Nat.zero_le _) (by omega)).andThen

end

/-- Settles O39: where no code begins another, no code but its own begins a byte's code, and the loop emits one byte for each code. -/
theorem decodeGivesTheBytes : Obligations.DecodeGivesTheBytes := by
  unfold Obligations.DecodeGivesTheBytes
  refine ⟨fun f bs hfree hcoded => firstMatch_of_prefixFree hfree hcoded, fun s f bs hdtab htable hmatch hpay hfit => ?_⟩
  have hbody : (bodyOf .decode s).Gives (decodeResult s bs) := decodeBody_gives hdtab htable hmatch hpay hfit
  exact ⟨_, exec_gives hbody rfl, rfl, Cells.exactly_cellsFrom _⟩

/-- Settles O40: DECODE's body over what PAYBUF holds, for EXTRACT after the ARREC that put it there. -/
theorem decodeErrors : Obligations.DecodeErrors := by
  unfold Obligations.DecodeErrors
  refine ⟨fun s f bs rest hdtab htable hmatch hpay => ⟨fun hfit hrest hno => ?_, fun hover => ?_⟩, ?_⟩
  · exact exec_raises (i := .decode) (decodeBody_truncated hdtab htable hmatch hpay hfit hrest hno)
  · exact exec_raises (i := .decode) (decodeBody_capacity hdtab htable hmatch hpay hover)
  · intro s name bs ct rest hopen hremain hct hmatch payload hname hpayload hholds hend
    have harrec : (arrecBody s).Gives (arrecResult s name payload ct) := arrecBody_gives hopen hremain hct hname hpayload hholds hend
    have htable : DtabIs (arrecResult s name payload ct) (tableOf ct) := dtabIs_inverseOf (codesDiffer_tableOf hct.2.2) rfl
    have hpay : PayloadIs (arrecResult s name payload ct) payload :=
      ⟨Cells.holds_cellsFrom _ _, word_toNat (hpayload.trans_lt s.params.payCap.isLt), hpayload⟩
    refine ⟨fun hfit hrest hno => ?_, fun hover => ?_⟩
    · exact exec_raises (i := .extract) (harrec.andThen_raises (decodeBody_truncated rfl htable hmatch hpay hfit hrest hno))
    · exact exec_raises (i := .extract) (harrec.andThen_raises (decodeBody_capacity rfl htable hmatch hpay hover))

end Sys2Proof.Machine
end

section
/-! SUPPORT. COMPRESS (41_bitstream.md R150, R151): the chain FREQ, BUILD, CODEGEN, ENCODE over an input that is not empty, EmptyBody over one
that is; and the round trip with DINV and DECODE (R172). -/

namespace Sys2Proof.Machine

/-! ### The chain -/

/-- BUILD's check passes over valid counts (R110). -/
theorem bodyOf_build {s : State} (hfreq : s.status.freqV = true) : bodyOf .build s = buildBody s := (needFreq_gives hfreq).andThen_eq _

/-- CODEGEN's check passes over a valid tree (R120). -/
theorem bodyOf_codegen {s : State} (htree : s.status.treeV = true) : bodyOf .codegen s = codegenBody s :=
  (needTree_gives htree).andThen_eq _

/-- What FREQ, BUILD and CODEGEN leave of the input `bs` in turn, short of their completion: the counts, the nodes and the root of `r`, and the
codes of `tree` (R150). -/
def codedResult (s : State) (bs : List Byte) (r : List Node × Nat) (tree : CodeTree) : State :=
  (buildResult (freqResult s bs) r).withCodes tree.codes (codeCountOf tree.codes)

theorem freqResult_written {s : State} {bs : List Byte} : ∀ sym, sym < 256 → (Cells.get (freqResult s bs).freq sym).isSome = true :=
  fun _ hsym => Option.isSome_iff_exists.2 ⟨_, get_counts hsym⟩

section
variable {s : State} {bs : List Byte}

theorem presentSymbols_freqResult (hin : InputIs s bs) : presentSymbols (freqResult s bs) = presentIn bs :=
  presentSymbols_freq hin.length_lt rfl

/-- DISTINCT after FREQ is 0 for the empty input alone (R101). -/
theorem freqResult_distinct_ne_zero (hne : bs ≠ []) : (freqResult s bs).distinct ≠ 0 := by
  have hpos := List.length_pos_iff.2 (presentIn_ne_nil hne)
  have hfew := presentIn_length bs
  intro hzero
  have hlen : (word (presentIn bs).length).toNat = 0 := congrArg BitVec.toNat hzero
  rw [word_toNat (by omega)] at hlen
  omega

/-- BUILD's body after FREQ, before or after FREQ's completion (R110). -/
theorem buildBody_after_freq (hin : InputIs s bs) (hne : bs ≠ []) :
    ∃ tree r, Built (freqResult s bs) tree r ∧ (buildBody (freqResult s bs)).Gives (buildResult (freqResult s bs) r) ∧
      (buildBody (successCompletion (freqResult s bs))).Gives (buildResult (successCompletion (freqResult s bs)) r) := by
  obtain ⟨tree, r, hbuilt, hbuild⟩ := buildBody_gives freqResult_written
    (presentSymbols_freqResult hin ▸ presentIn_ne_nil hne : presentSymbols (freqResult s bs) ≠ [])
  exact ⟨tree, r, hbuilt, hbuild _ rfl rfl, hbuild _ rfl rfl⟩

variable {tree : CodeTree} {r : List Node × Nat}

/-- CODEGEN's body in every state whose NODES and ROOT are BUILD's (R120). -/
theorem Built.codegen {u v : State} (h : Built u tree r) (hnodes : v.nodes = cellsFrom 0 r.1) (hroot : v.root = word r.2) :
    (codegenBody v).Gives (v.withCodes tree.codes (codeCountOf tree.codes)) := by
  refine codegenBody_gives ?_ h.nodup
  rw [hnodes, hroot, word_toNat (by have := h.root; omega)]
  exact h.rep

/-- BUILD after a completion that left FREQ valid (R110). -/
theorem exec_build_completed {u : State} (hfreq : u.status.freqV = true)
    (hbuild : (buildBody (successCompletion u)).Gives (buildResult (successCompletion u) r)) :
    exec .build (successCompletion u) = .next (successCompletion (buildResult u r)) := by
  rw [← bodyOf_build (s := successCompletion u) hfreq] at hbuild
  exact (exec_gives hbuild rfl).trans rfl

/-- CODEGEN after BUILD's completion (R120). -/
theorem Built.exec_codegen {u v : State} (h : Built u tree r) : exec .codegen (successCompletion (buildResult v r)) =
    .next (successCompletion ((buildResult v r).withCodes tree.codes (codeCountOf tree.codes))) := by
  have hcodegen := h.codegen (v := successCompletion (buildResult v r)) rfl rfl
  rw [← bodyOf_codegen rfl] at hcodegen
  exact (exec_gives hcodegen rfl).trans rfl

/-- The table that CODEGEN leaves is the table of the tree's codes (R121). -/
theorem Built.ctabIs {u : State} (h : Built u tree r) : CtabIs (codedResult s bs r tree) (tableOf tree.codes) :=
  ctabIs_of (fun e he => (codes_length h.nodup e he).2) rfl rfl

/-- Exactly the bytes of the input have a code (R123). -/
theorem Built.coded_iff (hin : InputIs s bs) (h : Built (freqResult s bs) tree r) (b : Byte) : tableOf tree.codes b ≠ [] ↔ b ∈ bs :=
  codes_of_input (presentSymbols_freqResult hin) h.syms h.nodup b

/-- COMPRESS of an input that is not empty is ENCODE's body after the three others (R150). -/
theorem bodyOf_compress (hin : InputIs s bs) (hne : bs ≠ []) (h : Built (freqResult s bs) tree r)
    (hbuild : (buildBody (freqResult s bs)).Gives (buildResult (freqResult s bs) r)) :
    bodyOf .compress s = encodeBody (codedResult s bs r tree) := by
  rw [bodyOf, (needInCap_gives hin).andThen_eq, (freqBody_gives hin).andThen_eq, if_neg (freqResult_distinct_ne_zero hne), chainBody,
    hbuild.andThen_eq, (h.codegen rfl rfl).andThen_eq]
  rfl

/-- Where the codes of a coded input do not fit, ENCODE ends in CAPACITY(5), and no MISSING_CODE comes before it (R140, R150). -/
theorem encodeBody_overflow {f : Byte → Code} (htable : CtabIs s f) (hin : InputIs s bs) (hcoded : ∀ b ∈ bs, f b ≠ [])
    (hover : s.params.payCap.toNat < (bs.flatMap f).length) : (encodeBody s).Raises .capacity 5 := by
  obtain ⟨pre, b, post, rfl, hfit, hfull⟩ := flatMap_overflow f bs 0 (Nat.zero_le _) (by rwa [Nat.zero_add])
  rw [Nat.zero_add] at hfit hfull
  exact encodeBody_capacity htable hin (fun x hx => hcoded x (List.mem_append_left _ hx)) hfit (hcoded b (by simp)) hfull

theorem payloadIs_encodeResult {c : Code} (hfit : c.length ≤ s.params.payCap.toNat) : PayloadIs (encodeResult s c) c :=
  ⟨Cells.holds_cellsFrom _ _, word_toNat (hfit.trans_lt s.params.payCap.isLt), hfit⟩

end

/-- Settles O36: each command's body after the ones before it, and COMPRESS's body, which is theirs in turn. -/
theorem compressIsTheChain : Obligations.CompressIsTheChain := by
  unfold Obligations.CompressIsTheChain
  intro s bs hin hne
  obtain ⟨tree, r, hbuilt, hchain, hbuild⟩ := buildBody_after_freq hin hne
  have hfreqBody : (bodyOf .freq s).Gives (freqResult s bs) := (needInCap_gives hin).andThen (freqBody_gives hin)
  have hcompress := bodyOf_compress hin hne hbuilt hchain
  have htable : CtabIs (codedResult s bs r tree) (tableOf tree.codes) := hbuilt.ctabIs
  have hcoded := hbuilt.coded_iff hin
  have hbytes : ∀ b ∈ bs, tableOf tree.codes b ≠ [] := fun b => (hcoded b).2
  refine ⟨_, successCompletion (buildResult (freqResult s bs) r), successCompletion (codedResult s bs r tree), tableOf tree.codes,
    exec_gives hfreqBody rfl, exec_build_completed rfl hbuild, hbuilt.exec_codegen, htable,
    codes_prefixFree tree, hcoded, fun hfit => ?_, fun hover => ?_⟩
  · have hencode : (bodyOf .encode (successCompletion (codedResult s bs r tree))).Gives
        (encodeResult (successCompletion (codedResult s bs r tree)) (bs.flatMap (tableOf tree.codes))) := by
      rw [bodyOf_encode (s := successCompletion (codedResult s bs r tree)) rfl hin]
      exact encodeBody_gives htable hin hbytes hfit
    have hwhole : (bodyOf .compress s).Gives (encodeResult (codedResult s bs r tree) (bs.flatMap (tableOf tree.codes))) :=
      hcompress ▸ encodeBody_gives htable hin hbytes hfit
    exact ⟨_, exec_gives hencode rfl, (exec_gives hwhole rfl).trans rfl, rfl, payloadIs_encodeResult hfit⟩
  · exact exec_raises (hcompress ▸ encodeBody_overflow htable hin hbytes hover)

/-! ### The empty input -/

theorem inputIs_nil {s : State} (h : s.inLen = 0) : InputIs s [] := by
  refine ⟨Cells.holds_nil _ _, ?_, Nat.zero_le _⟩
  rw [h]
  rfl

theorem presentIn_nil : presentIn [] = [] := List.filter_eq_nil_iff.2 fun _ _ => Bool.false_ne_true

theorem freqResult_distinct_nil (s : State) : (freqResult s []).distinct = 0 := by
  rw [freqResult, presentIn_nil]
  rfl

/-- COMPRESS of the empty input is EmptyBody after FREQ (R151). -/
theorem compressBody_empty {s : State} (hin : InputIs s []) : (bodyOf .compress s).Gives (emptyBody (freqResult s [])) := by
  rw [bodyOf, (needInCap_gives hin).andThen_eq, (freqBody_gives hin).andThen_eq, if_pos (freqResult_distinct_nil s)]
  exact Eng.gives_ret _

theorem ctabIs_emptyBody (s : State) : CtabIs (emptyBody s) fun _ => [] := ctabIs_of (ct := []) (by simp) rfl cbitOf_nil.symm

/-- Settles O37: EmptyBody after the counts of no byte, which are 0. -/
theorem compressOfEmptyInput : Obligations.CompressOfEmptyInput := by
  unfold Obligations.CompressOfEmptyInput
  intro s hlen
  refine ⟨_, exec_gives (compressBody_empty (inputIs_nil hlen)) rfl, ?_, ctabIs_emptyBody (freqResult s []), fun sym => get_counts⟩
  rw [← freqResult_distinct_nil s]
  rfl

/-! ### The round trip -/

/-- What a COMPRESS without an error leaves for DINV and DECODE: a table that codes every byte of the input, no code beginning another,
and its codes for payload (R150, R151). -/
structure Compressed (bs : List Byte) (f : Byte → Code) (t : State) : Prop where
  ctabV : t.status.ctabV = true
  table : CtabIs t f
  payload : PayloadIs t (bs.flatMap f)
  prefixFree : PrefixFree f
  coded : ∀ b ∈ bs, f b ≠ []

/-- COMPRESS over a written input leaves the input's codes, or ends in CAPACITY(5) (R150, R151). -/
theorem compressBody_cases {s : State} {bs : List Byte} (hin : InputIs s bs) :
    (∃ f t, (bodyOf .compress s).Gives t ∧ t.params = s.params ∧ t.draws = s.draws ∧ t.status.err = s.status.err ∧ Compressed bs f t) ∨
    (bodyOf .compress s).Raises .capacity 5 := by
  by_cases hne : bs = []
  · subst hne
    exact .inl ⟨_, _, compressBody_empty hin, rfl, rfl, rfl, rfl, ctabIs_emptyBody _, ⟨Cells.holds_nil _ _, rfl, Nat.zero_le _⟩,
      fun _ _ hcode => absurd rfl hcode, nofun⟩
  obtain ⟨tree, r, hbuilt, hchain, _⟩ := buildBody_after_freq hin hne
  have htable : CtabIs (codedResult s bs r tree) (tableOf tree.codes) := hbuilt.ctabIs
  have hbytes : ∀ b ∈ bs, tableOf tree.codes b ≠ [] := fun b => (hbuilt.coded_iff hin b).2
  rw [bodyOf_compress hin hne hbuilt hchain]
  rcases Nat.lt_or_ge s.params.payCap.toNat (bs.flatMap (tableOf tree.codes)).length with hover | hfit
  · exact .inr (encodeBody_overflow htable hin hbytes hover)
  · exact .inl ⟨_, _, encodeBody_gives htable hin hbytes hfit, rfl, rfl, rfl, rfl, htable, payloadIs_encodeResult hfit,
      codes_prefixFree tree, hbytes⟩

section
variable {bs : List Byte} {f : Byte → Code} {t : State}

/-- A completion and the issue of the next command leave the table and the payload (60_exceptions.md R250, R254). -/
theorem Compressed.issued (h : Compressed bs f t) (w : Word) : Compressed bs f (issue w (successCompletion t)) :=
  ⟨h.ctabV, h.table, h.payload, h.prefixFree, h.coded⟩

/-- DINV leaves the table and the payload (R160). -/
theorem Compressed.inverted (h : Compressed bs f t) : Compressed bs f (invertResult t f) :=
  ⟨h.ctabV, h.table, h.payload, h.prefixFree, h.coded⟩

theorem Compressed.dinv (h : Compressed bs f t) : exec .dinv t = .next (successCompletion (invertResult t f)) := by
  have hbody : (bodyOf .dinv t).Gives (invertResult t f) :=
    (needCtab_gives h.ctabV).andThen (invertBody_gives h.table (prefixFree_codesDiffer h.prefixFree))
  exact exec_gives hbody rfl

theorem Compressed.dtabIs (h : Compressed bs f t) : DtabIs (invertResult t f) f := dtabIs_inverseOf (prefixFree_codesDiffer h.prefixFree) rfl

theorem Compressed.firstMatch (h : Compressed bs f t) : FirstMatch f bs := firstMatch_of_prefixFree h.prefixFree h.coded

variable {v : State} (hdtab : v.status.dtabV = true) (hdtabIs : DtabIs v f)
include hdtab hdtabIs

/-- DECODE of the input's codes over the inverse of their table gives the input (R172). -/
theorem Compressed.decode (h : Compressed bs f v) (hfit : bs.length ≤ v.params.outCap.toNat) :
    exec .decode v = .next (successCompletion (decodeResult v bs)) := by
  have hbody : (bodyOf .decode v).Gives (decodeResult v bs) := decodeBody_gives hdtab hdtabIs h.firstMatch h.payload hfit
  exact exec_gives hbody rfl

theorem Compressed.decode_overflow (h : Compressed bs f v) (hover : v.params.outCap.toNat < bs.length) :
    exec .decode v = .next (errorCompletion (destinations .decode) { code := .capacity, info := 6 } v) := by
  have hpay : PayloadIs v (bs.flatMap f ++ []) := (List.append_nil _).symm ▸ h.payload
  exact exec_raises (i := .decode) (decodeBody_capacity hdtab hdtabIs h.firstMatch hpay hover)

end

theorem errorCompletion_errcode (ds : List Dest) (r : Raise) (s : State) : (errorCompletion ds r s).status.errcode = r.code := by
  obtain ⟨_, _, _, _, h⟩ := errorCompletion_status ds r s
  rw [h]

theorem errorCompletion_errInfo (ds : List Dest) (r : Raise) (s : State) : (errorCompletion ds r s).errInfo = word r.info := rfl

/-- Settles O41: no code that COMPRESS left begins another, so DINV inverts them and greedy first match takes them as the input's bytes. -/
theorem compressDinvDecodeRoundTrip : Obligations.CompressDinvDecodeRoundTrip := by
  unfold Obligations.CompressDinvDecodeRoundTrip
  intro s t1 bs hin hrun
  have hissued : InputIs (issue (encode .compress) s) bs := hin
  rcases compressBody_cases hissued with ⟨f, t, hbody, hparams, hdraws, herr, hcomp⟩ | hraise
  · obtain rfl : successCompletion t = t1 := Host.Outcome.next.inj ((exec_gives hbody hdraws).symm.trans hrun)
    have hnoErr : (successCompletion t).status.err = false := herr
    have hready := hcomp.issued (encode .dinv)
    have hleft := hready.inverted.issued (encode .decode)
    have hinverse := hready.dtabIs
    refine ⟨fun hyes => absurd (hnoErr.symm.trans hyes) Bool.false_ne_true, fun _ => ?_⟩
    rcases Nat.lt_or_ge s.params.outCap.toNat bs.length with hover | hfit
    · exact ⟨_, _, hready.dinv, rfl, hleft.decode_overflow rfl hinverse (hparams ▸ hover), fun hfit => absurd hfit (Nat.not_le.2 hover),
        fun _ => ⟨errorCompletion_err _ _ _, errorCompletion_errcode _ _ _, errorCompletion_errInfo _ _ _⟩⟩
    · exact ⟨_, _, hready.dinv, rfl, hleft.decode rfl hinverse (hparams ▸ hfit),
        fun _ => ⟨rfl, word_toNat hin.length_lt, Cells.exactly_cellsFrom _⟩, fun hover => absurd hfit (Nat.not_le.2 hover)⟩
  · obtain rfl := Host.Outcome.next.inj ((exec_raises hraise).symm.trans hrun)
    exact ⟨fun _ => ⟨errorCompletion_errcode _ _ _, errorCompletion_errInfo _ _ _⟩,
      fun hno => absurd (hno.symm.trans (errorCompletion_err _ _ _)) Bool.false_ne_true⟩

end Sys2Proof.Machine
end

section
/-! SUPPORT. The archive codec over operands and containers that are written (42_archive.md): the sessions' first and last commands, the record
that AWREC appends, and the records that ARREC and EXTRACT take, cut or malformed ones among them. -/

namespace Sys2Proof.Machine

/-! ### Opening and closing a session (R185, R188, R190, R200) -/

/-- Settles O43: both checks pass, and the field of the count 0 is eight zero bytes. -/
theorem awbeginOpensAContainer : Obligations.AwbeginOpensAContainer := by
  unfold Obligations.AwbeginOpensAContainer
  intro s haw har
  have hbody : (bodyOf .awbegin s).Gives
      { s with arcbuf := cellsFrom 0 (toLE64 0), arcLen := 8, recCount := 0, status := { s.status with aw := .opened } } :=
    (sequenceIf_gives (by simp [haw])).andThen ((sequenceIf_gives (by simp [har])).andThen (Eng.gives_ret _))
  exact ⟨_, exec_gives hbody rfl, rfl, Cells.exactly_cellsFrom (toLE64 0)⟩

/-- Settles O45: the write of R10 over the header's eight cells. -/
theorem awendWritesTheCount : Obligations.AwendWritesTheCount := by
  unfold Obligations.AwendWritesTheCount
  intro s haw
  have hbody : (bodyOf .awend s).Gives
      { s with arcbuf := Cells.writeRange s.arcbuf 0 (toLE64 s.recCount.toNat), status := { s.status with aw := .idle } } :=
    (sequenceIf_gives (by simp [haw])).andThen (Eng.gives_ret _)
  refine ⟨_, exec_gives hbody rfl, rfl, Cells.holds_writeRange _ _ _, fun j hj => ?_⟩
  rw [successCompletion_arcbuf, Cells.get_writeRange, toLE64_length, if_neg (by omega)]

/-- Settles O46: the checks in their order, then the header's field. -/
theorem arbeginReadsTheCount : Obligations.ArbeginReadsTheCount := by
  unfold Obligations.ArbeginReadsTheCount
  intro s c har haw hcap
  have hread : (sequenceIf (s.status.ar == .opened) .readOpen).Gives () := sequenceIf_gives (by simp [har])
  have hwrite : (sequenceIf (s.status.aw == .opened) .writeOpen).Gives () := sequenceIf_gives (by simp [haw])
  have hfits : (needArcCap s).Gives () := capacityIf_within hcap
  constructor
  · intro hheader hcount
    have hbody : (bodyOf .arbegin s).Gives
        { s with recCount := word c.toNat, recRemain := word c.toNat, arcCur := 8, status := { s.status with ar := .opened } } :=
      hread.andThen (hwrite.andThen (hfits.andThen ((formatIf_gives (decide_eq_false hheader.not_gt)).andThen
        ((readField_gives hcount c.isLt).andThen (Eng.gives_ret _)))))
    rw [exec_gives hbody rfl, word_of_toNat]
    rfl
  · intro hshort
    exact exec_raises (i := .arbegin) (hread.andThen_raises (hwrite.andThen_raises (hfits.andThen_raises
      (formatIf_raises (decide_eq_true hshort)).andThen)))

/-- Settles O50: the session closes exactly where the cursor stands at the container's end. -/
theorem arendClosesTheSession : Obligations.ArendClosesTheSession := by
  unfold Obligations.ArendClosesTheSession
  intro s har hremain
  have hopen : (sequenceIf (s.status.ar != .opened) .readNotOpen).Gives () := sequenceIf_gives (by simp [har])
  have hnone : (sequenceIf (s.recRemain != 0) .someRemain).Gives () := sequenceIf_gives (by simp [hremain])
  constructor
  · intro hend
    have hbody : (bodyOf .arend s).Gives { s with status := { s.status with ar := .idle } } :=
      hopen.andThen (hnone.andThen ((formatIf_gives (by simp [hend])).andThen (Eng.gives_ret _)))
    exact exec_gives hbody rfl
  · intro hleft
    exact exec_raises (i := .arend) (hopen.andThen_raises (hnone.andThen_raises (formatIf_raises (by simp [hleft])).andThen))

/-! ### AWREC (R181 to R183, R186) -/

/-- The symbols with a code under `f` and the lengths of their codes, as AWREC reads them from CLEN (R181). -/
def codedLengths (f : Byte → Code) : List (Nat × Nat) :=
  (symbols.filter fun sym => !(f (byte sym)).isEmpty).map fun sym => (sym, (f (byte sym)).length)

theorem codedLengths_length (f : Byte → Code) : (codedLengths f).length = (entriesOf f).length := by
  simp only [codedLengths, entriesOf, List.length_map]

/-- RecSize is the length of the record's bytes (R183). -/
theorem recSize_codedLengths (f : Byte → Code) (name : List Byte) (payload : Code) :
    recSize name.length payload.length (codedLengths f) = (containerRecord name payload (entriesOf f)).length := by
  rw [containerRecord_length, entries_length]
  simp only [recSize, codedLengths, entriesOf, List.map_map]
  rfl

/-- What AWREC leaves after the record `bytes`, short of its completion (R186). -/
def awrecResult (s : State) (bytes : List Byte) : State :=
  { s with arcbuf := Cells.writeRange s.arcbuf s.arcLen.toNat bytes, arcLen := word (s.arcLen.toNat + bytes.length),
           recCount := word (s.recCount.toNat + 1) }

section
variable {s : State} {f : Byte → Code} {name : List Byte} {payload : Code} (htable : CtabIs s f)
include htable

theorem presentFrom_clen : ∃ lens, (readBytes s.clen 0 Config.nsym).Gives lens ∧ presentFrom 0 lens = codedLengths f := by
  have hread := memReads_gives (free := Config.unspecifiedByte) (clen_holds htable)
  rw [List.length_map, List.length_range'] at hread
  refine ⟨_, hread, ?_⟩
  rw [presentFrom_eq f (fun b => (htable b).1) 256 0 (Nat.le_refl _), codedLengths, symbols, List.range_eq_range', Config.nsym]

variable (hname : NameIs s name) (hpay : PayloadIs s payload)
include hname hpay

theorem recordBytes_gives : (recordBytes s (codedLengths f)).Gives (containerRecord name payload (entriesOf f)) := by
  obtain ⟨hnameHolds, hnameLen, _⟩ := hname
  obtain ⟨hpayHolds, hpayLen, _⟩ := hpay
  have hentries := entriesBytes_gives htable (symbols.filter fun sym => !(f (byte sym)).isEmpty)
    fun sym hsym => mem_symbols.1 (List.mem_filter.1 hsym).1
  rw [recordBytes, hnameLen, hpayLen, codedLengths_length]
  exact (memReads_gives hnameHolds).andThen ((memReads_gives hpayHolds).andThen (hentries.andThen (Eng.gives_ret _)))

/-- AWREC over operands that are written: one check is left, that of the room in ARCBUF (R186). -/
theorem bodyOf_awrec (hopen : s.status.aw = .opened) (hctab : s.status.ctabV = true) :
    bodyOf .awrec s =
      (capacityIf (s.params.arcCap.toNat < s.arcLen.toNat + (containerRecord name payload (entriesOf f)).length) .arcbuf).andThen
        fun _ => Eng.ret (awrecResult s (containerRecord name payload (entriesOf f))) := by
  obtain ⟨lens, hlens, hpresent⟩ := presentFrom_clen htable
  have hbytes := recordBytes_gives htable hname hpay
  obtain ⟨_, hnameLen, hnameCap⟩ := hname
  rw [bodyOf, (sequenceIf_gives (by simp [hopen])).andThen_eq, (needCtab_gives hctab).andThen_eq, needNameCap,
    (capacityIf_within (hnameLen.trans_le hnameCap)).andThen_eq, (needPayCap_gives hpay).andThen_eq, appendRecord, hlens.andThen_eq,
    hpresent]
  obtain ⟨_, hpayLen, _⟩ := hpay
  simp only [hbytes.andThen_eq, hnameLen, hpayLen, recSize_codedLengths]
  rfl

end

/-- Settles O44: RecSize is the record's length, and the write is `Cells.writeRange` of the record. -/
theorem awrecAppendsTheRecord : Obligations.AwrecAppendsTheRecord := by
  unfold Obligations.AwrecAppendsTheRecord
  intro s f name payload hopen hctab htable hname hpay bytes
  have hbody := bodyOf_awrec htable hname hpay hopen hctab
  refine ⟨?_, fun hover => ?_, fun hfit => ?_⟩
  · rw [containerRecord_length, entries_length]
  · exact exec_raises (hbody ▸ (capacityIf_above (k := .arcbuf) hover).andThen)
  · have hgives : (bodyOf .awrec s).Gives (awrecResult s bytes) := hbody ▸ (capacityIf_within hfit).andThen (Eng.gives_ret _)
    have hcount : word (s.recCount.toNat + 1) = s.recCount + 1 := by
      rw [word, BitVec.ofNat_add, BitVec.ofNat_toNat, BitVec.setWidth_eq]
      rfl
    refine ⟨_, exec_gives hgives rfl, ?_, Cells.holds_writeRange _ _ _, fun j hj => ?_⟩
    · rw [← hcount]
      rfl
    · exact (Cells.get_writeRange _ _ _ _).trans (if_neg (by omega))

/-! ### Records that parse, and records cut before their end (R192, R193, R201, R202) -/

/-- The code table and its inverse as ARREC leaves them (R192). -/
theorem arrecResult_tables {ct : List (Byte × Code)} (hct : TableLegal ct) (s : State) (name : List Byte) (payload : Code) :
    CtabExactly (arrecResult s name payload ct) (tableOf ct) ∧ DtabIs (arrecResult s name payload ct) (tableOf ct) := by
  obtain ⟨hlengths, _, hcodes⟩ := hct
  exact ⟨ctabExactly_of (fun e he => (hlengths e he).2) rfl rfl, dtabIs_inverseOf (codesDiffer_tableOf hcodes) rfl⟩

/-- Settles O47: ARREC's body over the record, whose table Invert turns round. -/
theorem arrecParsesARecord : Obligations.ArrecParsesARecord := by
  unfold Obligations.ArrecParsesARecord
  intro s name payload ct hopen hremain hct hname hpay hholds hend
  have hbody : (bodyOf .arrec s).Gives (arrecResult s name payload ct) := arrecBody_gives hopen hremain hct hname hpay hholds hend
  exact ⟨_, exec_gives hbody rfl, rfl, Cells.exactly_cellsFrom _, Cells.exactly_cellsFrom _, arrecResult_tables hct s name payload⟩

/-- Settles O48: the cut record does not parse, and both commands parse it first. -/
theorem cutRecordIsRefused : Obligations.CutRecordIsRefused := by
  unfold Obligations.CutRecordIsRefused
  intro s name payload ct k hopen hremain hct hname hpay hk hlen hholds
  obtain ⟨off, hoff, hparse⟩ := parseRecord_cut hct hname hpay hholds hk hlen
  exact ⟨off, hoff, exec_raises_of_parse (.inl rfl) hopen hremain hparse, exec_raises_of_parse (.inr rfl) hopen hremain hparse⟩

/-- Settles O51: DECODE's body over the payload and the inverse table that ARREC's body leaves. -/
theorem extractGivesTheFile : Obligations.ExtractGivesTheFile := by
  unfold Obligations.ExtractGivesTheFile
  intro s name bs ct hopen hremain hct hmatch payload hname hpay hout hholds hend
  have harrec : (arrecBody s).Gives (arrecResult s name payload ct) := arrecBody_gives hopen hremain hct hname hpay hholds hend
  obtain ⟨hctab, hdtab⟩ := arrecResult_tables hct s name payload
  have hpayload : PayloadIs (arrecResult s name payload ct) payload :=
    ⟨Cells.holds_cellsFrom _ _, word_toNat (hpay.trans_lt s.params.payCap.isLt), hpay⟩
  have hbody : (bodyOf .extract s).Gives (decodeResult (arrecResult s name payload ct) bs) :=
    harrec.andThen (decodeBody_gives rfl hdtab hmatch hpayload hout)
  exact ⟨_, exec_gives hbody rfl, rfl, Cells.exactly_cellsFrom _, Cells.exactly_cellsFrom _, hctab, hdtab,
    Cells.exactly_cellsFrom _⟩

end Sys2Proof.Machine
end

section
/-! SUPPORT. The first malformed field of a record (42_archive.md R191, R193, R196, R197): ParseRecord cut at its payload, at its code table and at
one code entry, what leads to each of these points, and the checks that fail there. -/

namespace Sys2Proof.Machine

/-! ### ParseRecord from its payload on, and from its code table on (R193) -/

/-- ParseRecord from offset `q` on, after the payload. -/
def parseCodes (s : State) (nm : List Byte) (pb : Code) (q : Nat) : Eng Record :=
  (lengthField s q).andThen fun cc =>
    (formatIf (decide (256 < cc)) q).andThen fun _ =>
      (parseEntries s cc (q + 8) []).andThen fun r => Eng.ret { name := nm, payload := pb, codes := r.1, next := r.2 }

/-- ParseRecord from offset `q` on, after the name. -/
def parsePayload (s : State) (nm : List Byte) (q : Nat) : Eng Record :=
  (lengthField s q).andThen fun pl =>
    (need s (q + 8) pl q).andThen fun _ =>
      (capacityIf (s.params.payCap.toNat < pl) .paybuf).andThen fun _ =>
        (parseBits s pl (q + 8)).andThen fun pb => parseCodes s nm pb (q + 8 + pl)

/-- The bytes of a record before its code table (R180). -/
def recordHead (name : List Byte) (payload : Code) : List Byte :=
  toLE64 name.length ++ name ++ toLE64 payload.length ++ payload.map bitChar

section
variable {s : State} {q : Nat} {name : List Byte}

/-- The bytes after a name. -/
theorem holds_after_name {c : Cells Byte} {ws : List Byte} (h : Cells.holds c q (toLE64 name.length ++ name ++ ws)) :
    Cells.holds c q (toLE64 name.length ++ name) ∧ Cells.holds c (q + 8 + name.length) ws := by
  have hsplit := Cells.holds_append.1 h
  rwa [List.length_append, toLE64_length, ← Nat.add_assoc] at hsplit

theorem parseRecord_nameCut {nl : Nat} (hfield : Cells.holds s.arcbuf q (toLE64 nl)) (hnl : nl < 2 ^ 64)
    (hend : q + 8 ≤ s.arcLen.toNat) (hcut : s.arcLen.toNat < q + 8 + nl) : (parseRecord s q).Raises .archiveFormat q :=
  (lengthField_gives hfield hnl hend).andThen_raises (need_raises hcut).andThen

/-- A name that stands in the container and fits NAMEBUF leads to the payload. -/
theorem parseRecord_of_name (hname : name.length ≤ s.params.nameCap.toNat)
    (hholds : Cells.holds s.arcbuf q (toLE64 name.length ++ name)) (hend : q + 8 + name.length ≤ s.arcLen.toNat) :
    parseRecord s q = parsePayload s name (q + 8 + name.length) := by
  obtain ⟨hlen, hbytes⟩ := Cells.holds_append.1 hholds
  rw [toLE64_length] at hbytes
  have hread : (readBytes s.arcbuf (q + 8) name.length).Gives name := memReads_gives hbytes
  rw [parseRecord, (lengthField_gives hlen (hname.trans_lt s.params.nameCap.isLt) (by omega)).andThen_eq, (need_gives hend).andThen_eq,
    (capacityIf_within hname).andThen_eq, hread.andThen_eq]
  rfl

theorem parsePayload_cut {pl : Nat} (hfield : Cells.holds s.arcbuf q (toLE64 pl)) (hpl : pl < 2 ^ 64) (hend : q + 8 ≤ s.arcLen.toNat)
    (hcut : s.arcLen.toNat < q + 8 + pl) : (parsePayload s name q).Raises .archiveFormat q :=
  (lengthField_gives hfield hpl hend).andThen_raises (need_raises hcut).andThen

/-- A payload character that is no bit character (R196). -/
theorem parsePayload_badBit {pre : Code} {y : Byte} {pl : Nat} (hpre : pre.length < pl) (hpl : pl ≤ s.params.payCap.toNat)
    (hy : charBit y = none) (hholds : Cells.holds s.arcbuf q (toLE64 pl ++ (pre.map bitChar ++ [y]))) (hend : q + 8 + pl ≤ s.arcLen.toNat) :
    (parsePayload s name q).Raises .archiveFormat (q + 8 + pre.length) := by
  obtain ⟨hlen, hbits⟩ := Cells.holds_append.1 hholds
  rw [toLE64_length] at hbits
  exact (lengthField_gives hlen (hpl.trans_lt s.params.payCap.isLt) (by omega)).andThen_raises ((need_gives hend).andThen_raises
    ((capacityIf_within hpl).andThen_raises (parseBits_raises hbits hy hpre).andThen))

/-- A payload that stands in the container and fits PAYBUF leads to the code table. -/
theorem parsePayload_of_payload {payload : Code} (hpay : payload.length ≤ s.params.payCap.toNat)
    (hholds : Cells.holds s.arcbuf q (toLE64 payload.length ++ payload.map bitChar)) (hend : q + 8 + payload.length ≤ s.arcLen.toNat) :
    parsePayload s name q = parseCodes s name payload (q + 8 + payload.length) := by
  obtain ⟨hlen, hbits⟩ := Cells.holds_append.1 hholds
  rw [toLE64_length] at hbits
  rw [parsePayload, (lengthField_gives hlen (hpay.trans_lt s.params.payCap.isLt) (by omega)).andThen_eq, (need_gives hend).andThen_eq,
    (capacityIf_within hpay).andThen_eq, (parseBits_gives hbits).andThen_eq]

variable {payload : Code}

theorem recordHead_length : (recordHead name payload).length = 16 + name.length + payload.length := by
  simp only [recordHead, List.length_append, toLE64_length, List.length_map]
  omega

/-- A name and a payload that stand in the container and fit their buffers lead to the code table. -/
theorem parseRecord_of_head (hname : name.length ≤ s.params.nameCap.toNat) (hpay : payload.length ≤ s.params.payCap.toNat)
    (hholds : Cells.holds s.arcbuf q (recordHead name payload)) (hend : q + (recordHead name payload).length ≤ s.arcLen.toNat) :
    parseRecord s q = parseCodes s name payload (q + (recordHead name payload).length) := by
  rw [recordHead, List.append_assoc] at hholds
  rw [recordHead_length] at hend ⊢
  obtain ⟨hfront, hback⟩ := holds_after_name hholds
  rw [parseRecord_of_name hname hfront (by omega), parsePayload_of_payload hpay hback (by omega)]
  congr 1
  omega

theorem parseCodes_badCount {cc : Nat} (hcc : 256 < cc) (hlt : cc < 2 ^ 64) (hfield : Cells.holds s.arcbuf q (toLE64 cc))
    (hend : q + 8 ≤ s.arcLen.toNat) : (parseCodes s name payload q).Raises .archiveFormat q :=
  (lengthField_gives hfield hlt hend).andThen_raises (formatIf_raises (decide_eq_true hcc)).andThen

/-- What ends the parse after the legal entries `ct`, with `m` entries to come, ends the parse of the code table. -/
theorem parseCodes_of_entries {ct : List (Byte × Code)} {m : Nat} {e : ErrCode} {n : Nat} (hct : TableLegal ct) (hcc : ct.length + m ≤ 256)
    (hholds : Cells.holds s.arcbuf q (toLE64 (ct.length + m) ++ ct.flatMap containerEntry))
    (hend : q + 8 + (ct.flatMap containerEntry).length ≤ s.arcLen.toNat)
    (h : (parseEntries s m (q + 8 + (ct.flatMap containerEntry).length) ct).Raises e n) : (parseCodes s name payload q).Raises e n := by
  obtain ⟨hlen, hentries⟩ := Cells.holds_append.1 hholds
  rw [toLE64_length] at hentries
  refine (lengthField_gives hlen (by omega) (by omega)).andThen_raises ((formatIf_gives (decide_eq_false hcc.not_gt)).andThen_raises
    (Eng.Raises.andThen ?_))
  obtain ⟨hlengths, hsyms, hcodes⟩ := hct
  rwa [parseEntries_append (acc := []) m hlengths hsyms hcodes hentries hend]

/-- What ends the parse after the legal entries `ct`, with `m` entries to come, ends the parse of the record. -/
theorem parseRecord_of_entries {ct : List (Byte × Code)} {m : Nat} {e : ErrCode} {n : Nat} (hname : name.length ≤ s.params.nameCap.toNat)
    (hpay : payload.length ≤ s.params.payCap.toNat) (hct : TableLegal ct) (hcc : ct.length + m ≤ 256)
    (hholds : Cells.holds s.arcbuf q (recordHead name payload ++ toLE64 (ct.length + m) ++ ct.flatMap containerEntry))
    (hend : q + (recordHead name payload ++ toLE64 (ct.length + m) ++ ct.flatMap containerEntry).length ≤ s.arcLen.toNat)
    (h : (parseEntries s m (q + (recordHead name payload ++ toLE64 (ct.length + m) ++ ct.flatMap containerEntry).length) ct).Raises e n) :
    (parseRecord s q).Raises e n := by
  rw [List.append_assoc] at hholds
  obtain ⟨hhead, htable⟩ := Cells.holds_append.1 hholds
  rw [List.length_append, List.length_append, toLE64_length, ← Nat.add_assoc, ← Nat.add_assoc] at hend h
  rw [parseRecord_of_head hname hpay hhead (by omega)]
  exact parseCodes_of_entries hct hcc htable hend h

end

/-! ### One code entry (R193, R197) -/

theorem any_fst_beq {ct : List (Byte × Code)} {sym : Byte} : (ct.any fun e => e.1 == sym) = true ↔ sym ∈ ct.map Prod.fst := by
  simp only [List.any_eq_true, beq_iff_eq, List.mem_map]

theorem any_snd_beq {ct : List (Byte × Code)} {c : Code} : (ct.any fun e => e.2 == c) = true ↔ c ∈ ct.map Prod.snd := by
  simp only [List.any_eq_true, beq_iff_eq, List.mem_map]

section
variable {s : State} {g m : Nat} {ct : List (Byte × Code)}

theorem parseEntries_badLength {cl : Nat} (hcl : cl = 0 ∨ 255 < cl) (hlt : cl < 2 ^ 64) (hfield : Cells.holds s.arcbuf g (toLE64 cl))
    (hend : g + 8 ≤ s.arcLen.toNat) : (parseEntries s (m + 1) g ct).Raises .archiveFormat g := by
  have hbad : (cl == 0 || decide (Config.maxCodeLen < cl)) = true := by
    rwa [Bool.or_eq_true, beq_iff_eq, decide_eq_true_eq]
  exact (lengthField_gives hfield hlt hend).andThen_raises (formatIf_raises hbad).andThen

section
variable {cl : Nat} (h1 : 1 ≤ cl) (h255 : cl ≤ 255)
include h1 h255

/-- A codeLen of 1 to 255 passes its check. -/
theorem codeLen_gives : (formatIf (cl == 0 || decide (Config.maxCodeLen < cl)) g).Gives () := by
  refine formatIf_gives ?_
  rw [Bool.or_eq_false_iff, beq_eq_false_iff_ne, decide_eq_false_iff_not, Config.maxCodeLen]
  omega

theorem parseEntries_codeCut (hfield : Cells.holds s.arcbuf g (toLE64 cl)) (hend : g + 8 ≤ s.arcLen.toNat)
    (hcut : s.arcLen.toNat < g + 8 + cl) : (parseEntries s (m + 1) g ct).Raises .archiveFormat g :=
  (lengthField_gives hfield (by omega) hend).andThen_raises ((codeLen_gives h1 h255).andThen_raises (need_raises hcut).andThen)

/-- A code character that is no bit character (R196). -/
theorem parseEntries_badBit {pre : Code} {y : Byte} (hpre : pre.length < cl) (hy : charBit y = none)
    (hholds : Cells.holds s.arcbuf g (toLE64 cl ++ (pre.map bitChar ++ [y]))) (hend : g + 8 + cl ≤ s.arcLen.toNat) :
    (parseEntries s (m + 1) g ct).Raises .archiveFormat (g + 8 + pre.length) := by
  obtain ⟨hlen, hbits⟩ := Cells.holds_append.1 hholds
  rw [toLE64_length] at hbits
  exact (lengthField_gives hlen (by omega) (by omega)).andThen_raises ((codeLen_gives h1 h255).andThen_raises
    ((need_gives hend).andThen_raises (parseBits_raises hbits hy hpre).andThen))

end

variable {c : Code} (h1 : 1 ≤ c.length) (h255 : c.length ≤ 255)
include h1 h255

/-- The bits of a code that stands in the container lead to its symbol, which may be missing. -/
theorem parseEntries_symbolCut (hholds : Cells.holds s.arcbuf g (toLE64 c.length ++ c.map bitChar))
    (hcut : s.arcLen.toNat = g + 8 + c.length) : (parseEntries s (m + 1) g ct).Raises .archiveFormat (g + 8 + c.length) := by
  obtain ⟨hlen, hbits⟩ := Cells.holds_append.1 hholds
  rw [toLE64_length] at hbits
  exact (lengthField_gives hlen (by omega) (by omega)).andThen_raises ((codeLen_gives h1 h255).andThen_raises
    ((need_gives (by omega)).andThen_raises ((parseBits_gives hbits).andThen_raises (need_raises (by omega)).andThen)))

/-- An entry that stands in the container comes down to its two checks against the entries before it (R197). -/
theorem parseEntries_of_entry {sym : Byte} (hholds : Cells.holds s.arcbuf g (containerEntry (sym, c)))
    (hend : g + 9 + c.length ≤ s.arcLen.toNat) :
    parseEntries s (m + 1) g ct = (formatIf (ct.any fun e => e.1 == sym) (g + 8 + c.length)).andThen fun _ =>
      (formatIf (ct.any fun e => e.2 == c) g).andThen fun _ => parseEntries s m (g + 8 + c.length + 1) (ct ++ [(sym, c)]) := by
  obtain ⟨hcode, hsym⟩ := Cells.holds_append.1 hholds
  obtain ⟨hlen, hbits⟩ := (Cells.holds_append (vs := toLE64 c.length) (ws := c.map bitChar)).1 hcode
  rw [toLE64_length] at hbits
  rw [List.length_append, toLE64_length, List.length_map, ← Nat.add_assoc] at hsym
  have hread : (readByte s.arcbuf (g + 8 + c.length)).Gives sym := memRead_gives (Cells.holds_cons.1 hsym).1
  rw [parseEntries, (lengthField_gives hlen (by omega) (by omega)).andThen_eq, (codeLen_gives h1 h255).andThen_eq,
    (need_gives (by omega)).andThen_eq, (parseBits_gives hbits).andThen_eq, (need_gives (by omega)).andThen_eq, hread.andThen_eq]

theorem parseEntries_symbolTwice {sym : Byte} (hholds : Cells.holds s.arcbuf g (containerEntry (sym, c)))
    (hend : g + 9 + c.length ≤ s.arcLen.toNat) (hsym : sym ∈ ct.map Prod.fst) :
    (parseEntries s (m + 1) g ct).Raises .archiveFormat (g + 8 + c.length) := by
  rw [parseEntries_of_entry h1 h255 hholds hend]
  exact (formatIf_raises (any_fst_beq.2 hsym)).andThen

theorem parseEntries_codeTwice {sym : Byte} (hholds : Cells.holds s.arcbuf g (containerEntry (sym, c)))
    (hend : g + 9 + c.length ≤ s.arcLen.toNat) (hsym : sym ∉ ct.map Prod.fst) (hcode : c ∈ ct.map Prod.snd) :
    (parseEntries s (m + 1) g ct).Raises .archiveFormat g := by
  rw [parseEntries_of_entry h1 h255 hholds hend,
    (formatIf_gives (Bool.eq_false_iff.2 fun hany => hsym (any_fst_beq.1 hany))).andThen_eq]
  exact (formatIf_raises (any_snd_beq.2 hcode)).andThen

end

/-! ### The fields in their order -/

/-- Settles O49: the well-formed fields lead to the malformed one, whose check fails. -/
theorem badBitCharacterIsRefused : Obligations.BadBitCharacterIsRefused := by
  unfold Obligations.BadBitCharacterIsRefused
  intro i s hi hopen hremain q stands fails
  have hparse : ∀ off, (parseRecord s q).Raises .archiveFormat off → fails off := fun _ => exec_raises_of_parse hi hopen hremain
  refine ⟨fun hcut => hparse _ (lengthField_raises hcut).andThen,
    fun nl hnl hfield hend hcut => hparse _ (parseRecord_nameCut hfield hnl hend hcut), fun name hname => ?_⟩
  have hatPayload : stands (toLE64 name.length ++ name) → q + 8 + name.length ≤ s.arcLen.toNat →
      ∀ off, (parsePayload s name (q + 8 + name.length)).Raises .archiveFormat off → fails off :=
    fun hholds hend off hraise => hparse off ((parseRecord_of_name hname hholds hend).symm ▸ hraise)
  refine ⟨fun hholds hend hcut => hatPayload hholds hend _ (lengthField_raises (by omega)).andThen, fun pl hpl hholds hend hcut => ?_,
    fun pre y pl hpre hpl h0 h1 hholds hend => ?_, ?_⟩
  · obtain ⟨hfront, hfield⟩ := holds_after_name hholds
    exact hatPayload hfront (by omega) _ (parsePayload_cut hfield hpl (by omega) (by omega))
  · rw [List.append_assoc, List.append_assoc] at hholds
    obtain ⟨hfront, hback⟩ := holds_after_name hholds
    have hraise := hatPayload hfront (by omega) _ (parsePayload_badBit hpre hpl (charBit_none h0 h1) hback (by omega))
    rwa [show q + 8 + name.length + 8 + pre.length = q + 16 + name.length + pre.length by omega] at hraise
  intro payload hpay head
  have hatCodes : stands head → q + head.length ≤ s.arcLen.toNat →
      ∀ off, (parseCodes s name payload (q + head.length)).Raises .archiveFormat off → fails off :=
    fun hholds hend off hraise => hparse off ((parseRecord_of_head hname hpay hholds hend).symm ▸ hraise)
  refine ⟨fun hholds hend hcut => hatCodes hholds hend _ (lengthField_raises hcut).andThen, fun cc hcc hlt hholds hend => ?_, ?_⟩
  · obtain ⟨hhead, hfield⟩ := Cells.holds_append.1 hholds
    exact hatCodes hhead (by omega) _ (parseCodes_badCount hcc hlt hfield hend)
  intro ct cc hct hmore hcc body g
  obtain ⟨m, rfl⟩ : ∃ m, cc = ct.length + (m + 1) := ⟨cc - ct.length - 1, by omega⟩
  have hatEntry : stands body → g ≤ s.arcLen.toNat → ∀ off, (parseEntries s (m + 1) g ct).Raises .archiveFormat off → fails off :=
    fun hholds hend off hraise => hparse off (parseRecord_of_entries (m := m + 1) hname hpay hct hcc hholds hend hraise)
  refine ⟨fun hholds hend hcut => hatEntry hholds hend _ (lengthField_raises hcut).andThen, fun cl hcl hlt hholds hend => ?_,
    fun cl h1 h255 hholds hend hcut => ?_, fun c h1 h255 hholds hcut => ?_, fun pre y cl hpre h255 h0 h1 hholds hend => ?_,
    fun sym c h1 h255 hholds hend => ⟨fun hsym => ?_, fun hsym hcode => ?_⟩⟩
  · obtain ⟨hbody, hfield⟩ := Cells.holds_append.1 hholds
    exact hatEntry hbody (by omega) _ (parseEntries_badLength hcl hlt hfield hend)
  · obtain ⟨hbody, hfield⟩ := Cells.holds_append.1 hholds
    exact hatEntry hbody (by omega) _ (parseEntries_codeCut h1 h255 hfield hend hcut)
  · rw [List.append_assoc] at hholds
    obtain ⟨hbody, hentry⟩ := Cells.holds_append.1 hholds
    exact hatEntry hbody (by omega) _ (parseEntries_symbolCut h1 h255 hentry hcut)
  · rw [List.append_assoc, List.append_assoc] at hholds
    obtain ⟨hbody, hentry⟩ := Cells.holds_append.1 hholds
    exact hatEntry hbody (by omega) _ (parseEntries_badBit (by omega) h255 hpre (charBit_none h0 h1) hentry hend)
  · obtain ⟨hbody, hentry⟩ := Cells.holds_append.1 hholds
    exact hatEntry hbody (by omega) _ (parseEntries_symbolTwice h1 h255 hentry hend hsym)
  · obtain ⟨hbody, hentry⟩ := Cells.holds_append.1 hholds
    exact hatEntry hbody (by omega) _ (parseEntries_codeTwice h1 h255 hentry hend hsym hcode)

end Sys2Proof.Machine
end

section
/-! SUPPORT. The control commands (43_control.md): none of them reads a cell or raises an error, so each completes in success. -/

namespace Sys2Proof.Machine

/-- NOP has no pseudocode of its own, so its completion is all that it does (R230). -/
theorem exec_nop (s : State) : exec .nop s = .next (successCompletion s) := exec_gives (i := .nop) (Eng.gives_ret s) rfl

/-- ABORT is AbortSessions, each field in one place (R232, R233). -/
theorem exec_abort (s : State) : exec .abort s = .next (successCompletion (sessionsClosed s)) := by
  have hbody : (bodyOf .abort s).Gives (sessionsClosed s) := abortSessions_eq s ▸ Eng.gives_ret (abortSessions s)
  exact exec_gives hbody rfl

/-- STATUS as RESET leaves it: DONE in bit 1 and LAST_OPC = 0x01 in bits 39..32 (R26, R231). -/
theorem toWord_status_after_reset :
    Status.toWord { Status.reset with done := true, lastOpc := 0x01 } = 0x0000000100000002 := by decide

/-- Settles O22: success completion alone, from the state given or from the state at issue. -/
theorem nopChangesOnlyStatus : Obligations.NopChangesOnlyStatus := by
  unfold Obligations.NopChangesOnlyStatus
  refine ⟨by decide, fun s => ⟨exec_nop s, ?_⟩⟩
  have hvalue : encode .nop = 0 := by decide
  unfold runCmd
  rw [exec_nop, hvalue]
  rfl

/-- Settles O23: success completion of what ResetAction and the write of LAST_OPC leave. -/
theorem resetCommandState : Obligations.ResetCommandState := by
  unfold Obligations.ResetCommandState
  exact ⟨by decide, fun s => ⟨_, exec_reset s, toWord_status_after_reset, rfl⟩⟩

/-- Settles O24: success completion of the state with both sessions closed. -/
theorem abortClosesSessions : Obligations.AbortClosesSessions := by
  unfold Obligations.AbortClosesSessions
  exact ⟨by decide, exec_abort⟩

end Sys2Proof.Machine
end

section
/-! SUPPORT. The errors of the commands (60_exceptions.md R251 to R253): every command completes, a command that fails has the effect of error
completion alone, and its error is one that R251 lets it raise. -/

namespace Sys2Proof.Machine

/-- Settles O6: success and error completion alike clear BUSY and set DONE. -/
theorem everyCommandCompletes : Obligations.EveryCommandCompletes := by
  unfold Obligations.EveryCommandCompletes
  intro i s
  obtain ⟨t, ht⟩ := runCommand_total (destinations i) (bodyOf i s) s
  refine ⟨t, (exec_eq_run i s).trans ht, ?_⟩
  obtain ⟨u, d, _, rfl⟩ | ⟨r, d, _, rfl⟩ := runCommand_cases ht
  · simp
  · obtain ⟨_, _, _, _, hstatus⟩ := errorCompletion_status (destinations i) r s
    simp [hstatus]

/-! ### The errors that each command can raise (R251) -/

/-- The pairs of R251, and MISSING_CODE of COMPRESS, which comes only of an unwritten cell that two reads find different (log 3). -/
def raisable : List (ErrCode × Instr) :=
  [(.emptyInput, .build), (.missingCode, .encode), (.truncatedPayload, .decode), (.truncatedPayload, .extract),
    (.archiveFormat, .arbegin), (.archiveFormat, .arrec), (.archiveFormat, .arend), (.archiveFormat, .extract),
    (.archiveFormat, .dinv), (.capacity, .freq), (.capacity, .encode), (.capacity, .compress), (.capacity, .decode),
    (.capacity, .awrec), (.capacity, .arbegin), (.capacity, .arrec), (.capacity, .extract),
    (.sequenceError, .build), (.sequenceError, .codegen), (.sequenceError, .encode), (.sequenceError, .dinv),
    (.sequenceError, .decode), (.sequenceError, .awbegin), (.sequenceError, .awrec), (.sequenceError, .awend),
    (.sequenceError, .arbegin), (.sequenceError, .arrec), (.sequenceError, .arend), (.sequenceError, .extract),
    (.missingCode, .compress)]

/-- Command `i` may end in this `raise`: its detail is free. -/
def MayRaise (i : Instr) (r : Raise) : Prop := (r.code, i) ∈ raisable

theorem mayRaise_of_mem {i : Instr} {e : ErrCode} (h : (e, i) ∈ raisable := by decide) : ∀ info, MayRaise i ⟨e, info⟩ := fun _ => h

/-- A check of a command raises an error that is listed for it. -/
theorem sequenceIf_mayRaise {i : Instr} {c : Bool} {k : SeqDetail} (h : (.sequenceError, i) ∈ raisable := by decide) :
    (sequenceIf c k).PostErr (MayRaise i) := sequenceIf_postErr (mayRaise_of_mem h)

theorem capacityIf_mayRaise {i : Instr} {c : Bool} {k : CapDetail} (h : (.capacity, i) ∈ raisable := by decide) :
    (capacityIf c k).PostErr (MayRaise i) := capacityIf_postErr (mayRaise_of_mem h)

theorem formatIf_mayRaise {i : Instr} {c : Bool} {off : Nat} (h : (.archiveFormat, i) ∈ raisable := by decide) :
    (formatIf c off).PostErr (MayRaise i) := formatIf_postErr (mayRaise_of_mem h)

section
variable {α β : Type} {P : Raise → Prop}

theorem Eng.Gives.postErr {m : Eng α} {a : α} (h : m.Gives a) : m.PostErr P := by
  intro d r d' he
  cases (h d).symm.trans he

/-- What follows a piece need only be considered on what the piece can answer. -/
theorem Eng.PostErr.andThen_post {m : Eng α} {f : α → Eng β} {Q : α → Prop} (hm : m.PostErr P) (hQ : m.Post Q)
    (hf : ∀ a, Q a → (f a).PostErr P) : (m.andThen f).PostErr P := by
  intro d r d' he
  obtain ⟨r1, d1, h1, hseq⟩ | ⟨a, d1, h1, hseq⟩ := Eng.andThen_cases m f d
  · cases hseq.symm.trans he
    exact hm d r d' h1
  · exact hf a (hQ d a d1 h1) d1 r d' (hseq.symm.trans he)

end

/-- BUILD's body raises nothing over counts that FREQ has just written and of which DISTINCT says that one is not 0: there is a leaf (R110). -/
theorem FreqEffect.buildBody_postErr {s t : State} {P : Raise → Prop} (h : FreqEffect s t) (hdistinct : t.distinct ≠ 0) :
    (buildBody t).PostErr P := by
  obtain ⟨fs, hlen, hlt, ht⟩ := h
  have hfreq : t.freq = cellsFrom 0 (fs.map word) := by rw [ht]
  have hcount : t.distinct = word (presentSymbols t).length := by rw [presentSymbols_length hlen hlt hfreq, ht]
  have hwritten : ∀ sym, sym < 256 → (Cells.get t.freq sym).isSome = true := fun sym hsym => by
    rwa [hfreq, Cells.isSome_cellsFrom, List.length_map, hlen]
  have hpresent : presentSymbols t ≠ [] := fun hnone => hdistinct (by rw [hcount, hnone]; rfl)
  obtain ⟨_, _, _, hbuild⟩ := buildBody_gives hwritten hpresent
  exact (hbuild t rfl rfl).postErr

/-- COMPRESS never raises EMPTY_INPUT: it builds a tree only where DISTINCT is not 0 (R150). -/
theorem compressBody_postErr (s : State) : (bodyOf .compress s).PostErr (MayRaise .compress) := by
  refine (capacityIf_mayRaise).andThen fun _ =>
    (freqBody_postErr s).andThen_post (freqBody_post s) fun s1 hfreq => ?_
  split
  · exact Eng.postErr_ret
  · next hdistinct =>
    exact (hfreq.buildBody_postErr hdistinct).andThen fun s2 => (codegenBody_postErr s2).andThen fun s3 =>
      encodeBody_postErr s3 mayRaise_of_mem mayRaise_of_mem

/-- Every `raise` that a command's pseudocode can end in is one of R251's for that command. -/
theorem bodyOf_mayRaise (i : Instr) (s : State) : (bodyOf i s).PostErr (MayRaise i) := by
  cases i
  case nop | reset | abort => exact Eng.postErr_ret
  case freq => exact (capacityIf_mayRaise).andThen fun _ => freqBody_postErr s
  case build => exact (sequenceIf_mayRaise).andThen fun _ => buildBody_postErr s mayRaise_of_mem
  case codegen => exact (sequenceIf_mayRaise).andThen fun _ => codegenBody_postErr s
  case encode =>
    exact (sequenceIf_mayRaise).andThen fun _ => (capacityIf_mayRaise).andThen fun _ =>
      encodeBody_postErr s mayRaise_of_mem mayRaise_of_mem
  case compress => exact compressBody_postErr s
  case dinv => exact (sequenceIf_mayRaise).andThen fun _ => invertBody_postErr s mayRaise_of_mem
  case decode => exact decodeBody_postErr s mayRaise_of_mem mayRaise_of_mem mayRaise_of_mem
  case awbegin => exact (sequenceIf_mayRaise).andThen fun _ => (sequenceIf_mayRaise).andThen fun _ => Eng.postErr_ret
  case awrec =>
    exact (sequenceIf_mayRaise).andThen fun _ => (sequenceIf_mayRaise).andThen fun _ => (capacityIf_mayRaise).andThen fun _ =>
      (capacityIf_mayRaise).andThen fun _ => appendRecord_postErr s mayRaise_of_mem
  case awend => exact (sequenceIf_mayRaise).andThen fun _ => Eng.postErr_ret
  case arbegin =>
    exact (sequenceIf_mayRaise).andThen fun _ => (sequenceIf_mayRaise).andThen fun _ => (capacityIf_mayRaise).andThen fun _ =>
      (formatIf_mayRaise).andThen fun _ => readField_postErr.andThen fun _ => Eng.postErr_ret
  case arrec => exact arrecBody_postErr s mayRaise_of_mem mayRaise_of_mem mayRaise_of_mem
  case arend =>
    exact (sequenceIf_mayRaise).andThen fun _ => (sequenceIf_mayRaise).andThen fun _ => (formatIf_mayRaise).andThen fun _ =>
      Eng.postErr_ret
  case extract =>
    exact (arrecBody_postErr s mayRaise_of_mem mayRaise_of_mem mayRaise_of_mem).andThen fun t =>
      decodeBody_postErr t mayRaise_of_mem mayRaise_of_mem mayRaise_of_mem

/-! ### A command that fails (R253) -/

/-- No command's pseudocode sets ERR: only error completion does (R253). -/
theorem Effect.err {i : Instr} {s u : State} (h : Effect i s u) (herr : s.status.err = false) : u.status.err = false := by
  cases i
  case nop | freq | build | codegen | encode | compress | dinv | decode => exact (h.keepsSession (by decide)).err.trans herr
  case reset =>
    subst h
    rfl
  case abort =>
    subst h
    exact herr
  case awend =>
    obtain ⟨_, rfl⟩ := h
    exact herr
  case awbegin =>
    obtain ⟨_, _, rfl⟩ := h
    exact herr
  case awrec | arend =>
    obtain ⟨_, _, _, rfl⟩ := h
    exact herr
  case arbegin =>
    obtain ⟨_, _, _, _, _, rfl⟩ := h
    exact herr
  case arrec =>
    obtain ⟨_, _, _, _, _, _, _, rfl⟩ := h
    exact herr
  case extract =>
    obtain ⟨_, ⟨_, _, _, _, _, _, _, rfl⟩, _, _, rfl⟩ := h
    exact herr

/-- Settles O8: ERR = 1 after an issue with ERR = 0 is error completion's, and its error is one the pseudocode can raise. -/
theorem failedCommandOnlyFails : Obligations.FailedCommandOnlyFails := by
  unfold Obligations.FailedCommandOnlyFails
  intro i s t hs h ht
  obtain ⟨u, d, hu, rfl⟩ | ⟨r, d, hr, rfl⟩ := exec_next h
  · have herr : u.status.err = false := (bodyOf_post i s _ _ _ hu).err hs
    rw [noteReads_status, successCompletion_status] at ht
    exact absurd ht (Bool.eq_false_iff.1 herr)
  · exact ⟨r.code, r.info, by rw [noteReads_eq], bodyOf_mayRaise i s _ _ _ hr⟩

end Sys2Proof.Machine
end

section
/-! SUPPORT. The issue of a command and the ENGINE's step on it (60_exceptions.md R250). -/

namespace Sys2Proof.Machine

/-- The word that `withFetchWord` places for a command leaves the issued command and the ENGINE's turn (log 8). -/
theorem withFetchWord_encode (i : Instr) (s : State) :
    s.withFetchWord 64 (encode i).toNat = issue (encode i) { s with inputs := .engine :: s.inputs } := by
  have hword : word ((encode i).toNat % 2 ^ 64) = encode i :=
    BitVec.eq_of_toNat_eq (by rw [word_toNat (Nat.mod_lt _ (by decide)), Nat.mod_eq_of_lt (encode i).isLt])
  unfold State.withFetchWord placeCommand
  rw [hword]

/-- The ENGINE's turn on a pending command is that command (R250). -/
theorem step_command {s : State} {v : Word} {i : Instr} (hturn : engineTurn s) (hbusy : s.status.busy = true)
    (hpending : s.pending = some v) (hd : decode v = .ok i) : step s = exec i (dropMove s) :=
  (step_engineTurn hturn).trans (engineStep_command (s := dropMove s) hbusy hpending hd)

/-- The ENGINE's turn with no command pending passes (log 7). -/
theorem engineStep_idle {s : State} (hbusy : s.status.busy = false) : engineStep s = .next s := by
  simp [engineStep, fetch, hbusy]

/-- Settles O4: the cases of a step by the move that comes first. -/
theorem stepRunsDecodedCommand : Obligations.StepRunsDecodedCommand := by
  unfold Obligations.StepRunsDecodedCommand
  refine ⟨fun s v i hturn hbusy hpending hd _ => step_command hturn hbusy hpending hd, fun s i => ?_,
    fun s hturn hbusy => (step_engineTurn hturn).trans (engineStep_idle (s := dropMove s) hbusy),
    fun s op rest hi => dropMove_cons hi ▸ step_hostMove hi⟩
  have hdecode : decode (encode i) = .ok i := decode_ok_iff.2 (eq_encode_iff.1 rfl)
  rw [withFetchWord_encode, step_command (.inr rfl) rfl rfl hdecode]
  rfl

/-- Settles O5: a write of CMD while BUSY = 0 is the issue. -/
theorem cmdWriteIssuesTheCommand : Obligations.CmdWriteIssuesTheCommand := by
  unfold Obligations.CmdWriteIssuesTheCommand
  exact fun s v hbusy => hostAccess_writeReg (r := 1) hbusy (by decide) v

end Sys2Proof.Machine
end

section
/-! SUPPORT. Error completion field by field (60_exceptions.md R253), over the destinations of 30_encoding.md R81. -/

namespace Sys2Proof.Machine

/-- The state with the destinations that `cleared` names cleared, each field in one place (R253). -/
def withCleared (cleared : Dest → Bool) (s : State) : State :=
  { s with
    inbuf := if cleared .inbuf then [] else s.inbuf, inLen := if cleared .inLen then 0 else s.inLen,
    namebuf := if cleared .namebuf then [] else s.namebuf, nameLen := if cleared .nameLen then 0 else s.nameLen,
    paybuf := if cleared .paybuf then [] else s.paybuf, payLen := if cleared .payLen then 0 else s.payLen,
    outbuf := if cleared .outbuf then [] else s.outbuf, outLen := if cleared .outLen then 0 else s.outLen,
    arcbuf := if cleared .arcbuf then [] else s.arcbuf, arcLen := if cleared .arcLen then 0 else s.arcLen,
    freq := if cleared .freq then [] else s.freq, distinct := if cleared .distinct then 0 else s.distinct,
    nodes := if cleared .nodes then [] else s.nodes, nodeCount := if cleared .nodeCount then 0 else s.nodeCount,
    root := if cleared .root then 0 else s.root,
    clen := if cleared .ctab then [] else s.clen, cbit := if cleared .ctab then [] else s.cbit,
    codeCount := if cleared .codeCount then 0 else s.codeCount,
    dtab := if cleared .dtab then [] else s.dtab,
    status := { s.status with
      freqV := s.status.freqV && !cleared .freq, treeV := s.status.treeV && !cleared .nodes,
      ctabV := s.status.ctabV && !cleared .ctab, dtabV := s.status.dtabV && !cleared .dtab } }

theorem withCleared_none (s : State) : withCleared (fun _ => false) s = s := by simp [withCleared]

theorem withCleared_clearDest (cleared : Dest → Bool) (s : State) (d : Dest) :
    withCleared cleared (clearDest s d) = withCleared (fun e => decide (e = d) || cleared e) s := by
  cases d <;> simp [withCleared, clearDest, Cells.invalidate]

/-- Clearing a list of destinations one after another clears each of them, in whatever order they stand. -/
theorem foldl_clearDest (ds : List Dest) (s : State) : ds.foldl clearDest s = withCleared ds.contains s := by
  induction ds generalizing s with
  | nil => exact (withCleared_none s).symm
  | cons d ds ih =>
    rw [List.foldl_cons, ih, withCleared_clearDest]
    exact congrArg (withCleared · s) (funext fun e => (List.contains_cons (a := d) (b := e)).symm)

theorem sparesDestinations_eq (e : ErrCode) : e.sparesDestinations = (e == .sequenceError || e == .illegalCommand) := by
  cases e <;> rfl

/-- SEQUENCE and ILLEGAL_COMMAND clear no destination, every other error all of them. -/
theorem clearedBy_eq (ds : List Dest) (r : Raise) (s : State) :
    clearedBy ds r s = withCleared (fun d => !(r.code == .sequenceError || r.code == .illegalCommand) && ds.contains d) s := by
  unfold clearedBy
  rw [← sparesDestinations_eq]
  cases r.code.sparesDestinations
  · exact foldl_clearDest ds s
  · exact (withCleared_none s).symm

/-- Settles O7: the destinations are those written out, and error completion clears them and closes the sessions. -/
theorem errorCompletionEffect : Obligations.ErrorCompletionEffect := by
  unfold Obligations.ErrorCompletionEffect
  intro listed
  have hlisted : ∀ i d, d ∈ destinations i ↔ d ∈ listed i := by
    intro i d
    cases i
    case reset => exact List.Perm.mem_iff (by decide)
    all_goals exact Iff.rfl
  refine ⟨hlisted, ?_⟩
  intro i e info s t cleared u
  have hcontains : (destinations i).contains = (listed i).contains := funext fun d =>
    Bool.eq_iff_iff.2 (List.contains_iff_mem.trans ((hlisted i d).trans List.contains_iff_mem.symm))
  have hcleared : clearedBy (destinations i) { code := e, info := info } s = withCleared cleared s := by rw [clearedBy_eq, hcontains]
  exact (errorCompletion_eq _ _ _).trans (by rw [hcleared]; rfl)

end Sys2Proof.Machine
end

section
/-! SUPPORT. SEQUENCE (60_exceptions.md R252): the first checks of each command, on its tables and on the sessions. -/

namespace Sys2Proof.Machine

section
variable {s : State}

theorem needFreq_raises (h : s.status.freqV = false) : (needFreq s).Raises .sequenceError 1 := sequenceIf_raises (by simp [h])

theorem needTree_raises (h : s.status.treeV = false) : (needTree s).Raises .sequenceError 2 := sequenceIf_raises (by simp [h])

theorem needCtab_raises (h : s.status.ctabV = false) : (needCtab s).Raises .sequenceError 3 := sequenceIf_raises (by simp [h])

theorem needDtab_raises (h : s.status.dtabV = false) : (needDtab s).Raises .sequenceError 4 := sequenceIf_raises (by simp [h])

theorem arrecBody_notOpen (h : s.status.ar = .idle) : (arrecBody s).Raises .sequenceError 7 :=
  (sequenceIf_raises (by simp [h])).andThen

theorem arrecBody_noneRemain (hopen : s.status.ar = .opened) (h : s.recRemain = 0) : (arrecBody s).Raises .sequenceError 9 :=
  (sequenceIf_gives (by simp [hopen])).andThen_raises (sequenceIf_raises (by simp [h])).andThen

end

/-- Settles O10: the first failing check of each command, after checks that pass. -/
theorem sequenceErrors : Obligations.SequenceErrors := by
  unfold Obligations.SequenceErrors
  intro fails s
  refine ⟨fun hfreq => ?_, fun htree => ?_, fun hctab => ⟨?_, ?_⟩, fun hdtab => ?_, fun haw => ⟨?_, ?_⟩, fun haw => ?_,
    fun haw hctab => ?_, fun haw har => ?_, fun har => ⟨?_, ?_, ?_⟩, fun har => ?_, fun har haw => ?_,
    fun har hremain => ⟨?_, ?_⟩, fun har hremain => ?_⟩
  · exact exec_raises (i := .build) (needFreq_raises hfreq).andThen
  · exact exec_raises (i := .codegen) (needTree_raises htree).andThen
  · exact exec_raises (i := .encode) (needCtab_raises hctab).andThen
  · exact exec_raises (i := .dinv) (needCtab_raises hctab).andThen
  · exact exec_raises (i := .decode) (needDtab_raises hdtab).andThen
  · exact exec_raises (i := .awrec) (Eng.Raises.andThen (sequenceIf_raises (by simp [haw])))
  · exact exec_raises (i := .awend) (Eng.Raises.andThen (sequenceIf_raises (by simp [haw])))
  · exact exec_raises (i := .awbegin) (Eng.Raises.andThen (sequenceIf_raises (by simp [haw])))
  · exact exec_raises (i := .awrec) ((sequenceIf_gives (by simp [haw])).andThen_raises (needCtab_raises hctab).andThen)
  · exact exec_raises (i := .arbegin) ((sequenceIf_gives (by simp [har])).andThen_raises
      (Eng.Raises.andThen (sequenceIf_raises (by simp [haw]))))
  · exact exec_raises (i := .arrec) (arrecBody_notOpen har)
  · exact exec_raises (i := .arend) (Eng.Raises.andThen (sequenceIf_raises (by simp [har])))
  · exact exec_raises (i := .extract) (arrecBody_notOpen har).andThen
  · exact exec_raises (i := .arbegin) (Eng.Raises.andThen (sequenceIf_raises (by simp [har])))
  · exact exec_raises (i := .awbegin) ((sequenceIf_gives (by simp [haw])).andThen_raises
      (Eng.Raises.andThen (sequenceIf_raises (by simp [har]))))
  · exact exec_raises (i := .arrec) (arrecBody_noneRemain har hremain)
  · exact exec_raises (i := .extract) (arrecBody_noneRemain har hremain).andThen
  · exact exec_raises (i := .arend) ((sequenceIf_gives (by simp [har])).andThen_raises
      (Eng.Raises.andThen (sequenceIf_raises (bne_iff_ne.2 hremain))))

end Sys2Proof.Machine
end

section
/-! SUPPORT. Reset (70_reset_and_hazards.md R290 to R292): the state it leaves, from any state and at the start of a run. -/

namespace Sys2Proof.Machine

/-- The reset input (R292). -/
theorem step_resetMove {s : State} {rest : List Move} (hi : s.inputs = .hardReset :: rest) :
    step s = .next (resetAction (dropMove s)) := by
  unfold step
  simp only [hi]

/-- Settles O25: ResetAction over the moves that are left. -/
theorem hardResetInAnyState : Obligations.HardResetInAnyState := by
  unfold Obligations.HardResetInAnyState
  intro s rest hi
  rw [step_resetMove hi, dropMove_cons hi]
  rfl

theorem toWord_reset : Status.toWord Status.reset = 0 := by decide

/-- The registers from CMD to ERR_INFO read 0 after reset (R291). -/
theorem regRead_resetWith (p : Params) {r : Nat} (hlow : 1 ≤ r) (hhigh : r ≤ 15) : regRead (State.resetWith p) r = 0 := by
  interval_cases r
  · rfl
  · exact toWord_reset
  all_goals rfl

/-- Settles O26: a register's read is `regRead`, and no cell is listed. -/
theorem resetState : Obligations.ResetState := by
  unfold Obligations.ResetState
  intro p s
  have reads : ∀ r, r < 32 → hostRead s (hostAddr 0 r) = some (regRead s r) := fun r hr => hostRead_hostAddr s (by decide) (reg_lt hr)
  refine ⟨reads 0 (by decide), fun r hlow hhigh => ?_, reads 16 (by decide), reads 17 (by decide), reads 18 (by decide),
    reads 19 (by decide), reads 20 (by decide), rfl, fun i => ⟨rfl, rfl, rfl, rfl, rfl, rfl, rfl, rfl, rfl⟩, fun c => rfl, rfl⟩
  rw [reads r (by omega), regRead_resetWith p hlow hhigh]

/-- Settles O57: each invariant's own law of reset, at the reference parameters. -/
theorem invariantsHoldAtReset : Obligations.InvariantsHoldAtReset := by
  unfold Obligations.InvariantsHoldAtReset
  have hparams : Params.wf Config.referenceParams = true := by decide
  exact ⟨Memory.wf_reset _, resetWith_inBounds hparams, statusLegal_invariant.reset State.reset (by decide),
    sessionLegal_of_closed hparams rfl rfl, resetWith_tablesLegal _, rfl⟩

end Sys2Proof.Machine
end

section
/-! SUPPORT. A pending command completes (70_reset_and_hazards.md R307, 10_state.md R27), under the HOST's defined reads and under `wait`
(30_encoding.md R87). -/

namespace Sys2Proof.Machine

/-! ### The ENGINE's turn -/

/-- No command's pseudocode writes the moves to come or what the HOST has read (30_encoding.md R81). -/
theorem Effect.hostSide {i : Instr} {s u : State} (h : Effect i s u) : u.inputs = s.inputs ∧ u.observed = s.observed := by
  cases i
  case nop | reset | abort =>
    subst h
    exact ⟨rfl, rfl⟩
  case compress =>
    rw [CompressEffect.writes h]
    exact ⟨rfl, rfl⟩
  case awend =>
    obtain ⟨_, rfl⟩ := h
    exact ⟨rfl, rfl⟩
  case encode | decode | awbegin =>
    obtain ⟨_, _, rfl⟩ := h
    exact ⟨rfl, rfl⟩
  case freq | dinv | awrec | arend =>
    obtain ⟨_, _, _, rfl⟩ := h
    exact ⟨rfl, rfl⟩
  case codegen =>
    obtain ⟨_, _, _, rfl, _⟩ := h
    exact ⟨rfl, rfl⟩
  case arbegin =>
    obtain ⟨_, _, _, _, _, rfl⟩ := h
    exact ⟨rfl, rfl⟩
  case build =>
    obtain ⟨_, _, _, _, _, _, rfl⟩ := h
    exact ⟨rfl, rfl⟩
  case arrec =>
    obtain ⟨_, _, _, _, _, _, _, rfl⟩ := h
    exact ⟨rfl, rfl⟩
  case extract =>
    obtain ⟨_, ⟨_, _, _, _, _, _, _, rfl⟩, _, _, rfl⟩ := h
    exact ⟨rfl, rfl⟩

/-- The command pending in `s` has completed in `t` (60_exceptions.md R253, R254), and the HOST has done nothing meanwhile. -/
structure Completed (s t : State) : Prop where
  busy : t.status.busy = false
  done : t.status.done = true
  inputs : t.inputs = s.inputs
  observed : t.observed = s.observed

theorem completed_successCompletion {i : Instr} {s u : State} (h : Effect i s u) : Completed s (successCompletion u) :=
  ⟨rfl, rfl, h.hostSide.1, h.hostSide.2⟩

theorem completed_errorCompletion (ds : List Dest) (r : Raise) (s : State) : Completed s (errorCompletion ds r s) := by
  obtain ⟨_, _, _, _, hstatus⟩ := errorCompletion_status ds r s
  obtain ⟨_, _, _, hinputs, hobserved, _⟩ := errorCompletion_frame ds r s
  exact ⟨by rw [hstatus], by rw [hstatus], hinputs, hobserved⟩

theorem Completed.noteReads {s t : State} (h : Completed s t) (d : Nat) : Completed s (t.noteReads d) :=
  noteReads_elim d t (fun k => ⟨k.busy, k.done, k.inputs, k.observed⟩) h

theorem exec_completed {i : Instr} {s t : State} (h : exec i s = .next t) : Completed s t := by
  obtain ⟨u, d, hu, rfl⟩ | ⟨r, d, _, rfl⟩ := exec_cases h
  · exact (completed_successCompletion hu).noteReads d
  · exact (completed_errorCompletion _ r s).noteReads d

/-- The ENGINE's turn completes the pending command, legal or not (60_exceptions.md R250, 30_encoding.md R83). -/
theorem engineStep_completes {s : State} (hb : s.status.busy = true) (hp : s.pending.isSome = true) :
    ∃ t, engineStep s = .next t ∧ Completed s t := by
  obtain ⟨v, hv⟩ := Option.isSome_iff_exists.1 hp
  cases hd : decode v with
  | error e => exact ⟨_, engineStep_illegal hb hv hd, completed_errorCompletion [] _ s⟩
  | ok i =>
    obtain ⟨t, ht, _⟩ := everyCommandCompletes i s
    exact ⟨t, (engineStep_command hb hv hd).trans ht, exec_completed ht⟩

/-! ### Runs -/

/-- A run goes on from where its first step leads. -/
theorem run_of_step {s t : State} (h : step s = .next t) (k : Nat) : Host.Core.run core (k + 1) s = Host.Core.run core k t := by
  have hcore : core.step s = .next t := h
  simp only [Host.Core.run, hcore]

/-- The state with the moves `ms` to come, once the HOST has read the values `vs` besides. -/
def State.afterReads (s : State) (ms : List Move) (vs : List Word) : State := { s with inputs := ms, observed := s.observed ++ vs }

@[simp] theorem afterReads_afterReads (s : State) (ms ns : List Move) (vs ws : List Word) :
    (s.afterReads ms vs).afterReads ns ws = s.afterReads ns (vs ++ ws) := by
  simp [State.afterReads]

theorem afterReads_nil {s : State} {ms : List Move} (hi : s.inputs = ms) : s.afterReads ms [] = s := by
  subst hi
  simp [State.afterReads]

/-- A defined read while BUSY = 1 is one step (R27). -/
theorem step_busyRead {s : State} {r : Nat} {rest : List Move} (hb : s.status.busy = true) (hr : r = 0 ∨ r = 2 ∨ 16 ≤ r ∧ r ≤ 20)
    (hi : s.inputs = .host (.read (hostAddr 0 r)) :: rest) : step s = .next (s.afterReads rest [regRead s r]) := by
  have hb' : { s with inputs := rest }.status.busy = true := hb
  rw [step_hostMove hi, dropMove_cons hi, hostAccess_busyRead_defined hb' hr]
  rfl

/-- The defined reads are taken one a step, and the command stays pending (R27). -/
theorem run_busyReads (rest : List Move) (k : Nat) {rs : List Nat} (hrs : ∀ r ∈ rs, r = 0 ∨ r = 2 ∨ 16 ≤ r ∧ r ≤ 20) {s : State}
    (hb : s.status.busy = true) (hi : s.inputs = rs.map (fun r => Move.host (.read (hostAddr 0 r))) ++ rest) :
    Host.Core.run core (rs.length + k) s = Host.Core.run core k (s.afterReads rest (rs.map (regRead s))) := by
  induction rs generalizing s with
  | nil =>
    have hs : s.afterReads rest [] = s := afterReads_nil hi
    rw [List.length_nil, Nat.zero_add, List.map_nil, hs]
  | cons r rs ih =>
    obtain ⟨hr, hrs⟩ := List.forall_mem_cons.1 hrs
    let t := s.afterReads (rs.map (fun r => Move.host (.read (hostAddr 0 r))) ++ rest) [regRead s r]
    have hstep : step s = .next t := step_busyRead hb hr hi
    have hreads : Host.Core.run core (rs.length + k) t = _ := ih hrs hb rfl
    rw [List.length_cons, Nat.add_right_comm, run_of_step hstep, hreads, afterReads_afterReads]
    rfl

/-! ### `wait` (30_encoding.md R87) -/

/-- One pass reads STATUS, and its bit 0 says whether the loop is left. -/
theorem step_wait {s : State} {n : Nat} {rest : List Move} (hi : s.inputs = .wait n :: rest) :
    step s = .next (s.afterReads (waitRest n (Status.toWord s.status) rest) [Status.toWord s.status]) := by
  have hbit : (Status.toWord s.status).getLsbD 0 = s.status.busy := (statusWordLayout s.status).1
  rw [step_waitMove hi, dropMove_cons hi, waitAccess_eq n { s with inputs := rest } hbit]
  unfold waitRest
  rw [hbit]
  cases n <;> rfl

theorem waitRest_idle {t : Status} (h : t.busy = false) (n : Nat) (rest : List Move) : waitRest n t.toWord rest = rest := by
  unfold waitRest
  rw [(statusWordLayout t).1, h]
  rfl

theorem waitRest_busy_zero {t : Status} (h : t.busy = true) (rest : List Move) :
    waitRest 0 t.toWord rest = .engine :: .wait 0 :: rest := by
  rw [waitRest, (statusWordLayout t).1, h]
  rfl

theorem waitRest_busy_succ {t : Status} (h : t.busy = true) (n : Nat) (rest : List Move) :
    waitRest (n + 1) t.toWord rest = .wait n :: rest := by
  rw [waitRest, (statusWordLayout t).1, h]
  rfl

/-- With BUSY = 0 one read of STATUS leaves the loop, whatever the schedule. -/
theorem step_wait_idle {s : State} {n : Nat} {rest : List Move} (hb : s.status.busy = false) (hi : s.inputs = .wait n :: rest) :
    step s = .next (s.afterReads rest [Status.toWord s.status]) := by
  rw [step_wait hi, waitRest_idle hb]

/-- Over a pending command the loop reads STATUS as often as its schedule says, and then it is the ENGINE's turn. -/
theorem run_wait_busy {rest : List Move} (k polls : Nat) {s : State} (hb : s.status.busy = true) (hi : s.inputs = .wait polls :: rest) :
    Host.Core.run core (polls + 1 + k) s = Host.Core.run core k
      (s.afterReads (.engine :: .wait 0 :: rest) (List.replicate (polls + 1) (Status.toWord s.status))) := by
  have hstep := step_wait hi
  induction polls generalizing s with
  | zero =>
    rw [waitRest_busy_zero hb] at hstep
    rw [Nat.zero_add, Nat.add_comm, run_of_step hstep]
    rfl
  | succ n ih =>
    rw [waitRest_busy_succ hb] at hstep
    have hloop := ih (s := s.afterReads (.wait n :: rest) [Status.toWord s.status]) hb rfl (step_wait rfl)
    rw [Nat.add_right_comm, run_of_step hstep, hloop, afterReads_afterReads]
    rfl

/-- Settles O60: the HOST's moves leave the command pending up to the ENGINE's turn, which completes it. -/
theorem pendingCommandCompletes : Obligations.PendingCommandCompletes := by
  unfold Obligations.PendingCommandCompletes
  refine ⟨fun s rs hb hp hrs hi => ?_, fun s polls rest hi => ⟨fun hb => step_wait_idle hb hi, fun hb hp => ?_⟩⟩
  · let u := s.afterReads [] (rs.map (regRead s))
    have hreads : Host.Core.run core (rs.length + 1) s = Host.Core.run core 1 u :=
      run_busyReads [] 1 hrs hb (hi.trans (List.append_nil _).symm)
    obtain ⟨t, ht, hbusy, hdone, hinputs, hobserved⟩ := engineStep_completes (s := u) hb hp
    have hengine : step u = .next t := ht
    exact ⟨t, hreads.trans (run_of_step hengine 0), hbusy, hdone, hinputs, by simp [hobserved, u, State.afterReads]⟩
  · let polled := List.replicate (polls + 1) (Status.toWord s.status)
    have hpolls : Host.Core.run core (polls + 3) s = Host.Core.run core 2 (s.afterReads (.engine :: .wait 0 :: rest) polled) :=
      run_wait_busy 2 polls hb hi
    obtain ⟨t, ht, hbusy, hdone, hinputs, hobserved⟩ := engineStep_completes (s := s.afterReads (.wait 0 :: rest) polled) hb hp
    have hengine : step (s.afterReads (.engine :: .wait 0 :: rest) polled) = .next t := ht
    have hlast : step t = .next (t.afterReads rest [Status.toWord t.status]) := step_wait_idle hbusy hinputs
    exact ⟨t.afterReads rest [Status.toWord t.status], hpolls.trans ((run_of_step hengine 1).trans (run_of_step hlast 0)), hbusy, hdone,
      rfl, congrArg (· ++ [Status.toWord t.status]) hobserved⟩

end Sys2Proof.Machine
end
